-- ==== Sys2Proof/Word.lean ====
section
/-! DEFINITION. The fixed widths of the core (40_value_types.md R84), the register number
(10_state.md R14) and the access width (20_memory.md R45). The operators are in
Machine/ValueTypes.lean. -/

namespace Sys2Proof

/-- 8 bits, the smallest addressable unit (R84, R42). -/
abbrev Byte := BitVec 8

/-- 16 bits (R84). -/
abbrev HalfWord := BitVec 16

/-- 32 bits: a register, a memory word, an address, an instruction word (R84, R32, R70). -/
abbrev Word := BitVec 32

/-- A register identifier: "one of 32 values; no other register number exists" (R14). -/
abbrev Reg := Fin 32

/-- How a bit vector is read (R85): as `u(v)` or, in two's complement, as `s(v)`. -/
inductive Signedness where
  | unsigned
  | signed
  deriving DecidableEq, Repr

/-- The six fixed-width value types (R84). -/
inductive ValueType where
  | word
  | signedWord
  | halfWord
  | signedHalfWord
  | byte
  | signedByte
  deriving DecidableEq, Repr

/-- The width N of a value type, in bits (R84). -/
abbrev ValueType.bits : ValueType → Nat
  | .word | .signedWord => 32
  | .halfWord | .signedHalfWord => 16
  | .byte | .signedByte => 8

/-- The signedness of a value type (R84, R85). -/
def ValueType.signedness : ValueType → Signedness
  | .word | .halfWord | .byte => .unsigned
  | .signedWord | .signedHalfWord | .signedByte => .signed

/-- The width of a memory access: LB, LBU, SB move 1 byte; LH, LHU, SH 2; LW, SW 4 (R45). -/
inductive Width where
  | byte
  | half
  | word
  deriving DecidableEq, Repr

/-- The access width in bytes (R45). -/
abbrev Width.bytes : Width → Nat
  | .byte => 1
  | .half => 2
  | .word => 4

/-- The access width in bits, `8n` (R51). -/
abbrev Width.bits : Width → Nat
  | .byte => 8
  | .half => 16
  | .word => 32

end Sys2Proof
end

