-- ==== Sys2Proof/Syntax.lean ====
section
/-! DEFINITION. The decoded records (30_encoding.md R66, R68): one constructor per row of
spec/opcode_table.json. A register field is a `Reg`, so it is always in range; an immediate, a shift
amount or an offset is the number the record holds, whose range WellFormed.lean checks (R67). -/

namespace Sys2Proof

/-- The 38 opcodes with their operands (R66, R68). The field order is that of R66. -/
inductive Instr where
  -- I format, loads (R121 to R125)
  | lb (rd rs1 : Reg) (imm : Int)
  | lh (rd rs1 : Reg) (imm : Int)
  | lw (rd rs1 : Reg) (imm : Int)
  | lbu (rd rs1 : Reg) (imm : Int)
  | lhu (rd rs1 : Reg) (imm : Int)
  -- I format, ALU with immediate (R127 to R132)
  | addi (rd rs1 : Reg) (imm : Int)
  | slti (rd rs1 : Reg) (imm : Int)
  | sltiu (rd rs1 : Reg) (imm : Int)
  | xori (rd rs1 : Reg) (imm : Int)
  | ori (rd rs1 : Reg) (imm : Int)
  | andi (rd rs1 : Reg) (imm : Int)
  -- I format, declared without semantics (R162, R163); SCALL has `rd = rs1 = imm = 0` (R72)
  | jalr (rd rs1 : Reg) (imm : Int)
  | scall
  -- RShift format (R133 to R135)
  | slli (rd rs1 : Reg) (shamt : Nat)
  | srli (rd rs1 : Reg) (shamt : Nat)
  | srai (rd rs1 : Reg) (shamt : Nat)
  -- R format (R137 to R146)
  | add (rd rs1 rs2 : Reg)
  | sub (rd rs1 rs2 : Reg)
  | sll (rd rs1 rs2 : Reg)
  | slt (rd rs1 rs2 : Reg)
  | sltu (rd rs1 rs2 : Reg)
  | xor (rd rs1 rs2 : Reg)
  | srl (rd rs1 rs2 : Reg)
  | sra (rd rs1 rs2 : Reg)
  | or (rd rs1 rs2 : Reg)
  | and (rd rs1 rs2 : Reg)
  -- S format (R148 to R150)
  | sb (rs1 rs2 : Reg) (imm : Int)
  | sh (rs1 rs2 : Reg) (imm : Int)
  | sw (rs1 rs2 : Reg) (imm : Int)
  -- SB format (R154 to R159); the offset counts instructions
  | beq (rs1 rs2 : Reg) (offset : Int)
  | bne (rs1 rs2 : Reg) (offset : Int)
  | blt (rs1 rs2 : Reg) (offset : Int)
  | bge (rs1 rs2 : Reg) (offset : Int)
  | bltu (rs1 rs2 : Reg) (offset : Int)
  | bgeu (rs1 rs2 : Reg) (offset : Int)
  -- U format (R164, R165)
  | lui (rd : Reg) (imm20 : Nat)
  | auipc (rd : Reg) (imm20 : Nat)
  -- UJ format (R166)
  | jal (rd : Reg) (offset : Int)
  deriving DecidableEq, Repr

/-- An entry of PROGRAM: a decoded instruction, or `Invalid(w)`, the record R79 adds for a word of the
binary layer that matches no row of the opcode table. -/
inductive Record where
  | instr (i : Instr)
  | invalid (w : Word)
  deriving DecidableEq, Repr

end Sys2Proof
end

