-- ==== Sys2Proof/Decode.lean ====
section
/-! DEFINITION. The 32-bit binary layer (30_encoding.md section 2, decisions D1, D2, D20): `decode`, total on
every word, rejecting a word that matches no row by name (`Record.invalid`), and `encode`, its inverse on
well-formed records (R80). An instruction word has no byte serialisation (R44). -/

namespace Sys2Proof

/-! ## Fields (R71 to R77) -/

/-- `inst[6:0]`, the major opcode (R78). -/
def opcodeOf (w : Word) : BitVec 7 := w.extractLsb' 0 7

/-- `inst[14:12]` (R71). -/
def funct3Of (w : Word) : BitVec 3 := w.extractLsb' 12 3

/-- `inst[31:25]` (R71). -/
def funct7Of (w : Word) : BitVec 7 := w.extractLsb' 25 7

/-- The register whose number is the 5-bit field. -/
def regOfBits (b : BitVec 5) : Reg := ⟨b.toNat, b.isLt⟩

/-- The 5-bit field that holds a register's number. -/
def regBits (r : Reg) : BitVec 5 := BitVec.ofNat 5 r.val

/-- `inst[11:7]` (R71). -/
def rdOf (w : Word) : Reg := regOfBits (w.extractLsb' 7 5)

/-- `inst[19:15]` (R71). -/
def rs1Of (w : Word) : Reg := regOfBits (w.extractLsb' 15 5)

/-- `inst[24:20]` (R71). -/
def rs2Of (w : Word) : Reg := regOfBits (w.extractLsb' 20 5)

/-- The shift amount `u(inst[24:20])` (R77). -/
def shamtOf (w : Word) : Nat := (w.extractLsb' 20 5).toNat

/-- The I immediate `s(inst[31:20])` (R72). -/
def immIOf (w : Word) : Int := (w.extractLsb' 20 12).toInt

/-- The S immediate `s(inst[31:25] ++ inst[11:7])` (R73). -/
def immSOf (w : Word) : Int :=
  (w.extractLsb' 25 7 ++ w.extractLsb' 7 5 : BitVec 12).toInt

/-- The SB offset `s(inst[31] ++ inst[7] ++ inst[30:25] ++ inst[11:8])`, unscaled (R74, D2). -/
def offsetSBOf (w : Word) : Int :=
  (w.extractLsb' 31 1 ++ w.extractLsb' 7 1 ++ w.extractLsb' 25 6 ++ w.extractLsb' 8 4 : BitVec 12).toInt

/-- The U immediate `u(inst[31:12])` (R75). -/
def immUOf (w : Word) : Nat := (w.extractLsb' 12 20).toNat

/-- The UJ offset `s(inst[31] ++ inst[19:12] ++ inst[20] ++ inst[30:21])`, unscaled (R76, D2). -/
def offsetUJOf (w : Word) : Int :=
  (w.extractLsb' 31 1 ++ w.extractLsb' 12 8 ++ w.extractLsb' 20 1 ++ w.extractLsb' 21 10 : BitVec 20).toInt

/-! ## Decode (R78, R79) -/

/-- Major opcode 0x03 (R78). -/
def decodeLoad (w : Word) : Record :=
  if funct3Of w = 0b000#3 then .instr (.lb (rdOf w) (rs1Of w) (immIOf w))
  else if funct3Of w = 0b001#3 then .instr (.lh (rdOf w) (rs1Of w) (immIOf w))
  else if funct3Of w = 0b010#3 then .instr (.lw (rdOf w) (rs1Of w) (immIOf w))
  else if funct3Of w = 0b100#3 then .instr (.lbu (rdOf w) (rs1Of w) (immIOf w))
  else if funct3Of w = 0b101#3 then .instr (.lhu (rdOf w) (rs1Of w) (immIOf w))
  else .invalid w

/-- Major opcode 0x13: the I-format ALU opcodes and the shift-immediates, whose funct7 is part of the match
(R77, R78). -/
def decodeAluImm (w : Word) : Record :=
  if funct3Of w = 0b000#3 then .instr (.addi (rdOf w) (rs1Of w) (immIOf w))
  else if funct3Of w = 0b010#3 then .instr (.slti (rdOf w) (rs1Of w) (immIOf w))
  else if funct3Of w = 0b011#3 then .instr (.sltiu (rdOf w) (rs1Of w) (immIOf w))
  else if funct3Of w = 0b100#3 then .instr (.xori (rdOf w) (rs1Of w) (immIOf w))
  else if funct3Of w = 0b110#3 then .instr (.ori (rdOf w) (rs1Of w) (immIOf w))
  else if funct3Of w = 0b111#3 then .instr (.andi (rdOf w) (rs1Of w) (immIOf w))
  else if funct3Of w = 0b001#3 then
    if funct7Of w = 0b0000000#7 then .instr (.slli (rdOf w) (rs1Of w) (shamtOf w)) else .invalid w
  else
    if funct7Of w = 0b0000000#7 then .instr (.srli (rdOf w) (rs1Of w) (shamtOf w))
    else if funct7Of w = 0b0100000#7 then .instr (.srai (rdOf w) (rs1Of w) (shamtOf w))
    else .invalid w

/-- Major opcode 0x33 (R78). -/
def decodeAluReg (w : Word) : Record :=
  if funct7Of w = 0b0000000#7 then
    if funct3Of w = 0b000#3 then .instr (.add (rdOf w) (rs1Of w) (rs2Of w))
    else if funct3Of w = 0b001#3 then .instr (.sll (rdOf w) (rs1Of w) (rs2Of w))
    else if funct3Of w = 0b010#3 then .instr (.slt (rdOf w) (rs1Of w) (rs2Of w))
    else if funct3Of w = 0b011#3 then .instr (.sltu (rdOf w) (rs1Of w) (rs2Of w))
    else if funct3Of w = 0b100#3 then .instr (.xor (rdOf w) (rs1Of w) (rs2Of w))
    else if funct3Of w = 0b101#3 then .instr (.srl (rdOf w) (rs1Of w) (rs2Of w))
    else if funct3Of w = 0b110#3 then .instr (.or (rdOf w) (rs1Of w) (rs2Of w))
    else .instr (.and (rdOf w) (rs1Of w) (rs2Of w))
  else if funct7Of w = 0b0100000#7 then
    if funct3Of w = 0b000#3 then .instr (.sub (rdOf w) (rs1Of w) (rs2Of w))
    else if funct3Of w = 0b101#3 then .instr (.sra (rdOf w) (rs1Of w) (rs2Of w))
    else .invalid w
  else .invalid w

/-- Major opcode 0x23 (R78). -/
def decodeStore (w : Word) : Record :=
  if funct3Of w = 0b000#3 then .instr (.sb (rs1Of w) (rs2Of w) (immSOf w))
  else if funct3Of w = 0b001#3 then .instr (.sh (rs1Of w) (rs2Of w) (immSOf w))
  else if funct3Of w = 0b010#3 then .instr (.sw (rs1Of w) (rs2Of w) (immSOf w))
  else .invalid w

/-- Major opcode 0x63 (R78). -/
def decodeBranch (w : Word) : Record :=
  if funct3Of w = 0b000#3 then .instr (.beq (rs1Of w) (rs2Of w) (offsetSBOf w))
  else if funct3Of w = 0b001#3 then .instr (.bne (rs1Of w) (rs2Of w) (offsetSBOf w))
  else if funct3Of w = 0b100#3 then .instr (.blt (rs1Of w) (rs2Of w) (offsetSBOf w))
  else if funct3Of w = 0b101#3 then .instr (.bge (rs1Of w) (rs2Of w) (offsetSBOf w))
  else if funct3Of w = 0b110#3 then .instr (.bltu (rs1Of w) (rs2Of w) (offsetSBOf w))
  else if funct3Of w = 0b111#3 then .instr (.bgeu (rs1Of w) (rs2Of w) (offsetSBOf w))
  else .invalid w

/-- `Decode(w)` (R79): the record of the row the word matches, `Invalid(w)` when it matches none. -/
def decode (w : Word) : Record :=
  if opcodeOf w = 0x03#7 then decodeLoad w
  else if opcodeOf w = 0x13#7 then decodeAluImm w
  else if opcodeOf w = 0x33#7 then decodeAluReg w
  else if opcodeOf w = 0x23#7 then decodeStore w
  else if opcodeOf w = 0x63#7 then decodeBranch w
  else if opcodeOf w = 0x67#7 then
    if funct3Of w = 0b000#3 then .instr (.jalr (rdOf w) (rs1Of w) (immIOf w)) else .invalid w
  else if opcodeOf w = 0x73#7 then
    if w = 0x00000073#32 then .instr .scall else .invalid w
  else if opcodeOf w = 0x37#7 then .instr (.lui (rdOf w) (immUOf w))
  else if opcodeOf w = 0x17#7 then .instr (.auipc (rdOf w) (immUOf w))
  else if opcodeOf w = 0x6F#7 then .instr (.jal (rdOf w) (offsetUJOf w))
  else .invalid w

/-- PROGRAM given as words of the binary layer (R8, R167). -/
def programOfWords (ws : List Word) : List Record := ws.map decode

/-- The host's question about one row: the instruction read from the word whose bits are `w`, bit 0 the least
significant; none where the word is `Invalid` or is no 32-bit word (R70). -/
def decodeTableWord (nbits w : Nat) : Option Instr :=
  if nbits ≤ 32 then
    match decode (BitVec.ofNat 32 (w % 2 ^ nbits)) with
    | .instr i => some i
    | .invalid _ => none
  else none

/-! ## Encode (R80): the inverse placement of R71 to R77 -/

/-- R format (R71). -/
def encodeR (funct7 : BitVec 7) (rs2 rs1 : Reg) (funct3 : BitVec 3) (rd : Reg) (opcode : BitVec 7) : Word :=
  funct7 ++ regBits rs2 ++ regBits rs1 ++ funct3 ++ regBits rd ++ opcode

/-- I format (R71, R72). -/
def encodeI (imm : Int) (rs1 : Reg) (funct3 : BitVec 3) (rd : Reg) (opcode : BitVec 7) : Word :=
  BitVec.ofInt 12 imm ++ regBits rs1 ++ funct3 ++ regBits rd ++ opcode

/-- RShift format (R71, R77). -/
def encodeShift (funct7 : BitVec 7) (shamt : Nat) (rs1 : Reg) (funct3 : BitVec 3) (rd : Reg) : Word :=
  funct7 ++ BitVec.ofNat 5 shamt ++ regBits rs1 ++ funct3 ++ regBits rd ++ 0x13#7

/-- S format (R71, R73). -/
def encodeS (imm : Int) (rs2 rs1 : Reg) (funct3 : BitVec 3) : Word :=
  (BitVec.ofInt 12 imm).extractLsb' 5 7 ++ regBits rs2 ++ regBits rs1 ++ funct3 ++
    (BitVec.ofInt 12 imm).extractLsb' 0 5 ++ 0x23#7

/-- SB format (R71, R74): bit 31 = o[11], bits 30:25 = o[9:4], bits 11:8 = o[3:0], bit 7 = o[10]. -/
def encodeSB (offset : Int) (rs2 rs1 : Reg) (funct3 : BitVec 3) : Word :=
  (BitVec.ofInt 12 offset).extractLsb' 11 1 ++ (BitVec.ofInt 12 offset).extractLsb' 4 6 ++ regBits rs2 ++
    regBits rs1 ++ funct3 ++ (BitVec.ofInt 12 offset).extractLsb' 0 4 ++
    (BitVec.ofInt 12 offset).extractLsb' 10 1 ++ 0x63#7

/-- U format (R71, R75). -/
def encodeU (imm20 : Nat) (rd : Reg) (opcode : BitVec 7) : Word :=
  BitVec.ofNat 20 imm20 ++ regBits rd ++ opcode

/-- UJ format (R71, R76): bit 31 = o[19], bits 30:21 = o[9:0], bit 20 = o[10], bits 19:12 = o[18:11]. -/
def encodeUJ (offset : Int) (rd : Reg) : Word :=
  (BitVec.ofInt 20 offset).extractLsb' 19 1 ++ (BitVec.ofInt 20 offset).extractLsb' 0 10 ++
    (BitVec.ofInt 20 offset).extractLsb' 10 1 ++ (BitVec.ofInt 20 offset).extractLsb' 11 8 ++
    regBits rd ++ 0x6F#7

/-- `Encode(r)` of a well-formed instruction (R80). -/
def encode : Instr → Word
  | .lb rd rs1 imm => encodeI imm rs1 0b000#3 rd 0x03#7
  | .lh rd rs1 imm => encodeI imm rs1 0b001#3 rd 0x03#7
  | .lw rd rs1 imm => encodeI imm rs1 0b010#3 rd 0x03#7
  | .lbu rd rs1 imm => encodeI imm rs1 0b100#3 rd 0x03#7
  | .lhu rd rs1 imm => encodeI imm rs1 0b101#3 rd 0x03#7
  | .addi rd rs1 imm => encodeI imm rs1 0b000#3 rd 0x13#7
  | .slti rd rs1 imm => encodeI imm rs1 0b010#3 rd 0x13#7
  | .sltiu rd rs1 imm => encodeI imm rs1 0b011#3 rd 0x13#7
  | .xori rd rs1 imm => encodeI imm rs1 0b100#3 rd 0x13#7
  | .ori rd rs1 imm => encodeI imm rs1 0b110#3 rd 0x13#7
  | .andi rd rs1 imm => encodeI imm rs1 0b111#3 rd 0x13#7
  | .jalr rd rs1 imm => encodeI imm rs1 0b000#3 rd 0x67#7
  | .scall => 0x00000073#32
  | .slli rd rs1 shamt => encodeShift 0b0000000#7 shamt rs1 0b001#3 rd
  | .srli rd rs1 shamt => encodeShift 0b0000000#7 shamt rs1 0b101#3 rd
  | .srai rd rs1 shamt => encodeShift 0b0100000#7 shamt rs1 0b101#3 rd
  | .add rd rs1 rs2 => encodeR 0b0000000#7 rs2 rs1 0b000#3 rd 0x33#7
  | .sub rd rs1 rs2 => encodeR 0b0100000#7 rs2 rs1 0b000#3 rd 0x33#7
  | .sll rd rs1 rs2 => encodeR 0b0000000#7 rs2 rs1 0b001#3 rd 0x33#7
  | .slt rd rs1 rs2 => encodeR 0b0000000#7 rs2 rs1 0b010#3 rd 0x33#7
  | .sltu rd rs1 rs2 => encodeR 0b0000000#7 rs2 rs1 0b011#3 rd 0x33#7
  | .xor rd rs1 rs2 => encodeR 0b0000000#7 rs2 rs1 0b100#3 rd 0x33#7
  | .srl rd rs1 rs2 => encodeR 0b0000000#7 rs2 rs1 0b101#3 rd 0x33#7
  | .sra rd rs1 rs2 => encodeR 0b0100000#7 rs2 rs1 0b101#3 rd 0x33#7
  | .or rd rs1 rs2 => encodeR 0b0000000#7 rs2 rs1 0b110#3 rd 0x33#7
  | .and rd rs1 rs2 => encodeR 0b0000000#7 rs2 rs1 0b111#3 rd 0x33#7
  | .sb rs1 rs2 imm => encodeS imm rs2 rs1 0b000#3
  | .sh rs1 rs2 imm => encodeS imm rs2 rs1 0b001#3
  | .sw rs1 rs2 imm => encodeS imm rs2 rs1 0b010#3
  | .beq rs1 rs2 offset => encodeSB offset rs2 rs1 0b000#3
  | .bne rs1 rs2 offset => encodeSB offset rs2 rs1 0b001#3
  | .blt rs1 rs2 offset => encodeSB offset rs2 rs1 0b100#3
  | .bge rs1 rs2 offset => encodeSB offset rs2 rs1 0b101#3
  | .bltu rs1 rs2 offset => encodeSB offset rs2 rs1 0b110#3
  | .bgeu rs1 rs2 offset => encodeSB offset rs2 rs1 0b111#3
  | .lui rd imm20 => encodeU imm20 rd 0x37#7
  | .auipc rd imm20 => encodeU imm20 rd 0x17#7
  | .jal rd offset => encodeUJ offset rd

/-! ## The opcode table as the spec lists it (opcode_table.json), for statements about `decode` -/

/-- One row: a word `w` selects it iff `w AND mask = pattern` (R78). -/
structure OpcodeRow where
  mnemonic : String
  pattern : Word
  mask : Word
  deriving DecidableEq, Repr

/-- The row of an instruction in opcode_table.json. -/
def Instr.row : Instr → OpcodeRow
  | .lb _ _ _ => ⟨"LB", 0x00000003#32, 0x0000707F#32⟩
  | .lh _ _ _ => ⟨"LH", 0x00001003#32, 0x0000707F#32⟩
  | .lw _ _ _ => ⟨"LW", 0x00002003#32, 0x0000707F#32⟩
  | .lbu _ _ _ => ⟨"LBU", 0x00004003#32, 0x0000707F#32⟩
  | .lhu _ _ _ => ⟨"LHU", 0x00005003#32, 0x0000707F#32⟩
  | .addi _ _ _ => ⟨"ADDI", 0x00000013#32, 0x0000707F#32⟩
  | .slti _ _ _ => ⟨"SLTI", 0x00002013#32, 0x0000707F#32⟩
  | .sltiu _ _ _ => ⟨"SLTIU", 0x00003013#32, 0x0000707F#32⟩
  | .xori _ _ _ => ⟨"XORI", 0x00004013#32, 0x0000707F#32⟩
  | .ori _ _ _ => ⟨"ORI", 0x00006013#32, 0x0000707F#32⟩
  | .andi _ _ _ => ⟨"ANDI", 0x00007013#32, 0x0000707F#32⟩
  | .jalr _ _ _ => ⟨"JALR", 0x00000067#32, 0x0000707F#32⟩
  | .scall => ⟨"SCALL", 0x00000073#32, 0xFFFFFFFF#32⟩
  | .slli _ _ _ => ⟨"SLLI", 0x00001013#32, 0xFE00707F#32⟩
  | .srli _ _ _ => ⟨"SRLI", 0x00005013#32, 0xFE00707F#32⟩
  | .srai _ _ _ => ⟨"SRAI", 0x40005013#32, 0xFE00707F#32⟩
  | .add _ _ _ => ⟨"ADD", 0x00000033#32, 0xFE00707F#32⟩
  | .sub _ _ _ => ⟨"SUB", 0x40000033#32, 0xFE00707F#32⟩
  | .sll _ _ _ => ⟨"SLL", 0x00001033#32, 0xFE00707F#32⟩
  | .slt _ _ _ => ⟨"SLT", 0x00002033#32, 0xFE00707F#32⟩
  | .sltu _ _ _ => ⟨"SLTU", 0x00003033#32, 0xFE00707F#32⟩
  | .xor _ _ _ => ⟨"XOR", 0x00004033#32, 0xFE00707F#32⟩
  | .srl _ _ _ => ⟨"SRL", 0x00005033#32, 0xFE00707F#32⟩
  | .sra _ _ _ => ⟨"SRA", 0x40005033#32, 0xFE00707F#32⟩
  | .or _ _ _ => ⟨"OR", 0x00006033#32, 0xFE00707F#32⟩
  | .and _ _ _ => ⟨"AND", 0x00007033#32, 0xFE00707F#32⟩
  | .sb _ _ _ => ⟨"SB", 0x00000023#32, 0x0000707F#32⟩
  | .sh _ _ _ => ⟨"SH", 0x00001023#32, 0x0000707F#32⟩
  | .sw _ _ _ => ⟨"SW", 0x00002023#32, 0x0000707F#32⟩
  | .beq _ _ _ => ⟨"BEQ", 0x00000063#32, 0x0000707F#32⟩
  | .bne _ _ _ => ⟨"BNE", 0x00001063#32, 0x0000707F#32⟩
  | .blt _ _ _ => ⟨"BLT", 0x00004063#32, 0x0000707F#32⟩
  | .bge _ _ _ => ⟨"BGE", 0x00005063#32, 0x0000707F#32⟩
  | .bltu _ _ _ => ⟨"BLTU", 0x00006063#32, 0x0000707F#32⟩
  | .bgeu _ _ _ => ⟨"BGEU", 0x00007063#32, 0x0000707F#32⟩
  | .lui _ _ => ⟨"LUI", 0x00000037#32, 0x0000007F#32⟩
  | .auipc _ _ => ⟨"AUIPC", 0x00000017#32, 0x0000007F#32⟩
  | .jal _ _ => ⟨"JAL", 0x0000006F#32, 0x0000007F#32⟩

/-- The rows of the I format: loads, ALU with immediate, JALR, SCALL (R68). -/
def rowsI : List OpcodeRow :=
  [Instr.lb 0 0 0, .lh 0 0 0, .lw 0 0 0, .lbu 0 0 0, .lhu 0 0 0].map Instr.row ++
  [Instr.addi 0 0 0, .slti 0 0 0, .sltiu 0 0 0, .xori 0 0 0, .ori 0 0 0, .andi 0 0 0].map Instr.row ++
  [Instr.jalr 0 0 0, .scall].map Instr.row

/-- The rows of the RShift and R formats (R68). -/
def rowsR : List OpcodeRow :=
  [Instr.slli 0 0 0, .srli 0 0 0, .srai 0 0 0].map Instr.row ++
  [Instr.add 0 0 0, .sub 0 0 0, .sll 0 0 0, .slt 0 0 0, .sltu 0 0 0].map Instr.row ++
  [Instr.xor 0 0 0, .srl 0 0 0, .sra 0 0 0, .or 0 0 0, .and 0 0 0].map Instr.row

/-- The rows of the S, SB, U and UJ formats (R68). -/
def rowsS : List OpcodeRow :=
  [Instr.sb 0 0 0, .sh 0 0 0, .sw 0 0 0].map Instr.row ++
  [Instr.beq 0 0 0, .bne 0 0 0, .blt 0 0 0, .bge 0 0 0, .bltu 0 0 0, .bgeu 0 0 0].map Instr.row ++
  [Instr.lui 0 0, .auipc 0 0, .jal 0 0].map Instr.row

/-- The 38 rows of opcode_table.json (R68, R78). -/
def opcodeTable : List OpcodeRow := rowsI ++ rowsR ++ rowsS

end Sys2Proof
end

