-- ==== Sys2Proof/Machine/ValueTypes.lean ====
section
/-! DEFINITION. The operators and conversions of the fixed-width value types (40_value_types.md R86 to R98).
Every one is total and wraps (R86); which instruction uses which is R100. The operators are written once for
any width; the six value types of R84 are their cases at 32, 16 and 8 bits. -/

namespace Sys2Proof.Machine

/-! ## Operators (R87 to R91) -/

/-- Wrapping addition (R87). -/
def valueAdd {n : Nat} (a b : BitVec n) : BitVec n := a + b

/-- Wrapping subtraction (R88). -/
def valueSub {n : Nat} (a b : BitVec n) : BitVec n := a - b

/-- Bitwise AND (R89). -/
def valueAnd {n : Nat} (a b : BitVec n) : BitVec n := a &&& b

/-- Bitwise OR (R89). -/
def valueOr {n : Nat} (a b : BitVec n) : BitVec n := a ||| b

/-- Bitwise XOR (R89). -/
def valueXor {n : Nat} (a b : BitVec n) : BitVec n := a ^^^ b

/-- Left shift by a natural amount taken modulo the width (R90, D5). -/
def valueShl {n : Nat} (a : BitVec n) (k : Nat) : BitVec n := a <<< (k % n)

/-- Right shift by a natural amount taken modulo the width: logical on an unsigned type, arithmetic on a
signed one (R91, D5). -/
def valueShr {n : Nat} (sg : Signedness) (a : BitVec n) (k : Nat) : BitVec n :=
  match sg with
  | .unsigned => a >>> (k % n)
  | .signed => a.sshiftRight (k % n)

/-! ## Conversions (R94 to R98) -/

/-- Conversion to width `m` (R97): a narrower target keeps the low bits, whatever the signedness (R95); a wider
one extends by the signedness of the source (R96); the same width keeps all bits (R94). -/
def valueConvert {n : Nat} (source : Signedness) (m : Nat) (v : BitVec n) : BitVec m :=
  if m ≤ n then v.setWidth m
  else
    match source with
    | .unsigned => v.setWidth m
    | .signed => v.signExtend m

/-- `as_bytes()`: the bytes of a value, least significant first (R98). -/
def asBytes {n : Nat} (v : BitVec n) : List Byte :=
  (List.range (n / 8)).map fun k => v.extractLsb' (8 * k) 8

end Sys2Proof.Machine

namespace Sys2Proof

open Machine

/-! ## The six value types (R84), each operator at the type's width and signedness -/

/-- `a + b` on a value type (R87). -/
def ValueType.add (t : ValueType) (a b : BitVec t.bits) : BitVec t.bits := valueAdd a b

/-- `a - b` on a value type (R88). -/
def ValueType.sub (t : ValueType) (a b : BitVec t.bits) : BitVec t.bits := valueSub a b

/-- `a << k` on a value type (R90). -/
def ValueType.shl (t : ValueType) (a : BitVec t.bits) (k : Nat) : BitVec t.bits := valueShl a k

/-- `a >> k` on a value type (R91). -/
def ValueType.shr (t : ValueType) (a : BitVec t.bits) (k : Nat) : BitVec t.bits := valueShr t.signedness a k

/-- The conversion of the table of R97 from one value type to another. `as_signed` and its inverse (R94),
`as_word`, `as_halfword`, `as_byte` (R95) and `as_signed_word` (R96) are its instances. -/
def ValueType.convert (source target : ValueType) (v : BitVec source.bits) : BitVec target.bits :=
  valueConvert source.signedness target.bits v

end Sys2Proof

namespace Sys2Proof.Machine

/-! ## The conversions the loads and stores use (R100) -/

/-- `as_byte` of a register's Word (R95, R100: SB). -/
def asByte (v : Word) : Byte := valueConvert .unsigned 8 v

/-- `as_halfword` of a register's Word (R95, R100: SH). -/
def asHalfWord (v : Word) : HalfWord := valueConvert .unsigned 16 v

/-- Widening a sub-word to a register's Word by the signedness it was read with: `as_signed_word` (R96, R100). -/
def widenToWord {n : Nat} (sg : Signedness) (v : BitVec n) : Word := valueConvert sg 32 v

end Sys2Proof.Machine
end

