-- ==== Sys2Proof/Machine/Flags.lean ====
section
/-! DEFINITION. The core has no status flag (10_state.md R29). What stands in their place are the truth values
of the comparison operators (40_value_types.md R92): SLT, SLTU, SLTI, SLTIU write them to a register, the
branches decide by them. -/

namespace Sys2Proof.Machine

/-- `a = b`, bitwise, independent of signedness (R92). -/
def valueEq {n : Nat} (a b : BitVec n) : Bool := decide (a = b)

/-- `a < b` by the unsigned or the signed reading (R92). -/
def valueLt {n : Nat} (sg : Signedness) (a b : BitVec n) : Bool :=
  match sg with
  | .unsigned => decide (a.toNat < b.toNat)
  | .signed => decide (a.toInt < b.toInt)

/-- `a >= b` is `not (a < b)` (R92). -/
def valueGe {n : Nat} (sg : Signedness) (a b : BitVec n) : Bool := !valueLt sg a b

/-- The register value of a truth value: 1 or 0 (R128, R129, R140, R141). -/
def truthWord (b : Bool) : Word := if b then 1#32 else 0#32

end Sys2Proof.Machine

namespace Sys2Proof

open Machine

/-- `a < b` on a value type (R92). -/
def ValueType.lt (t : ValueType) (a b : BitVec t.bits) : Bool := valueLt t.signedness a b

end Sys2Proof
end

