-- ==== Sys2Proof/Config.lean ====
section
/-! DEFINITION. The OPEN parameters of the core (00_scope.md R9): what an implementation fixes at
construction. A state carries them (notes/assumptions/1.md), so every statement quantifies over them. -/

namespace Sys2Proof

/-- MEM_WORDS, CACHE_SETS, BLOCK_WORDS and FILL_LATENCY (R9). Associativity 1, write-through, no
write-allocate, hit latency 0 and memory latency 0 are fixed by the spec (R9, D13) and are no parameters. -/
structure Params where
  memWords : Nat
  cacheSets : Nat
  blockWords : Nat
  fillLatency : Nat
  deriving DecidableEq, Repr

/-- The constraints of R9: at least one set, at least one word a block. MEM_WORDS and FILL_LATENCY are
any natural numbers. -/
abbrev Params.WellFormed (p : Params) : Prop := 1 ≤ p.cacheSets ∧ 1 ≤ p.blockWords

/-- DESIGN CHOICE (notes/assumptions/2.md), unsafe: the parameters of State.reset. The spec leaves them OPEN;
these are the example configuration of 95_test_vectors.md section 0. -/
def Params.example : Params :=
  { memWords := 16, cacheSets := 4, blockWords := 2, fillLatency := 10 }

end Sys2Proof
end

