-- ==== Sys2Proof/Machine/State.lean ====
section
/-! DEFINITION. The machine's state as plain data (10_state.md R13): the tuple `(X, pc, run, M, C, log)`, with
the construction parameters beside it (notes/assumptions/1.md), and its value after construction (R37). -/

namespace Sys2Proof.Machine

/-- The three fault kinds of the core (60_exceptions.md R168), codes 0, 1, 2 in this order (D18). -/
inductive FaultKind where
  | invalidAddress
  | alignmentFault
  | unsupportedInstruction
  deriving DecidableEq, Repr

/-- The run state (10_state.md R26). -/
inductive RunState where
  | ready
  | finished
  | halted (kind : FaultKind)
  deriving DecidableEq, Repr

/-- A log entry (41_dispatch.md R102); a `writeMemory` entry's values have the width of the access (D12). -/
inductive Action where
  | readRegister (reg : Reg) (value : Word)
  | writeRegister (reg : Reg) (before after : Word)
  | writeMemory (address : Word) (width : Width) (before after : BitVec width.bits)
  | jump (pcBefore pcAfter : Nat)
  | stall (cycles : Nat)
  | error
  deriving DecidableEq, Repr

/-- A valid cache line (10_state.md R33): its tag, and its data copy of those words of its block that exist,
in order (words at or beyond MEM_WORDS are not fetched, D15; notes/assumptions/7.md). -/
structure CacheLine where
  tag : Nat
  data : List Word
  deriving DecidableEq, Repr

/-- Data memory: (address, byte) pairs, addresses strictly rising, none zero; an unlisted byte is 0
(R32 "zero-filled memory"). The canonical form is `Memory.wf` (Machine/Ops.lean). -/
abbrev Memory := List Host.Cell

/-- The core's state (R13). `params` and `program` are fixed at construction. -/
structure State where
  /-- The register file `X` (R14); entry 0 is never read (R16). -/
  regs : Vector Word 32
  /-- The instruction index (R22). -/
  pc : Nat
  /-- The run state (R26). -/
  run : RunState
  /-- Data memory `M` (R32), by bytes (R42). -/
  mem : Memory
  /-- The cache `C` (R33): the line of each set, `none` while `valid[s] = 0`. -/
  cache : List (Option CacheLine)
  /-- The action log, oldest entry first (R36). -/
  log : List Action
  /-- MEM_WORDS, CACHE_SETS, BLOCK_WORDS, FILL_LATENCY (00_scope.md R9). -/
  params : Params
  /-- PROGRAM (R35); LEN is its length. -/
  program : List Record
  deriving DecidableEq, Repr

/-- Why a step has no next state although nothing is refused. The core's own three faults are next states in
`Halted` (notes/assumptions/4.md) and are not here. -/
inductive Fault where
  /-- Raised by `step` alone, in a state that is not Ready: the spec's result NotReady, "a model gives the core no
  step transition in these states" (R113, D17). Safe: the core changes nothing either. -/
  | notReady
  deriving DecidableEq, Repr

/-- What the model gives no meaning. -/
inductive Refusal where
  /-- Raised by `exec`'s arm of an instruction without a meaning; no arm does. Safe. -/
  | notModelled (mnemonic : String)
  /-- Raised by a taken branch whose target `pc + s(offset)` is negative (46_branches.md R152, D10), "after its two
  `ReadRegister` entries": `marked` is the state the mark is set on (41_dispatch.md R114), the refused step's reads
  at the end of its log and everything else as before the step. Safe: the spec gives the step no meaning. -/
  | negativeBranchTarget (marked : State)
  /-- Raised by `State.construct` for a program whose record at this index is not well-formed (30_encoding.md R67,
  D3). Safe: the spec refuses it. -/
  | illFormedRecord (index : Nat)
  /-- Raised by `State.construct` for CACHE_SETS = 0 (00_scope.md R9). Safe: the spec excludes it. -/
  | noCacheSets
  /-- Raised by `State.construct` for BLOCK_WORDS = 0 (00_scope.md R9). Safe: the spec excludes it. -/
  | noBlockWords
  deriving DecidableEq, Repr

/-- The outcome of a step. -/
abbrev StepOutcome := Host.Outcome State Fault Refusal

/-- The state after construction (R37, 70_reset_and_hazards.md R184): registers and memory zero, every line
invalid, `pc = 0`, an empty log, Ready if the program has an instruction and Finished otherwise. -/
def State.initial (params : Params) (program : List Record) : State :=
  { regs := Vector.replicate 32 0#32
    pc := 0
    run := if 0 < program.length then .ready else .finished
    mem := []
    cache := List.replicate params.cacheSets none
    log := []
    params := params
    program := program }

/-- The machine right after reset, no program placed. DESIGN CHOICE (notes/assumptions/2.md), unsafe: the OPEN
parameters are those of `Params.example`, the program is empty. -/
def State.reset : State := State.initial Params.example []

end Sys2Proof.Machine
end

