-- ==== Sys2Proof/Machine/Ops.lean ====
section
/-! DEFINITION. The shared operations: registers, log, data memory, cache, the access primitives, taking a fault,
and the end of a successful step. Every meaning is made of these. -/

namespace Sys2Proof.Machine

/-! ## Registers (10_state.md R16 to R18) -/

/-- `x[i]`: `x[0]` is 0 "regardless of prior writes" (R17). -/
def State.readReg (s : State) (r : Reg) : Word := if r = 0 then 0#32 else s.regs[r]

/-- `x[i] <- v`: a no-op for X0 (R18). -/
def State.writeReg (s : State) (r : Reg) (v : Word) : State :=
  { s with regs := if r = 0 then s.regs else s.regs.set r v }

/-! ## The log (41_dispatch.md R103, R106, R107) -/

/-- `emit(a)` (R103). -/
def State.emit (s : State) (a : Action) : State := { s with log := s.log ++ [a] }

/-- The entry of one source operand read (R106). -/
def readEntry (s : State) (r : Reg) : Action := .readRegister r (s.readReg r)

/-- Reading the source operands in the order given, one entry each (R106); a read changes nothing else (R17). -/
def State.logReads (s : State) (sources : List Reg) : State :=
  { s with log := s.log ++ sources.map (readEntry s) }

/-- The register-write effect `x[rd] <- v`: the write, and its entry with the register's value before and after
it, so `WriteRegister(X0, 0, 0)` for X0 (R107, D11). -/
def State.writeDest (s : State) (rd : Reg) (v : Word) : State :=
  (s.writeReg rd v).emit (.writeRegister rd (s.readReg rd) ((s.writeReg rd v).readReg rd))

/-! ## Data memory (20_memory.md R42) -/

/-- The byte at a byte address; an unlisted byte is 0 (R32). -/
def Memory.readByte : Memory → Nat → Byte
  | [], _ => 0#8
  | (k, v) :: rest, a => if k = a then v else Memory.readByte rest a

/-- Write one byte, keeping the canonical form: a zero byte is not listed. -/
def Memory.writeByte : Memory → Nat → Byte → Memory
  | [], a, b => if b = 0#8 then [] else [(a, b)]
  | (k, v) :: rest, a, b =>
    if a < k then (if b = 0#8 then (k, v) :: rest else (a, b) :: (k, v) :: rest)
    else if a = k then (if b = 0#8 then rest else (a, b) :: rest)
    else (k, v) :: Memory.writeByte rest a b

/-- Every listed address is at least `low`, addresses strictly rise, no listed byte is zero. -/
def Memory.wfFrom : Nat → Memory → Bool
  | _, [] => true
  | low, (k, v) :: rest => decide (low ≤ k) && decide (v ≠ 0#8) && Memory.wfFrom (k + 1) rest

/-- The canonical form: equal memories are equal lists. -/
def Memory.wf (m : Memory) : Bool := Memory.wfFrom 0 m

/-- Word `M[i]`: byte lane `k` is the byte at address `4i+k`, least significant first (R42). -/
def Memory.readWord (m : Memory) (i : Nat) : Word :=
  m.readByte (4 * i + 3) ++ m.readByte (4 * i + 2) ++ m.readByte (4 * i + 1) ++ m.readByte (4 * i)

/-- Write bytes at rising addresses. -/
def Memory.writeBytes (m : Memory) (a : Nat) : List Byte → Memory
  | [] => m
  | b :: rest => Memory.writeBytes (m.writeByte a b) (a + 1) rest

/-- `M[i] <- w`, the bytes of `w` least significant first (R42, R98). -/
def Memory.writeWord (m : Memory) (i : Nat) (w : Word) : Memory := m.writeBytes (4 * i) (asBytes w)

/-! ## The cache (20_memory.md R55 to R58) -/

/-- Block number of word `i` (R55). -/
def blockOf (p : Params) (i : Nat) : Nat := i / p.blockWords

/-- Set index of word `i` (R55). -/
def setOf (p : Params) (i : Nat) : Nat := blockOf p i % p.cacheSets

/-- Tag of word `i` (R55, D13). -/
def tagOf (p : Params) (i : Nat) : Nat := blockOf p i / p.cacheSets

/-- The valid line that holds word `i`'s block, if it is resident (R56 "hit"). -/
def State.residentLine (s : State) (i : Nat) : Option CacheLine :=
  match s.cache[setOf s.params i]? with
  | some (some line) => if line.tag = tagOf s.params i then some line else none
  | _ => none

/-- The words a fill of block `b` fetches: those that exist (R56, D15). -/
def State.blockData (s : State) (b : Nat) : List Word :=
  (List.range (min s.params.blockWords (s.params.memWords - b * s.params.blockWords))).map
    fun j => s.mem.readWord (b * s.params.blockWords + j)

/-- The latency of `CacheRead(i)`: 0 on a hit, FILL_LATENCY on a miss (R56). -/
def State.readLatency (s : State) (i : Nat) : Nat :=
  match s.residentLine i with
  | some _ => 0
  | none => s.params.fillLatency

/-- The cache after `CacheRead(i)`: a miss installs the block in its set, whatever line was there (R56). -/
def State.cacheAfterRead (s : State) (i : Nat) : List (Option CacheLine) :=
  match s.residentLine i with
  | some _ => s.cache
  | none => s.cache.set (setOf s.params i) (some ⟨tagOf s.params i, s.blockData (blockOf s.params i)⟩)

/-- `CacheRead(i)` (R56): the word `M[i]`, the latency, and the state after it. -/
def State.cacheRead (s : State) (i : Nat) : Word × Nat × State :=
  (s.mem.readWord i, s.readLatency i, { s with cache := s.cacheAfterRead i })

/-- The cache after `CacheWrite(i, w)`: a resident block's copy is updated; nothing is allocated (R57). -/
def State.cacheAfterWrite (s : State) (i : Nat) (w : Word) : List (Option CacheLine) :=
  match s.residentLine i with
  | some line =>
    s.cache.set (setOf s.params i) (some { line with data := line.data.set (i % s.params.blockWords) w })
  | none => s.cache

/-- `CacheWrite(i, w)` (R57): write-through; the latency, 0, and the state after it. -/
def State.cacheWrite (s : State) (i : Nat) (w : Word) : Nat × State :=
  (0, { s with cache := s.cacheAfterWrite i w, mem := s.mem.writeWord i w })

/-! ## Access primitives (20_memory.md R49, R51, R52) -/

/-- The word index of an address, `u(addr) div 4`. -/
def wordIndex (addr : Word) : Nat := addr.toNat / 4

/-- The bit of the enclosing word at which an access starts: `8k`, `k = u(addr) mod 4`; a word access ignores
`k` (R48, R51, D6). -/
def laneBit (addr : Word) : Width → Nat
  | .byte | .half => 8 * (addr.toNat % 4)
  | .word => 0

/-- `Check(addr, n)` (R49, D7): alignment of a half-word, then accessibility. -/
def checkAccess (p : Params) (addr : Word) (n : Width) : Option FaultKind :=
  if n = .half ∧ addr.toNat % 2 = 1 then some .alignmentFault
  else if p.memWords ≤ wordIndex addr then some .invalidAddress
  else none

/-- The bits `[lo+m-1 : lo]` of `w` replaced by `v` (R52). -/
def replaceBits {m : Nat} (w : Word) (lo : Nat) (v : BitVec m) : Word :=
  (w &&& ~~~((BitVec.allOnes m).setWidth 32 <<< lo)) ||| (v.setWidth 32 <<< lo)

/-- `MemRead(addr, n)` (R51): the value, the latency and the state after it, or the fault. -/
def State.memRead (s : State) (addr : Word) (n : Width) : Except FaultKind (BitVec n.bits × Nat × State) :=
  match checkAccess s.params addr n with
  | some kind => .error kind
  | none =>
    let read := s.cacheRead (wordIndex addr)
    .ok (read.1.extractLsb' (laneBit addr n) n.bits, read.2.1, read.2.2)

/-- `MemWrite(addr, n, v)` (R52): the overwritten value, the latency and the state after it, or the fault. A word
goes straight through the cache; a narrower value is a read-modify-write of the enclosing word. -/
def State.memWrite (s : State) (addr : Word) (n : Width) (v : BitVec n.bits) :
    Except FaultKind (BitVec n.bits × Nat × State) :=
  match checkAccess s.params addr n with
  | some kind => .error kind
  | none =>
    match n with
    | .word =>
      let written := s.cacheWrite (wordIndex addr) v
      .ok (s.mem.readWord (wordIndex addr), written.1, written.2)
    | n =>
      let read := s.cacheRead (wordIndex addr)
      let written := read.2.2.cacheWrite (wordIndex addr) (replaceBits read.1 (laneBit addr n) v)
      .ok (read.1.extractLsb' (laneBit addr n) n.bits, read.2.1 + written.1, written.2)

/-! ## Taking a fault (41_dispatch.md R111, 60_exceptions.md R168 to R175)

There is one way in and none out: a fault halts the core, and no instruction returns from it (R174, R175). -/

/-- `emit(Error); run <- Halted(kind)`: no effect, no Stall, no Jump; `pc`, registers, memory and cache stay. -/
def State.haltWith (s : State) (kind : FaultKind) : State := { s.emit .error with run := .halted kind }

/-- `raise Fault(kind)`, after the reads gathered so far have been logged (R171). -/
def raiseFault (kind : FaultKind) (s : State) : StepOutcome := .next (s.haltWith kind)

/-! ## The end of a successful step (41_dispatch.md R108 to R110) -/

/-- The entries after the effect: a `Stall` if the access was slow, then the `Jump` (R108, R109). -/
def tailEntries (latency pcBefore pcAfter : Nat) : List Action :=
  (if 0 < latency then [.stall latency] else []) ++ [.jump pcBefore pcAfter]

/-- Log the tail entries, set `pc`, and finish if it has left the program (R108 to R110). -/
def State.retireTo (s : State) (latency npc : Nat) : State :=
  { s with
    log := s.log ++ tailEntries latency s.pc npc
    pc := npc
    run := if s.program.length ≤ npc then .finished else s.run }

/-- A successful step that falls through or has taken a branch to `npc`. -/
def retire (latency npc : Nat) (s : State) : StepOutcome := .next (s.retireTo latency npc)

end Sys2Proof.Machine
end

