-- ==== Sys2Proof/Machine/Operands.lean ====
section
/-! DEFINITION. The operand forms of the opcodes: the sign-extended immediate, the effective address of a load or
store, the amount of a register shift, the target of a branch. Register operands are read with
`State.readReg` and logged with `State.logReads` (Machine/Ops.lean). -/

namespace Sys2Proof.Machine

/-- `sext_32(imm)` of an I or S immediate (30_encoding.md R72, 43_alu_imm.md R126, D4): the 32-bit
two's-complement value. -/
def immWord (imm : Int) : Word := BitVec.ofInt 32 imm

/-- `addr = x[rs1] + sext_32(imm)`, wrapping modulo 2^32 (42_loads.md R120, 45_stores.md R147). -/
def effectiveAddress (s : State) (rs1 : Reg) (imm : Int) : Word := valueAdd (s.readReg rs1) (immWord imm)

/-- `amount = u(x[rs2]) mod 32` (44_alu_reg.md R136, D5). -/
def shiftAmount (v : Word) : Nat := v.toNat % 32

/-- `target = pc + s(offset)`, a number of instructions, unscaled; it may be negative (46_branches.md R151). -/
def branchTarget (pc : Nat) (offset : Int) : Int := (pc : Int) + offset

end Sys2Proof.Machine
end

