-- ==== Sys2Proof/Machine/AluImm.lean ====
section
/-! DEFINITION. ALU with immediate and shift-immediate (43_alu_imm.md R126 to R135). -/

namespace Sys2Proof.Machine

/-- The shape of R126: read `rs1`, write `rd`, go to `pc + 1`. -/
def aluImm (f : Word → Word) (rd rs1 : Reg) (s : State) : StepOutcome :=
  retire 0 (s.pc + 1) ((s.logReads [rs1]).writeDest rd (f (s.readReg rs1)))

/-- ADDI (R127). -/
def execAddi (rd rs1 : Reg) (imm : Int) (s : State) : StepOutcome :=
  aluImm (fun a => valueAdd a (immWord imm)) rd rs1 s

/-- SLTI (R128). -/
def execSlti (rd rs1 : Reg) (imm : Int) (s : State) : StepOutcome :=
  aluImm (fun a => truthWord (valueLt .signed a (immWord imm))) rd rs1 s

/-- SLTIU (R129): the sign-extended immediate, compared unsigned (D4). -/
def execSltiu (rd rs1 : Reg) (imm : Int) (s : State) : StepOutcome :=
  aluImm (fun a => truthWord (valueLt .unsigned a (immWord imm))) rd rs1 s

/-- XORI (R130, D4). -/
def execXori (rd rs1 : Reg) (imm : Int) (s : State) : StepOutcome :=
  aluImm (fun a => valueXor a (immWord imm)) rd rs1 s

/-- ORI (R131, D4). -/
def execOri (rd rs1 : Reg) (imm : Int) (s : State) : StepOutcome :=
  aluImm (fun a => valueOr a (immWord imm)) rd rs1 s

/-- ANDI (R132, D4). -/
def execAndi (rd rs1 : Reg) (imm : Int) (s : State) : StepOutcome :=
  aluImm (fun a => valueAnd a (immWord imm)) rd rs1 s

/-- SLLI (R133). -/
def execSlli (rd rs1 : Reg) (shamt : Nat) (s : State) : StepOutcome :=
  aluImm (fun a => valueShl a shamt) rd rs1 s

/-- SRLI (R134). -/
def execSrli (rd rs1 : Reg) (shamt : Nat) (s : State) : StepOutcome :=
  aluImm (fun a => valueShr .unsigned a shamt) rd rs1 s

/-- SRAI (R135). -/
def execSrai (rd rs1 : Reg) (shamt : Nat) (s : State) : StepOutcome :=
  aluImm (fun a => valueShr .signed a shamt) rd rs1 s

end Sys2Proof.Machine
end

