-- ==== Sys2Proof/Machine/AluReg.lean ====
section
/-! DEFINITION. Register-register ALU (44_alu_reg.md R136 to R146). -/

namespace Sys2Proof.Machine

/-- The shape of R136: read `rs1` then `rs2`, write `rd`, go to `pc + 1`. -/
def aluReg (f : Word → Word → Word) (rd rs1 rs2 : Reg) (s : State) : StepOutcome :=
  retire 0 (s.pc + 1) ((s.logReads [rs1, rs2]).writeDest rd (f (s.readReg rs1) (s.readReg rs2)))

/-- ADD (R137). -/
def execAdd (rd rs1 rs2 : Reg) (s : State) : StepOutcome := aluReg valueAdd rd rs1 rs2 s

/-- SUB (R138). -/
def execSub (rd rs1 rs2 : Reg) (s : State) : StepOutcome := aluReg valueSub rd rs1 rs2 s

/-- SLL (R139). -/
def execSll (rd rs1 rs2 : Reg) (s : State) : StepOutcome :=
  aluReg (fun a b => valueShl a (shiftAmount b)) rd rs1 rs2 s

/-- SLT (R140). -/
def execSlt (rd rs1 rs2 : Reg) (s : State) : StepOutcome :=
  aluReg (fun a b => truthWord (valueLt .signed a b)) rd rs1 rs2 s

/-- SLTU (R141). -/
def execSltu (rd rs1 rs2 : Reg) (s : State) : StepOutcome :=
  aluReg (fun a b => truthWord (valueLt .unsigned a b)) rd rs1 rs2 s

/-- XOR (R142). -/
def execXor (rd rs1 rs2 : Reg) (s : State) : StepOutcome := aluReg valueXor rd rs1 rs2 s

/-- SRL (R143). -/
def execSrl (rd rs1 rs2 : Reg) (s : State) : StepOutcome :=
  aluReg (fun a b => valueShr .unsigned a (shiftAmount b)) rd rs1 rs2 s

/-- SRA (R144). -/
def execSra (rd rs1 rs2 : Reg) (s : State) : StepOutcome :=
  aluReg (fun a b => valueShr .signed a (shiftAmount b)) rd rs1 rs2 s

/-- OR (R145). -/
def execOr (rd rs1 rs2 : Reg) (s : State) : StepOutcome := aluReg valueOr rd rs1 rs2 s

/-- AND (R146). -/
def execAnd (rd rs1 rs2 : Reg) (s : State) : StepOutcome := aluReg valueAnd rd rs1 rs2 s

end Sys2Proof.Machine
end

