-- ==== Sys2Proof/Machine/Branches.lean ====
section
/-! DEFINITION. Conditional branches (46_branches.md R151 to R160). -/

namespace Sys2Proof.Machine

/-- The shape of R151 to R153: read `rs1` then `rs2`, no effect, go to `pc + s(offset)` if taken and to `pc + 1` if
not; a taken branch with a negative target is refused after the two reads (R152, D10). -/
def branch (taken : Word → Word → Bool) (rs1 rs2 : Reg) (offset : Int) (s : State) : StepOutcome :=
  if taken (s.readReg rs1) (s.readReg rs2) then
    if branchTarget s.pc offset < 0 then .refused (.negativeBranchTarget (s.logReads [rs1, rs2]))
    else retire 0 (branchTarget s.pc offset).toNat (s.logReads [rs1, rs2])
  else retire 0 (s.pc + 1) (s.logReads [rs1, rs2])

/-- BEQ (R154). -/
def execBeq (rs1 rs2 : Reg) (offset : Int) (s : State) : StepOutcome :=
  branch (fun a b => valueEq a b) rs1 rs2 offset s

/-- BNE (R155). -/
def execBne (rs1 rs2 : Reg) (offset : Int) (s : State) : StepOutcome :=
  branch (fun a b => !valueEq a b) rs1 rs2 offset s

/-- BLT (R156). -/
def execBlt (rs1 rs2 : Reg) (offset : Int) (s : State) : StepOutcome :=
  branch (fun a b => valueLt .signed a b) rs1 rs2 offset s

/-- BGE (R157). -/
def execBge (rs1 rs2 : Reg) (offset : Int) (s : State) : StepOutcome :=
  branch (fun a b => valueGe .signed a b) rs1 rs2 offset s

/-- BLTU (R158). -/
def execBltu (rs1 rs2 : Reg) (offset : Int) (s : State) : StepOutcome :=
  branch (fun a b => valueLt .unsigned a b) rs1 rs2 offset s

/-- BGEU (R159). -/
def execBgeu (rs1 rs2 : Reg) (offset : Int) (s : State) : StepOutcome :=
  branch (fun a b => valueGe .unsigned a b) rs1 rs2 offset s

end Sys2Proof.Machine
end

