-- ==== Sys2Proof/Machine/Loads.lean ====
section
/-! DEFINITION. Loads (42_loads.md R120 to R125). -/

namespace Sys2Proof.Machine

/-- The shape of R120: read `rs1`, one `MemRead` at `x[rs1] + sext_32(imm)`, write `rd` with the value widened by
the signedness it is read with, stall by the latency, go to `pc + 1`; or the access's fault. -/
def load (n : Width) (sg : Signedness) (rd rs1 : Reg) (imm : Int) (s : State) : StepOutcome :=
  match (s.logReads [rs1]).memRead (effectiveAddress s rs1 imm) n with
  | .error kind => raiseFault kind (s.logReads [rs1])
  | .ok (value, latency, s') => retire latency (s.pc + 1) (s'.writeDest rd (widenToWord sg value))

/-- LB (R121). -/
def execLb (rd rs1 : Reg) (imm : Int) (s : State) : StepOutcome := load .byte .signed rd rs1 imm s

/-- LH (R122). -/
def execLh (rd rs1 : Reg) (imm : Int) (s : State) : StepOutcome := load .half .signed rd rs1 imm s

/-- LW (R123). -/
def execLw (rd rs1 : Reg) (imm : Int) (s : State) : StepOutcome := load .word .unsigned rd rs1 imm s

/-- LBU (R124). -/
def execLbu (rd rs1 : Reg) (imm : Int) (s : State) : StepOutcome := load .byte .unsigned rd rs1 imm s

/-- LHU (R125). -/
def execLhu (rd rs1 : Reg) (imm : Int) (s : State) : StepOutcome := load .half .unsigned rd rs1 imm s

end Sys2Proof.Machine
end

