-- ==== Sys2Proof/Machine/Stores.lean ====
section
/-! DEFINITION. Stores (45_stores.md R147 to R150). -/

namespace Sys2Proof.Machine

/-- The shape of R147: read `rs1` (base) then `rs2` (data), one `MemWrite` at `x[rs1] + sext_32(imm)`, logged with
the value it overwrote, stall by the latency, go to `pc + 1`; or the access's fault. -/
def store (n : Width) (data : Word → BitVec n.bits) (rs1 rs2 : Reg) (imm : Int) (s : State) : StepOutcome :=
  match (s.logReads [rs1, rs2]).memWrite (effectiveAddress s rs1 imm) n (data (s.readReg rs2)) with
  | .error kind => raiseFault kind (s.logReads [rs1, rs2])
  | .ok (before, latency, s') =>
    retire latency (s.pc + 1)
      (s'.emit (.writeMemory (effectiveAddress s rs1 imm) n before (data (s.readReg rs2))))

/-- SB (R148). -/
def execSb (rs1 rs2 : Reg) (imm : Int) (s : State) : StepOutcome := store .byte asByte rs1 rs2 imm s

/-- SH (R149). -/
def execSh (rs1 rs2 : Reg) (imm : Int) (s : State) : StepOutcome := store .half asHalfWord rs1 rs2 imm s

/-- SW (R150). -/
def execSw (rs1 rs2 : Reg) (imm : Int) (s : State) : StepOutcome := store .word (fun v => v) rs1 rs2 imm s

end Sys2Proof.Machine
end

