-- ==== Sys2Proof/Machine/Unsupported.lean ====
section
/-! DEFINITION. Declared opcodes without semantics, and the invalid word (47_unsupported.md R161 to R167). Their
effect, as the spec gives it, is to halt the core: a next state, whatever the operand fields are. -/

namespace Sys2Proof.Machine

/-- `emit(Error); run <- Halted(UnsupportedInstruction)`, before any operand is read (R161, D8). -/
def unsupported (s : State) : StepOutcome := raiseFault .unsupportedInstruction s

/-- JALR (R162). -/
def execJalr (s : State) : StepOutcome := unsupported s

/-- SCALL (R163). -/
def execScall (s : State) : StepOutcome := unsupported s

/-- LUI (R164). -/
def execLui (s : State) : StepOutcome := unsupported s

/-- AUIPC (R165). -/
def execAuipc (s : State) : StepOutcome := unsupported s

/-- JAL (R166). -/
def execJal (s : State) : StepOutcome := unsupported s

/-- `Invalid(w)` (R167, D20). -/
def execInvalid (s : State) : StepOutcome := unsupported s

end Sys2Proof.Machine
end

