-- ==== Sys2Proof/Machine/Fetch.lean ====
section
/-! DEFINITION. Instruction fetch (41_dispatch.md R104): the record at index `pc` of PROGRAM. It reads no data memory
(20_memory.md R38, R44, R64) and has no alignment rule (R50). -/

namespace Sys2Proof.Machine

/-- The record a Ready core fetches: `PROGRAM[pc]` (R104). It is `none` in a state that is not Ready by R26, which
asks both `run = Ready` and `pc < LEN`. -/
def State.fetch (s : State) : Option Record := if s.run = .ready then s.program[s.pc]? else none

/-- Execute a fetched record (R105). -/
def execRecord (r : Record) (s : State) : StepOutcome :=
  match r with
  | .instr i => exec i s
  | .invalid _ => execInvalid s

/-- The instruction that fills the indices before a placed one: `ADDI x0, x0, 0` (95_test_vectors.md section 0,
notes/assumptions/3.md). -/
def fillerRecord : Record := .instr (.addi 0 0 0)

/-- `program` with `r` at index `at_`, longer if it must be. -/
def placeRecord (program : List Record) (at_ : Nat) (r : Record) : List Record :=
  if at_ < program.length then program.set at_ r
  else program ++ List.replicate (at_ - program.length) fillerRecord ++ [r]

end Sys2Proof.Machine
end

