-- ==== Sys2Proof/Machine/Step.lean ====
section
/-! DEFINITION. One step of the core (41_dispatch.md R105), and the host's way to place an instruction. -/

namespace Sys2Proof.Machine

/-- The step command's transition (R105): fetch, then execute. A core that is not Ready has none: NotReady (R113). -/
def step (s : State) : Host.Outcome State Fault Refusal :=
  match s.fetch with
  | some r => execRecord r s
  | none => .fault .notReady

/-- `s` with the instruction word `w` as `PROGRAM[pc]` and Ready, so that the next step runs it: it stands for the
caller's construction of a core with that program (notes/assumptions/3.md). The bits above `nbits` are zero. -/
def State.withFetchWord (s : State) (nbits w : Nat) : State :=
  { s with
    program := placeRecord s.program s.pc (decode (BitVec.ofNat 32 (w % 2 ^ nbits)))
    run := .ready }

end Sys2Proof.Machine
end

