-- ==== Sys2Proof/Machine/StepBack.lean ====
section
/-! DEFINITION. The step-back command (41_dispatch.md R115 to R118): it reverses the last completed step from the
log. -/

namespace Sys2Proof.Machine

/-- The results of step-back (R101, R116, D16). -/
inductive StepBackResult where
  | ok
  | emptyHistory
  | nothingToReverse
  deriving DecidableEq, Repr

/-- `Restore(addr, n, b)` (R115): no check, no latency, no fill, through the write-through path. -/
def State.restore (s : State) (addr : Word) (n : Width) (b : BitVec n.bits) : State :=
  match n with
  | .word => (s.cacheWrite (wordIndex addr) b).2
  | n =>
    (s.cacheWrite (wordIndex addr) (replaceBits (s.mem.readWord (wordIndex addr)) (laneBit addr n) b)).2

/-- Reverse one entry (R115). -/
def undoAction (s : State) (a : Action) : State :=
  match a with
  | .jump pcBefore _ => { s with pc := pcBefore }
  | .stall _ => s
  | .writeMemory addr n before _ => s.restore addr n before
  | .writeRegister r before _ => s.writeReg r before
  | .readRegister _ _ => s
  | .error => s

/-- Whether an entry is a `Jump`, the last entry of a step record (R112). -/
def Action.isJump : Action → Bool
  | .jump _ _ => true
  | _ => false

/-- The entries step-back pops, newest first: the last one and those after the latest `Jump` before it (R115). The
argument is the log, newest first. -/
def poppedEntries : List Action → List Action
  | [] => []
  | last :: earlier => last :: earlier.takeWhile fun a => !a.isJump

/-- The log that stays, newest first. -/
def keptEntries : List Action → List Action
  | [] => []
  | _ :: earlier => earlier.dropWhile fun a => !a.isJump

/-- `step_back()` (R115, R116): the result and the state after it. -/
def stepBack (s : State) : StepBackResult × State :=
  match s.log.reverse with
  | [] => (.emptyHistory, s)
  | .error :: _ => (.nothingToReverse, s)
  | newest =>
    (.ok, { (poppedEntries newest).foldl undoAction s with
      log := (keptEntries newest).reverse
      run := .ready })

end Sys2Proof.Machine
end

