-- ==== Sys2Proof/WellFormed.lean ====
section
/-! DEFINITION. Well-formed records (30_encoding.md R66, R67, D3): every field in its range. That the
opcode belongs to its variant and that a register is 0..31 hold by the types of Syntax.lean. -/

namespace Sys2Proof

/-- A 12-bit two's-complement field: -2048..2047 (R66: the I and S immediates and the SB offset). -/
def fitsSigned12 (v : Int) : Bool := decide (-2048 ≤ v) && decide (v ≤ 2047)

/-- A 20-bit two's-complement field: -2^19..2^19-1 (R66: the UJ offset). -/
def fitsSigned20 (v : Int) : Bool := decide (-524288 ≤ v) && decide (v ≤ 524287)

/-- A 5-bit unsigned field: 0..31 (R66: `shamt`). -/
def fitsShamt (v : Nat) : Bool := decide (v ≤ 31)

/-- A 20-bit unsigned field: 0..2^20-1 (R66: the U immediate). -/
def fitsUnsigned20 (v : Nat) : Bool := decide (v ≤ 1048575)

/-- Every field of the record lies in the range of R66. -/
def Instr.wellFormed : Instr → Bool
  | .lb _ _ imm | .lh _ _ imm | .lw _ _ imm | .lbu _ _ imm | .lhu _ _ imm => fitsSigned12 imm
  | .addi _ _ imm | .slti _ _ imm | .sltiu _ _ imm => fitsSigned12 imm
  | .xori _ _ imm | .ori _ _ imm | .andi _ _ imm => fitsSigned12 imm
  | .jalr _ _ imm => fitsSigned12 imm
  | .scall => true
  | .slli _ _ shamt | .srli _ _ shamt | .srai _ _ shamt => fitsShamt shamt
  | .add _ _ _ | .sub _ _ _ | .sll _ _ _ | .slt _ _ _ | .sltu _ _ _ => true
  | .xor _ _ _ | .srl _ _ _ | .sra _ _ _ | .or _ _ _ | .and _ _ _ => true
  | .sb _ _ imm | .sh _ _ imm | .sw _ _ imm => fitsSigned12 imm
  | .beq _ _ offset | .bne _ _ offset | .blt _ _ offset => fitsSigned12 offset
  | .bge _ _ offset | .bltu _ _ offset | .bgeu _ _ offset => fitsSigned12 offset
  | .lui _ imm20 | .auipc _ imm20 => fitsUnsigned20 imm20
  | .jal _ offset => fitsSigned20 offset

/-- A record of a program that may be constructed (R67, R186): a well-formed instruction, or `Invalid(w)` (R79, R167).
DESIGN CHOICE (notes/assumptions/21.md), unsafe: `Invalid(w)` counts as well-formed for every `w`, also for one that
matches a row of the table, which the decoder never gives and of which R67 and R79 say nothing. -/
def Record.wellFormed : Record → Bool
  | .instr i => i.wellFormed
  | .invalid _ => true

end Sys2Proof
end

