-- ==== Sys2Proof/Machine/Commands.lean ====
section
/-! DEFINITION. The block's command interface (41_dispatch.md R101): construct, step, step back, read registers,
read log. These five are all a caller can do (R119). -/

namespace Sys2Proof.Machine

/-- The first index whose record is not well-formed. -/
def firstIllFormed (program : List Record) : Option Nat := program.findIdx? fun r => !r.wellFormed

/-- `Interpreter::new(memory_words, program)`, with the cache parameters as arguments (70_reset_and_hazards.md R184):
the state of R37, or the refusal of parameters R9 excludes or of a record that is not well-formed (R67, R186). Where
several constraints fail the spec does not say which is reported; CACHE_SETS, BLOCK_WORDS, then the first such record
is a DESIGN CHOICE (notes/assumptions/22.md). -/
def State.construct (params : Params) (program : List Record) : Except Refusal State :=
  if params.cacheSets = 0 then .error .noCacheSets
  else if params.blockWords = 0 then .error .noBlockWords
  else
    match firstIllFormed program with
    | some index => .error (.illFormedRecord index)
    | none => .ok (State.initial params program)

/-- The results of the step command (R101). -/
inductive StepResult where
  | ok
  | fault (kind : FaultKind)
  | notReady
  deriving DecidableEq, Repr

/-- The result the caller gets with the next state: a step that halts returns its fault (R105, R111, R170). -/
def resultOf (next : State) : StepResult :=
  match next.run with
  | .halted kind => .fault kind
  | _ => .ok

/-- `step()` as a command: its result and the state after it; NotReady changes nothing (R113). A refused step has
no result and no next state: its refusal holds the marked state (R114, notes/assumptions/8.md). -/
def stepCommand (s : State) : Except Refusal (StepResult × State) :=
  match step s with
  | .next t => .ok (resultOf t, t)
  | .fault .notReady => .ok (.notReady, s)
  | .refused r => .error r

/-- `registers()`: a snapshot of X0 to X31, X0 read as 0 (10_state.md R21). -/
def registers (s : State) : List Word := (List.finRange 32).map s.readReg

/-- `iter()`: the whole log, oldest entry first (R36, R101). -/
def iterLog (s : State) : List Action := s.log

/-- The commands a caller may issue to a constructed core (R101). -/
inductive Command where
  | step
  | stepBack
  | readRegisters
  | readLog
  deriving DecidableEq, Repr

/-- What a command returns (R101). -/
inductive Response where
  | stepped (result : StepResult)
  | steppedBack (result : StepBackResult)
  | registerSnapshot (values : List Word)
  | logEntries (entries : List Action)
  deriving DecidableEq, Repr

/-- One command: its response and the state after it; a refused step has neither, and its mark is
final (R114). -/
def runCommand (c : Command) (s : State) : Except Refusal (Response × State) :=
  match c with
  | .step => (stepCommand s).map fun r => (.stepped r.1, r.2)
  | .stepBack => .ok (.steppedBack (stepBack s).1, (stepBack s).2)
  | .readRegisters => .ok (.registerSnapshot (registers s), s)
  | .readLog => .ok (.logEntries (iterLog s), s)

end Sys2Proof.Machine
end

