-- ==== Sys2Proof/Safety.lean ====
section
/-! DEFINITION. The terms claims are made in: what an instruction reads and accesses, what a completed step leaves,
what a faulting step leaves, the shape of the log, and the invariants. Everything here is stated by the fields of
State, by `readReg`, `readByte` and `readWord`, and by arithmetic, not by the operations the meanings are made of. -/

namespace Sys2Proof

/-! ## What an instruction is, as syntax -/

/-- The encoding of `i` matches a row's pattern under its mask (30_encoding.md R78). -/
def Encodes (i : Instr) (pattern mask : Word) : Prop := encode i &&& mask = pattern

/-- The source registers a step reads and logs, in order (41_dispatch.md R106): none for the five opcodes
without semantics, which fault before any operand is read (10_state.md R19). -/
def Instr.sources : Instr → List Reg
  | .lb _ rs1 _ | .lh _ rs1 _ | .lw _ rs1 _ | .lbu _ rs1 _ | .lhu _ rs1 _ => [rs1]
  | .addi _ rs1 _ | .slti _ rs1 _ | .sltiu _ rs1 _ | .xori _ rs1 _ | .ori _ rs1 _ | .andi _ rs1 _ => [rs1]
  | .slli _ rs1 _ | .srli _ rs1 _ | .srai _ rs1 _ => [rs1]
  | .add _ rs1 rs2 | .sub _ rs1 rs2 | .sll _ rs1 rs2 | .slt _ rs1 rs2 | .sltu _ rs1 rs2 => [rs1, rs2]
  | .xor _ rs1 rs2 | .srl _ rs1 rs2 | .sra _ rs1 rs2 | .or _ rs1 rs2 | .and _ rs1 rs2 => [rs1, rs2]
  | .sb rs1 rs2 _ | .sh rs1 rs2 _ | .sw rs1 rs2 _ => [rs1, rs2]
  | .beq rs1 rs2 _ | .bne rs1 rs2 _ | .blt rs1 rs2 _ => [rs1, rs2]
  | .bge rs1 rs2 _ | .bltu rs1 rs2 _ | .bgeu rs1 rs2 _ => [rs1, rs2]
  | .jalr _ _ _ | .scall | .lui _ _ | .auipc _ _ | .jal _ _ => []

/-- The register an instruction writes (10_state.md R19); none for stores, branches and the five opcodes without
semantics. -/
def Instr.destination : Instr → Option Reg
  | .lb rd _ _ | .lh rd _ _ | .lw rd _ _ | .lbu rd _ _ | .lhu rd _ _ => some rd
  | .addi rd _ _ | .slti rd _ _ | .sltiu rd _ _ | .xori rd _ _ | .ori rd _ _ | .andi rd _ _ => some rd
  | .slli rd _ _ | .srli rd _ _ | .srai rd _ _ => some rd
  | .add rd _ _ | .sub rd _ _ | .sll rd _ _ | .slt rd _ _ | .sltu rd _ _ => some rd
  | .xor rd _ _ | .srl rd _ _ | .sra rd _ _ | .or rd _ _ | .and rd _ _ => some rd
  | .sb _ _ _ | .sh _ _ _ | .sw _ _ _ => none
  | .beq _ _ _ | .bne _ _ _ | .blt _ _ _ | .bge _ _ _ | .bltu _ _ _ | .bgeu _ _ _ => none
  | .jalr _ _ _ | .scall | .lui _ _ | .auipc _ _ | .jal _ _ => none

/-- The one memory access of a load or store (20_memory.md R45): its width, base register and immediate. -/
def Instr.access : Instr → Option (Width × Reg × Int)
  | .lb _ rs1 imm | .lbu _ rs1 imm | .sb rs1 _ imm => some (.byte, rs1, imm)
  | .lh _ rs1 imm | .lhu _ rs1 imm | .sh rs1 _ imm => some (.half, rs1, imm)
  | .lw _ rs1 imm | .sw rs1 _ imm => some (.word, rs1, imm)
  | .addi _ _ _ | .slti _ _ _ | .sltiu _ _ _ | .xori _ _ _ | .ori _ _ _ | .andi _ _ _ => none
  | .slli _ _ _ | .srli _ _ _ | .srai _ _ _ => none
  | .add _ _ _ | .sub _ _ _ | .sll _ _ _ | .slt _ _ _ | .sltu _ _ _ => none
  | .xor _ _ _ | .srl _ _ _ | .sra _ _ _ | .or _ _ _ | .and _ _ _ => none
  | .beq _ _ _ | .bne _ _ _ | .blt _ _ _ | .bge _ _ _ | .bltu _ _ _ | .bgeu _ _ _ => none
  | .jalr _ _ _ | .scall | .lui _ _ | .auipc _ _ | .jal _ _ => none

/-- A store (45_stores.md). -/
def Instr.isStore (i : Instr) : Bool := i.access.isSome && i.destination.isNone

/-- A conditional branch (46_branches.md). -/
def Instr.isBranch : Instr → Bool
  | .beq _ _ _ | .bne _ _ _ | .blt _ _ _ | .bge _ _ _ | .bltu _ _ _ | .bgeu _ _ _ => true
  | _ => false

/-- One of the five declared opcodes without semantics (47_unsupported.md R161). -/
def Instr.isUnsupported : Instr → Bool
  | .jalr _ _ _ | .scall | .lui _ _ | .auipc _ _ | .jal _ _ => true
  | _ => false

/-- The offset of a branch, in instructions (30_encoding.md R66). -/
def Instr.branchOffset : Instr → Option Int
  | .beq _ _ offset | .bne _ _ offset | .blt _ _ offset => some offset
  | .bge _ _ offset | .bltu _ _ offset | .bgeu _ _ offset => some offset
  | _ => none

/-! ## The operand fields of a word, by arithmetic on `u(w)` (30_encoding.md R71 to R77) -/

/-- `u(w[lo+n-1:lo])` (00_scope.md R10). -/
def fieldOf (w : Word) (lo n : Nat) : Nat := w.toNat / 2 ^ lo % 2 ^ n

/-- The two's-complement reading of an `n`-bit field whose unsigned reading is `u` (00_scope.md R10). -/
def signedReading (n u : Nat) : Int := if u < 2 ^ (n - 1) then (u : Int) else (u : Int) - 2 ^ n

/-- The fields of an instruction are those of the word `w` (R71 to R77). -/
def Instr.FieldsFrom (w : Word) : Instr → Prop
  | .lb rd rs1 imm | .lh rd rs1 imm | .lw rd rs1 imm | .lbu rd rs1 imm | .lhu rd rs1 imm
  | .addi rd rs1 imm | .slti rd rs1 imm | .sltiu rd rs1 imm | .xori rd rs1 imm | .ori rd rs1 imm
  | .andi rd rs1 imm | .jalr rd rs1 imm =>
    rd.val = fieldOf w 7 5 ∧ rs1.val = fieldOf w 15 5 ∧ imm = signedReading 12 (fieldOf w 20 12)
  | .scall => True
  | .slli rd rs1 shamt | .srli rd rs1 shamt | .srai rd rs1 shamt =>
    rd.val = fieldOf w 7 5 ∧ rs1.val = fieldOf w 15 5 ∧ shamt = fieldOf w 20 5
  | .add rd rs1 rs2 | .sub rd rs1 rs2 | .sll rd rs1 rs2 | .slt rd rs1 rs2 | .sltu rd rs1 rs2
  | .xor rd rs1 rs2 | .srl rd rs1 rs2 | .sra rd rs1 rs2 | .or rd rs1 rs2 | .and rd rs1 rs2 =>
    rd.val = fieldOf w 7 5 ∧ rs1.val = fieldOf w 15 5 ∧ rs2.val = fieldOf w 20 5
  | .sb rs1 rs2 imm | .sh rs1 rs2 imm | .sw rs1 rs2 imm =>
    rs1.val = fieldOf w 15 5 ∧ rs2.val = fieldOf w 20 5 ∧
      imm = signedReading 12 (fieldOf w 25 7 * 32 + fieldOf w 7 5)
  | .beq rs1 rs2 offset | .bne rs1 rs2 offset | .blt rs1 rs2 offset | .bge rs1 rs2 offset
  | .bltu rs1 rs2 offset | .bgeu rs1 rs2 offset =>
    rs1.val = fieldOf w 15 5 ∧ rs2.val = fieldOf w 20 5 ∧
      offset = signedReading 12
        (fieldOf w 31 1 * 2048 + fieldOf w 7 1 * 1024 + fieldOf w 25 6 * 16 + fieldOf w 8 4)
  | .lui rd imm20 | .auipc rd imm20 => rd.val = fieldOf w 7 5 ∧ imm20 = fieldOf w 12 20
  | .jal rd offset =>
    rd.val = fieldOf w 7 5 ∧
      offset = signedReading 20
        (fieldOf w 31 1 * 524288 + fieldOf w 12 8 * 2048 + fieldOf w 20 1 * 1024 + fieldOf w 21 10)

end Sys2Proof

namespace Sys2Proof.Machine

/-! ## What a step leaves -/

/-- The entries of the source reads of a step that starts in `s` (41_dispatch.md R106). -/
def readEntries (s : State) (sources : List Reg) : List Action :=
  sources.map fun r => .readRegister r (s.readReg r)

/-- The part every successful step has in common: `pc` becomes `npc`, the run state becomes Finished if that is
past the program and stays otherwise (R109, R110), the construction parameters and the program stay. -/
structure Continues (s t : State) (npc : Nat) : Prop where
  pc : t.pc = npc
  run : t.run = if s.program.length ≤ npc then .finished else s.run
  params : t.params = s.params
  program : t.program = s.program

/-- Register `rd` holds `v`, unless it is X0, and every other register holds what it held (R16, R18). -/
def WritesOnly (s t : State) (rd : Reg) (v : Word) : Prop :=
  ∀ r, t.readReg r = if r = rd ∧ r ≠ 0 then v else s.readReg r

/-- A completed step of an instruction that computes a register from registers (R126, R136): `rd` gets `v`, the
other registers, memory and the cache stay, so every byte reads as before. (What it logs holds of every completed
step and is stated once for all of them.) -/
structure ComputesRegister (s t : State) (rd : Reg) (v : Word) : Prop where
  step : Continues s t (s.pc + 1)
  regs : WritesOnly s t rd v
  mem : t.mem = s.mem
  cache : t.cache = s.cache

/-- A completed load, but for its cache and log effects (R120): `rd` gets `v`, every byte of memory reads as before. -/
structure Loads (s t : State) (rd : Reg) (v : Word) : Prop where
  step : Continues s t (s.pc + 1)
  regs : WritesOnly s t rd v
  bytes : ∀ a, t.mem.readByte a = s.mem.readByte a

/-- A completed store of the bytes `data` at address `start`, but for its cache and log effects (R147): every
register and every other byte of memory is as before. -/
structure StoresBytes (s t : State) (start : Nat) (data : List Byte) : Prop where
  step : Continues s t (s.pc + 1)
  regs : ∀ r, t.readReg r = s.readReg r
  stored : ∀ k, (h : k < data.length) → t.mem.readByte (start + k) = data[k]
  others : ∀ a, (a < start ∨ start + data.length ≤ a) → t.mem.readByte a = s.mem.readByte a

/-- A completed branch to `npc` (R153): registers, memory and cache stay; the log gets the two reads and the jump. -/
structure Branches (s t : State) (rs1 rs2 : Reg) (npc : Nat) : Prop where
  step : Continues s t npc
  regs : ∀ r, t.readReg r = s.readReg r
  mem : t.mem = s.mem
  cache : t.cache = s.cache
  log : t.log = s.log ++ readEntries s [rs1, rs2] ++ [.jump s.pc npc]

/-- A faulting step (41_dispatch.md R111, 60_exceptions.md R173): the reads gathered so far and one Error are
logged, the core is halted with the kind, everything else is as before. -/
def Faults (s t : State) (sources : List Reg) (kind : FaultKind) : Prop :=
  t = { s with log := s.log ++ readEntries s sources ++ [.error], run := .halted kind }

/-- The fault an instruction raises in a state, if any (60_exceptions.md R169, R172): alignment of a half-word
first, then accessibility; the opcodes without semantics always. -/
def RaisesFault (i : Instr) (s : State) (kind : FaultKind) : Prop :=
  match i.access with
  | some (n, rs1, imm) =>
    if n = .half ∧ (effectiveAddress s rs1 imm).toNat % 2 = 1 then kind = .alignmentFault
    else kind = .invalidAddress ∧ s.params.memWords ≤ (effectiveAddress s rs1 imm).toNat / 4
  | none => kind = .unsupportedInstruction ∧ i.isUnsupported = true

/-! ## The cache -/

/-- Word `i`'s block is resident: its set's line is valid and holds its tag (20_memory.md R55, R56 "hit"). -/
def Resident (s : State) (i : Nat) : Prop :=
  ∃ line, s.cache[i / s.params.blockWords % s.params.cacheSets]? = some (some line) ∧
    line.tag = i / s.params.blockWords / s.params.cacheSets

/-- The log of a completed step whose access read word `i` through the cache: the reads, the effect, a Stall of
FILL_LATENCY if the word missed and the latency is not zero, the jump (R105, R108, 20_memory.md R60). -/
structure LogsCacheRead (s t : State) (sources : List Reg) (effect : Action) (i : Nat) : Prop where
  hit : Resident s i → t.log = s.log ++ readEntries s sources ++ [effect, .jump s.pc (s.pc + 1)]
  freeMiss : ¬Resident s i → s.params.fillLatency = 0 →
    t.log = s.log ++ readEntries s sources ++ [effect, .jump s.pc (s.pc + 1)]
  slowMiss : ¬Resident s i → 0 < s.params.fillLatency →
    t.log = s.log ++ readEntries s sources ++
      [effect, .stall s.params.fillLatency, .jump s.pc (s.pc + 1)]

/-- Which words are resident after a read of word `i` (R56): on a hit the same; on a miss word `i`'s block, and of
the other blocks those that were and map to another set. -/
structure FillsFor (s t : State) (i : Nat) : Prop where
  hit : Resident s i → ∀ j, Resident t j ↔ Resident s j
  filled : Resident t i
  otherSets : ∀ j, j / s.params.blockWords % s.params.cacheSets ≠ i / s.params.blockWords % s.params.cacheSets →
    (Resident t j ↔ Resident s j)
  evicted : ¬Resident s i → ∀ j,
    j / s.params.blockWords % s.params.cacheSets = i / s.params.blockWords % s.params.cacheSets →
    Resident t j → j / s.params.blockWords = i / s.params.blockWords

/-- The tags of the valid lines, `none` for an invalid one: what `valid` and `tag` of R33 are. -/
def State.lineTags (s : State) : List (Option Nat) := s.cache.map fun line => line.map CacheLine.tag

/-! ## Invariants -/

/-- What holds of parameters, memory and cache in every reachable state: R9's constraints, the canonical form of
memory, no byte beyond the capacity, one line per set, and the coherence of R59. -/
structure MemoryInv (s : State) : Prop where
  params : s.params.WellFormed
  canonical : s.mem.wf = true
  bounded : ∀ cell ∈ s.mem, cell.1 < 4 * s.params.memWords
  sets : s.cache.length = s.params.cacheSets
  coherent : ∀ (set : Nat) (line : CacheLine), s.cache[set]? = some (some line) →
    ∀ j, j < s.params.blockWords →
      (line.tag * s.params.cacheSets + set) * s.params.blockWords + j < s.params.memWords →
      line.data[j]? = some (s.mem.readWord ((line.tag * s.params.cacheSets + set) * s.params.blockWords + j))

/-- Zero to two `ReadRegister` entries (41_dispatch.md R112). -/
def IsReads (entries : List Action) : Prop :=
  entries.length ≤ 2 ∧ ∀ a ∈ entries, ∃ r v, a = .readRegister r v

/-- At most one `WriteRegister` or `WriteMemory` (R112). -/
def IsEffect (entries : List Action) : Prop :=
  entries = [] ∨ (∃ r b a, entries = [.writeRegister r b a]) ∨ ∃ addr n b a, entries = [.writeMemory addr n b a]

/-- At most one `Stall`, of at least one cycle (R102, R112). -/
def IsStall (entries : List Action) : Prop := entries = [] ∨ ∃ c, 1 ≤ c ∧ entries = [.stall c]

/-- A step record (R112). -/
def IsStepRecord (entries : List Action) : Prop :=
  ∃ reads effect stall pcBefore pcAfter,
    entries = reads ++ effect ++ stall ++ [.jump pcBefore pcAfter] ∧ IsReads reads ∧ IsEffect effect ∧ IsStall stall

/-- A fault record (R112). -/
def IsFaultRecord (entries : List Action) : Prop := ∃ reads, entries = reads ++ [.error] ∧ IsReads reads

/-- The log is step records followed by at most one fault record (R112). -/
def LogShape (log : List Action) : Prop :=
  ∃ (records : List (List Action)) (fault : List Action),
    log = records.flatten ++ fault ∧ (∀ r ∈ records, IsStepRecord r) ∧ (fault = [] ∨ IsFaultRecord fault)

/-- What step-back relies on: the index a `Jump` came from is in the program, the address of a `WriteMemory` passed
its check (R115 "`Restore` cannot fault"). -/
def Reversible (s : State) : Action → Prop
  | .jump pcBefore _ => pcBefore < s.program.length
  | .writeMemory addr n _ _ => checkAccess s.params addr n = none
  | _ => True

/-- What holds of run state, `pc` and log in every reachable state: R27, R112, and what step-back relies on. -/
structure HistoryInv (s : State) : Prop where
  ready : s.run = .ready → s.pc < s.program.length
  finished : s.run = .finished → s.program.length ≤ s.pc
  halted : ∀ kind, s.run = .halted kind → s.pc < s.program.length
  errorLast : s.log.getLast? = some .error ↔ ∃ kind, s.run = .halted kind
  shape : LogShape s.log
  reversible : ∀ a ∈ s.log, Reversible s a

/-! ## Runs that differ in timing only -/

/-- The log without its `Stall` entries. -/
def withoutStalls (log : List Action) : List Action :=
  log.filter fun a => match a with
    | .stall _ => false
    | _ => true

/-- Two states that differ at most in the cache, the cache's parameters and the `Stall` entries of the log (R189). -/
structure SameButTiming (s t : State) : Prop where
  regs : s.regs = t.regs
  pc : s.pc = t.pc
  run : s.run = t.run
  mem : s.mem = t.mem
  program : s.program = t.program
  memWords : s.params.memWords = t.params.memWords
  log : withoutStalls s.log = withoutStalls t.log

end Sys2Proof.Machine
end

