-- ==== Sys2Proof/Certificates/Slice0/Obligations.lean ====
section
/-! DEFINITION. The statements for the provers. The terms they are made in are in Sys2Proof/Safety.lean. A clause
that rests on a decision of the spec (D<n>) or on a choice of the model (a log entry) is marked in its docstring. -/

open Sys2Proof Sys2Proof.Machine

/-! ## The binary layer (30_encoding.md section 2; the layer is the spec's own, D1, D2, D20) -/

/-- Words written out in 95_test_vectors.md sections 2.2 to 2.8, one or more of every format, decode to what the
spec says they are, and words of no row are rejected by name. -/
def Obligations.WordsOfTheSpecDecode : Prop :=
  decode 0x00500093#32 = .instr (.addi 1 0 5) ∧
  decode 0xFFF08103#32 = .instr (.lb 2 1 (-1)) ∧
  decode 0x41F15193#32 = .instr (.srai 3 2 31) ∧
  decode 0x402081B3#32 = .instr (.sub 3 1 2) ∧
  decode 0xFE102FA3#32 = .instr (.sw 0 1 (-1)) ∧
  decode 0x80000063#32 = .instr (.beq 0 0 (-2048)) ∧
  decode 0x7E000FE3#32 = .instr (.beq 0 0 2047) ∧
  decode 0x000010B7#32 = .instr (.lui 1 1) ∧
  decode 0xFFBFF0EF#32 = .instr (.jal 1 (-3)) ∧
  decode 0x00000073#32 = .instr .scall ∧
  decode 0x02001013#32 = .invalid 0x02001013#32 ∧
  decode 0x00100073#32 = .invalid 0x00100073#32

/-- R80 (derived in the spec): decoding an encoded well-formed instruction gives it back, every operand at every
value its field admits. -/
def Obligations.DecodeOfEncodeIsTheInstruction : Prop :=
  ∀ i : Instr, i.wellFormed = true → decode (encode i) = .instr i

/-- R80 (derived in the spec): encoding what a word decodes to gives the word back, and the instruction is
well-formed: no bit of a valid word is dropped. -/
def Obligations.EncodeOfDecodeIsTheWord : Prop :=
  ∀ (w : Word) (i : Instr), decode w = .instr i → encode i = w ∧ i.wellFormed = true

/-- R71 to R79 (D1, D2, D20): a word that matches a row of the opcode table decodes to that row's instruction with
the operand fields at the row's places; a word that matches no row decodes to `Invalid`. -/
def Obligations.DecodeFollowsTheOpcodeTable : Prop :=
  ∀ w : Word,
    (∀ row ∈ opcodeTable, w &&& row.mask = row.pattern →
      ∃ i : Instr, decode w = .instr i ∧ i.row = row ∧ i.FieldsFrom w) ∧
    ((∀ row ∈ opcodeTable, w &&& row.mask ≠ row.pattern) → decode w = .invalid w)

/-- R78 (D1): "No two rows overlap." -/
def Obligations.OpcodeRowsDoNotOverlap : Prop :=
  opcodeTable.length = 38 ∧
  opcodeTable.Pairwise fun r1 r2 => ∀ w : Word, ¬(w &&& r1.mask = r1.pattern ∧ w &&& r2.mask = r2.pattern)

/-! ## The value types (40_value_types.md) -/

/-- R87, R88: addition and subtraction wrap modulo the width on all six types, read unsigned and read signed. -/
def Obligations.AdditionAndSubtractionWrap : Prop :=
  ∀ (t : ValueType) (a b : BitVec t.bits),
    (t.add a b).toNat = (a.toNat + b.toNat) % 2 ^ t.bits ∧
    (t.add a b).toInt = (a.toInt + b.toInt + 2 ^ (t.bits - 1)) % 2 ^ t.bits - 2 ^ (t.bits - 1) ∧
    ((t.sub a b).toNat : Int) = ((a.toNat : Int) - (b.toNat : Int)) % 2 ^ t.bits

/-- R90, R91 (the amount modulo the width is D5): left shift multiplies, right shift divides rounding down, by
`2^(k mod N)`, on the reading of the type. -/
def Obligations.ShiftsMultiplyAndDivide : Prop :=
  ∀ (t : ValueType) (a : BitVec t.bits) (k : Nat),
    (t.shl a k).toNat = a.toNat * 2 ^ (k % t.bits) % 2 ^ t.bits ∧
    (t.signedness = .unsigned → (t.shr a k).toNat = a.toNat / 2 ^ (k % t.bits)) ∧
    (t.signedness = .signed → (t.shr a k).toInt = a.toInt / 2 ^ (k % t.bits))

/-- R89, R92: the bitwise operators act on each bit; equality is bitwise, order is that of the type's reading, and
`a >= b` is `not (a < b)`; `0xFFFFFFFF` and 1 compare opposite ways. -/
def Obligations.BitwiseAndComparisonOperators : Prop :=
  (∀ (t : ValueType) (a b : BitVec t.bits),
    (∀ j, (valueAnd a b).getLsbD j = (a.getLsbD j && b.getLsbD j) ∧
      (valueOr a b).getLsbD j = (a.getLsbD j || b.getLsbD j) ∧
      (valueXor a b).getLsbD j = (a.getLsbD j ^^ b.getLsbD j)) ∧
    (valueEq a b = true ↔ a.toNat = b.toNat) ∧
    (t.signedness = .unsigned → (t.lt a b = true ↔ a.toNat < b.toNat)) ∧
    (t.signedness = .signed → (t.lt a b = true ↔ a.toInt < b.toInt)) ∧
    (valueGe t.signedness a b = true ↔ t.lt a b = false)) ∧
  ValueType.lt .word 0xFFFFFFFF#32 1#32 = false ∧ ValueType.lt .signedWord 0xFFFFFFFF#32 1#32 = true

/-- R94 to R96: a conversion to the same or a smaller width keeps the low bits; a conversion to a larger width keeps
the unsigned reading of an unsigned source and the signed reading of a signed one. -/
def Obligations.ConversionsFollowTheSource : Prop :=
  ∀ (source target : ValueType) (v : BitVec source.bits),
    (target.bits ≤ source.bits → (source.convert target v).toNat = v.toNat % 2 ^ target.bits) ∧
    (source.bits < target.bits → source.signedness = .unsigned → (source.convert target v).toNat = v.toNat) ∧
    (source.bits < target.bits → source.signedness = .signed → (source.convert target v).toInt = v.toInt)

/-- R98: `as_bytes` lists a value's bytes least significant first, and a word in memory has its bytes in that order. -/
def Obligations.AsBytesIsLeastSignificantFirst : Prop :=
  (∀ (t : ValueType) (v : BitVec t.bits),
    (asBytes v).length = t.bits / 8 ∧
    ∀ k, (h : k < (asBytes v).length) → ((asBytes v)[k]).toNat = v.toNat / 2 ^ (8 * k) % 256) ∧
  ∀ (m : Memory) (i : Nat) (w : Word), m.wf = true →
    ∀ k, (h : k < (asBytes w).length) → (m.writeWord i w).readByte (4 * i + k) = (asBytes w)[k]

/-- R99 (derived in the spec): the laws of the operators and conversions. -/
def Obligations.ValueTypeLaws : Prop :=
  (∀ (t : ValueType) (a b c : BitVec t.bits),
    t.add a b = t.add b a ∧ t.add (t.add a b) c = t.add a (t.add b c) ∧ t.add a (0#t.bits) = a ∧
    t.sub a b = t.add a (t.sub (0#t.bits) b) ∧ t.sub a a = 0#t.bits ∧ t.sub (t.add a b) b = a) ∧
  ∀ (narrow wide : ValueType) (v : BitVec narrow.bits), narrow.bits ≤ wide.bits →
    wide.convert narrow (narrow.convert wide v) = v

/-! ## Registers, construction, commands -/

/-- R16: X0 reads as zero and discards writes, which are no error; a write to another register is seen there and
nowhere else. -/
def Obligations.X0IsAConstantZeroSink : Prop :=
  ∀ (s : State) (r : Reg) (v : Word),
    s.readReg 0 = 0#32 ∧ s.writeReg 0 v = s ∧
    (r ≠ 0 → (s.writeReg r v).readReg r = v) ∧ ∀ q, q ≠ r → (s.writeReg r v).readReg q = s.readReg q

/-- R37 (D9, D14): every piece of state after construction. That `State.reset` has the parameters of
`Params.example` and no program is the model's choice (log entry 2). -/
def Obligations.ConstructionSetsEveryPieceOfState : Prop :=
  (∀ (p : Params) (program : List Record) (s : State), State.construct p program = .ok s →
    (∀ r, s.readReg r = 0#32) ∧ s.pc = 0 ∧
    (0 < program.length → s.run = .ready) ∧ (program.length = 0 → s.run = .finished) ∧
    (∀ i, s.mem.readWord i = 0#32) ∧ (∀ i, ¬Resident s i) ∧ s.log = [] ∧ s.params = p ∧ s.program = program) ∧
  State.construct Params.example [] = .ok State.reset

/-- R67, R9 (D3): a program of well-formed records is constructed; a program with a record that is not well-formed is
refused; CACHE_SETS = 0 and BLOCK_WORDS = 0 are refused. The model's choices, not the spec's: that the refusal carries
the index of the first ill-formed record (log entry 12), that the two parameters are refused under names of their own
(log entry 8) and checked first, in this order (log entry 22), and that `Invalid(w)` is well-formed for every `w` (log
entry 21). -/
def Obligations.ConstructionRefusesByName : Prop :=
  ∀ (p : Params) (program : List Record),
    (p.cacheSets = 0 → State.construct p program = .error .noCacheSets) ∧
    (p.cacheSets ≠ 0 → p.blockWords = 0 → State.construct p program = .error .noBlockWords) ∧
    (p.WellFormed → (∀ r ∈ program, r.wellFormed = true) → ∃ s, State.construct p program = .ok s) ∧
    (p.WellFormed → ∀ k, (h : k < program.length) → (program[k]).wellFormed = false →
      (∀ j, (h' : j < k) → (program[j]).wellFormed = true) →
      State.construct p program = .error (.illFormedRecord k))

/-- R104: a Ready core with `pc < LEN` fetches `PROGRAM[pc]` and runs it; the fetch never faults. -/
def Obligations.StepRunsTheFetchedRecord : Prop :=
  ∀ s : State, s.run = .ready → s.pc < s.program.length →
    ∃ r, s.program[s.pc]? = some r ∧
      (∀ i, r = .instr i → step s = exec i s) ∧ (∀ w, r = .invalid w → step s = execInvalid s)

/-- The binary layer (R8, D1): with a program given as words, a Ready core runs the well-formed instruction whose
encoding stands at `pc`. -/
def Obligations.StepRunsTheEncodedInstruction : Prop :=
  ∀ (s : State) (words : List Word) (i : Instr), s.run = .ready → s.program = programOfWords words →
    words[s.pc]? = some (encode i) → i.wellFormed = true → step s = exec i s

/-- R113 (D17): a Finished or Halted core has no step transition; the step command returns NotReady and changes
nothing. -/
def Obligations.StepIsRejectedUnlessReady : Prop :=
  ∀ s : State, s.run ≠ .ready → step s = .fault .notReady ∧ stepCommand s = .ok (.notReady, s)

/-- R175: whatever command is issued to a Halted core, its state stays as it is; only a new construction leaves
Halted. (The premise is the invariant of reachable states, which StepKeepsHistoryInvariant states.) -/
def Obligations.HaltedCoreStaysHalted : Prop :=
  ∀ (s : State) (kind : FaultKind), HistoryInv s → s.run = .halted kind →
    ∀ c : Command, ∃ response, runCommand c s = .ok (response, s)

/-- R21, R101: the results of the commands: a step that halts reports its fault, any other completed step Ok; the
register snapshot lists X0 to X31; the two read commands change nothing. -/
def Obligations.CommandsReportTheirResults : Prop :=
  ∀ s : State,
    (∀ t, step s = .next t → stepCommand s = .ok
      ((match t.run with | .halted kind => StepResult.fault kind | _ => StepResult.ok), t)) ∧
    (∃ values, runCommand .readRegisters s = .ok (.registerSnapshot values, s) ∧ values.length = 32 ∧
      ∀ r : Reg, values[r.val]? = some (s.readReg r)) ∧
    runCommand .readLog s = .ok (.logEntries s.log, s)

/-! ## Register-register ALU (44_alu_reg.md) -/

/-- R137, R138, R140, R141, R142, R145, R146: ADD, SUB, SLT, SLTU, XOR, OR, AND complete in every state, with the
result the rule gives; memory, cache and every other register stay. -/
def Obligations.RegisterAluResults : Prop :=
  ∀ (s : State) (rd rs1 rs2 : Reg),
    (Encodes (.add rd rs1 rs2) 0x00000033#32 0xFE00707F#32 ∧
      ∃ t, exec (.add rd rs1 rs2) s = .next t ∧ ComputesRegister s t rd
        (BitVec.ofNat 32 ((s.readReg rs1).toNat + (s.readReg rs2).toNat))) ∧
    (Encodes (.sub rd rs1 rs2) 0x40000033#32 0xFE00707F#32 ∧
      ∃ t, exec (.sub rd rs1 rs2) s = .next t ∧ ComputesRegister s t rd
        (BitVec.ofInt 32 ((s.readReg rs1).toNat - (s.readReg rs2).toNat))) ∧
    (Encodes (.slt rd rs1 rs2) 0x00002033#32 0xFE00707F#32 ∧
      ∃ t, exec (.slt rd rs1 rs2) s = .next t ∧ ComputesRegister s t rd
        (if (s.readReg rs1).toInt < (s.readReg rs2).toInt then 1#32 else 0#32)) ∧
    (Encodes (.sltu rd rs1 rs2) 0x00003033#32 0xFE00707F#32 ∧
      ∃ t, exec (.sltu rd rs1 rs2) s = .next t ∧ ComputesRegister s t rd
        (if (s.readReg rs1).toNat < (s.readReg rs2).toNat then 1#32 else 0#32)) ∧
    (Encodes (.xor rd rs1 rs2) 0x00004033#32 0xFE00707F#32 ∧
      ∃ t, exec (.xor rd rs1 rs2) s = .next t ∧ ComputesRegister s t rd
        (s.readReg rs1 ^^^ s.readReg rs2)) ∧
    (Encodes (.or rd rs1 rs2) 0x00006033#32 0xFE00707F#32 ∧
      ∃ t, exec (.or rd rs1 rs2) s = .next t ∧ ComputesRegister s t rd
        (s.readReg rs1 ||| s.readReg rs2)) ∧
    (Encodes (.and rd rs1 rs2) 0x00007033#32 0xFE00707F#32 ∧
      ∃ t, exec (.and rd rs1 rs2) s = .next t ∧ ComputesRegister s t rd
        (s.readReg rs1 &&& s.readReg rs2))

/-- R139, R143, R144 (D5): SLL, SRL, SRA complete in every state; the amount is `u(x[rs2]) mod 32`, SLL multiplies,
SRL and SRA divide the unsigned and the signed reading rounding down. -/
def Obligations.RegisterShiftResults : Prop :=
  ∀ (s : State) (rd rs1 rs2 : Reg),
    (Encodes (.sll rd rs1 rs2) 0x00001033#32 0xFE00707F#32 ∧
      ∃ t, exec (.sll rd rs1 rs2) s = .next t ∧ ComputesRegister s t rd
        (BitVec.ofNat 32 ((s.readReg rs1).toNat * 2 ^ ((s.readReg rs2).toNat % 32)))) ∧
    (Encodes (.srl rd rs1 rs2) 0x00005033#32 0xFE00707F#32 ∧
      ∃ t, exec (.srl rd rs1 rs2) s = .next t ∧ ComputesRegister s t rd
        (BitVec.ofNat 32 ((s.readReg rs1).toNat / 2 ^ ((s.readReg rs2).toNat % 32)))) ∧
    (Encodes (.sra rd rs1 rs2) 0x40005033#32 0xFE00707F#32 ∧
      ∃ t, exec (.sra rd rs1 rs2) s = .next t ∧ ComputesRegister s t rd
        (BitVec.ofInt 32 ((s.readReg rs1).toInt / 2 ^ ((s.readReg rs2).toNat % 32))))

/-! ## ALU with immediate and shift-immediate (43_alu_imm.md) -/

/-- R127, R128: ADDI and SLTI complete in every state, with the result the rule gives for every immediate of the
field; memory, cache and every other register stay. -/
def Obligations.AddAndSetLessThanImmediateResults : Prop :=
  ∀ (s : State) (rd rs1 : Reg) (imm : Int), -2048 ≤ imm → imm ≤ 2047 →
    (Encodes (.addi rd rs1 imm) 0x00000013#32 0x0000707F#32 ∧
      ∃ t, exec (.addi rd rs1 imm) s = .next t ∧ ComputesRegister s t rd
        (BitVec.ofInt 32 ((s.readReg rs1).toNat + imm))) ∧
    (Encodes (.slti rd rs1 imm) 0x00002013#32 0x0000707F#32 ∧
      ∃ t, exec (.slti rd rs1 imm) s = .next t ∧ ComputesRegister s t rd
        (if (s.readReg rs1).toInt < imm then 1#32 else 0#32))

/-- R129 to R132 (the sign-extension of the immediate is D4): SLTIU, XORI, ORI, ANDI complete in every state with
the 12-bit immediate sign-extended; SLTIU compares it unsigned. -/
def Obligations.LogicalImmediateResults : Prop :=
  ∀ (s : State) (rd rs1 : Reg) (imm : Int), -2048 ≤ imm → imm ≤ 2047 →
    (Encodes (.sltiu rd rs1 imm) 0x00003013#32 0x0000707F#32 ∧
      ∃ t, exec (.sltiu rd rs1 imm) s = .next t ∧ ComputesRegister s t rd
        (if ((s.readReg rs1).toNat : Int) < imm % 2 ^ 32 then 1#32 else 0#32)) ∧
    (Encodes (.xori rd rs1 imm) 0x00004013#32 0x0000707F#32 ∧
      ∃ t, exec (.xori rd rs1 imm) s = .next t ∧ ComputesRegister s t rd
        (s.readReg rs1 ^^^ (BitVec.ofInt 12 imm).signExtend 32)) ∧
    (Encodes (.ori rd rs1 imm) 0x00006013#32 0x0000707F#32 ∧
      ∃ t, exec (.ori rd rs1 imm) s = .next t ∧ ComputesRegister s t rd
        (s.readReg rs1 ||| (BitVec.ofInt 12 imm).signExtend 32)) ∧
    (Encodes (.andi rd rs1 imm) 0x00007013#32 0x0000707F#32 ∧
      ∃ t, exec (.andi rd rs1 imm) s = .next t ∧ ComputesRegister s t rd
        (s.readReg rs1 &&& (BitVec.ofInt 12 imm).signExtend 32))

/-- R133 to R135: SLLI, SRLI, SRAI complete in every state, for every shift amount 0..31.
-/
def Obligations.ShiftImmediateResults : Prop :=
  ∀ (s : State) (rd rs1 : Reg) (shamt : Nat), shamt ≤ 31 →
    (Encodes (.slli rd rs1 shamt) 0x00001013#32 0xFE00707F#32 ∧
      ∃ t, exec (.slli rd rs1 shamt) s = .next t ∧ ComputesRegister s t rd
        (BitVec.ofNat 32 ((s.readReg rs1).toNat * 2 ^ shamt))) ∧
    (Encodes (.srli rd rs1 shamt) 0x00005013#32 0xFE00707F#32 ∧
      ∃ t, exec (.srli rd rs1 shamt) s = .next t ∧ ComputesRegister s t rd
        (BitVec.ofNat 32 ((s.readReg rs1).toNat / 2 ^ shamt))) ∧
    (Encodes (.srai rd rs1 shamt) 0x40005013#32 0xFE00707F#32 ∧
      ∃ t, exec (.srai rd rs1 shamt) s = .next t ∧ ComputesRegister s t rd
        (BitVec.ofInt 32 ((s.readReg rs1).toInt / 2 ^ shamt)))

/-! ## Loads (42_loads.md) -/

/-- R121, R124: LB and LBU complete at every accessible address, with the byte there sign- or zero-extended; at any
other address they take InvalidAddress. -/
def Obligations.ByteLoadResults : Prop :=
  ∀ (s : State) (rd rs1 : Reg) (imm : Int), -2048 ≤ imm → imm ≤ 2047 →
    let addr := effectiveAddress s rs1 imm
    (addr.toNat : Int) = ((s.readReg rs1).toNat + imm) % 2 ^ 32 ∧
    Encodes (.lb rd rs1 imm) 0x00000003#32 0x0000707F#32 ∧
    Encodes (.lbu rd rs1 imm) 0x00004003#32 0x0000707F#32 ∧
    (addr.toNat / 4 < s.params.memWords →
      (∃ t, exec (.lb rd rs1 imm) s = .next t ∧ Loads s t rd ((s.mem.readByte addr.toNat).signExtend 32)) ∧
      ∃ t, exec (.lbu rd rs1 imm) s = .next t ∧ Loads s t rd ((s.mem.readByte addr.toNat).setWidth 32)) ∧
    (s.params.memWords ≤ addr.toNat / 4 →
      (∃ t, exec (.lb rd rs1 imm) s = .next t ∧ Faults s t [rs1] .invalidAddress) ∧
      ∃ t, exec (.lbu rd rs1 imm) s = .next t ∧ Faults s t [rs1] .invalidAddress)

/-- R122, R125: LH and LHU complete at every even accessible address, with the little-endian half-word there sign- or
zero-extended; at an odd address they take AlignmentFault, accessible or not; at any other, InvalidAddress. -/
def Obligations.HalfWordLoadResults : Prop :=
  ∀ (s : State) (rd rs1 : Reg) (imm : Int), -2048 ≤ imm → imm ≤ 2047 →
    let addr := effectiveAddress s rs1 imm
    let half : HalfWord := s.mem.readByte (addr.toNat + 1) ++ s.mem.readByte addr.toNat
    (addr.toNat : Int) = ((s.readReg rs1).toNat + imm) % 2 ^ 32 ∧
    Encodes (.lh rd rs1 imm) 0x00001003#32 0x0000707F#32 ∧
    Encodes (.lhu rd rs1 imm) 0x00005003#32 0x0000707F#32 ∧
    (addr.toNat % 2 = 0 → addr.toNat / 4 < s.params.memWords →
      (∃ t, exec (.lh rd rs1 imm) s = .next t ∧ Loads s t rd (half.signExtend 32)) ∧
      ∃ t, exec (.lhu rd rs1 imm) s = .next t ∧ Loads s t rd (half.setWidth 32)) ∧
    (addr.toNat % 2 = 1 →
      (∃ t, exec (.lh rd rs1 imm) s = .next t ∧ Faults s t [rs1] .alignmentFault) ∧
      ∃ t, exec (.lhu rd rs1 imm) s = .next t ∧ Faults s t [rs1] .alignmentFault) ∧
    (addr.toNat % 2 = 0 → s.params.memWords ≤ addr.toNat / 4 →
      (∃ t, exec (.lh rd rs1 imm) s = .next t ∧ Faults s t [rs1] .invalidAddress) ∧
      ∃ t, exec (.lhu rd rs1 imm) s = .next t ∧ Faults s t [rs1] .invalidAddress)

/-- R123 (D6): LW completes at every accessible address, whatever its low two bits, with the word
`M[u(addr) div 4]`; at any other address it takes InvalidAddress. -/
def Obligations.WordLoadResults : Prop :=
  ∀ (s : State) (rd rs1 : Reg) (imm : Int), -2048 ≤ imm → imm ≤ 2047 →
    let addr := effectiveAddress s rs1 imm
    let start := 4 * (addr.toNat / 4)
    (addr.toNat : Int) = ((s.readReg rs1).toNat + imm) % 2 ^ 32 ∧
    Encodes (.lw rd rs1 imm) 0x00002003#32 0x0000707F#32 ∧
    (addr.toNat / 4 < s.params.memWords →
      ∃ t, exec (.lw rd rs1 imm) s = .next t ∧ Loads s t rd
        (s.mem.readByte (start + 3) ++ s.mem.readByte (start + 2) ++ s.mem.readByte (start + 1) ++
          s.mem.readByte start)) ∧
    (s.params.memWords ≤ addr.toNat / 4 →
      ∃ t, exec (.lw rd rs1 imm) s = .next t ∧ Faults s t [rs1] .invalidAddress)

/-- R60, R56, R105 to R109 (D8, D11, D13): a completed load logs its read, its register write, a Stall exactly when
the word missed and FILL_LATENCY is not zero, and its jump; a miss makes the word's block resident in its set in
place of what was there. -/
def Obligations.LoadsLogAndFillTheCache : Prop :=
  ∀ (s : State) (rd rs1 : Reg) (imm : Int) (i : Instr) (n : Width), MemoryInv s →
    i ∈ [Instr.lb rd rs1 imm, .lbu rd rs1 imm, .lh rd rs1 imm, .lhu rd rs1 imm, .lw rd rs1 imm] →
    i.access = some (n, rs1, imm) →
    (n = .half → (effectiveAddress s rs1 imm).toNat % 2 = 0) →
    (effectiveAddress s rs1 imm).toNat / 4 < s.params.memWords →
    ∃ t, exec i s = .next t ∧
      LogsCacheRead s t [rs1] (.writeRegister rd (s.readReg rd) (t.readReg rd))
        ((effectiveAddress s rs1 imm).toNat / 4) ∧
      FillsFor s t ((effectiveAddress s rs1 imm).toNat / 4)

/-! ## Stores (45_stores.md) -/

/-- R148: SB completes at every accessible address and stores the low byte of `x[rs2]` there, every other byte of
memory and every register as before; at any other address it takes InvalidAddress. -/
def Obligations.ByteStoreResults : Prop :=
  ∀ (s : State) (rs1 rs2 : Reg) (imm : Int), s.mem.wf = true → -2048 ≤ imm → imm ≤ 2047 →
    let addr := effectiveAddress s rs1 imm
    (addr.toNat : Int) = ((s.readReg rs1).toNat + imm) % 2 ^ 32 ∧
    Encodes (.sb rs1 rs2 imm) 0x00000023#32 0x0000707F#32 ∧
    (addr.toNat / 4 < s.params.memWords →
      ∃ t, exec (.sb rs1 rs2 imm) s = .next t ∧ StoresBytes s t addr.toNat [(s.readReg rs2).extractLsb' 0 8] ∧
        .writeMemory addr .byte (s.mem.readByte addr.toNat) ((s.readReg rs2).extractLsb' 0 8) ∈ t.log) ∧
    (s.params.memWords ≤ addr.toNat / 4 →
      ∃ t, exec (.sb rs1 rs2 imm) s = .next t ∧ Faults s t [rs1, rs2] .invalidAddress)

/-- R149: SH completes at every even accessible address and stores the low half-word of `x[rs2]` there, low byte
first; at an odd address it takes AlignmentFault, accessible or not; at any other, InvalidAddress. -/
def Obligations.HalfWordStoreResults : Prop :=
  ∀ (s : State) (rs1 rs2 : Reg) (imm : Int), s.mem.wf = true → -2048 ≤ imm → imm ≤ 2047 →
    let addr := effectiveAddress s rs1 imm
    (addr.toNat : Int) = ((s.readReg rs1).toNat + imm) % 2 ^ 32 ∧
    Encodes (.sh rs1 rs2 imm) 0x00001023#32 0x0000707F#32 ∧
    (addr.toNat % 2 = 0 → addr.toNat / 4 < s.params.memWords →
      ∃ t, exec (.sh rs1 rs2 imm) s = .next t ∧
        StoresBytes s t addr.toNat [(s.readReg rs2).extractLsb' 0 8, (s.readReg rs2).extractLsb' 8 8] ∧
        .writeMemory addr .half (s.mem.readByte (addr.toNat + 1) ++ s.mem.readByte addr.toNat)
          ((s.readReg rs2).extractLsb' 0 16) ∈ t.log) ∧
    (addr.toNat % 2 = 1 →
      ∃ t, exec (.sh rs1 rs2 imm) s = .next t ∧ Faults s t [rs1, rs2] .alignmentFault) ∧
    (addr.toNat % 2 = 0 → s.params.memWords ≤ addr.toNat / 4 →
      ∃ t, exec (.sh rs1 rs2 imm) s = .next t ∧ Faults s t [rs1, rs2] .invalidAddress)

/-- R150 (D6, D13): SW completes at every accessible address, whatever its low two bits, and stores `x[rs2]` in the
aligned word; it never stalls and changes no block's residence; at any other address it takes InvalidAddress. -/
def Obligations.WordStoreResults : Prop :=
  ∀ (s : State) (rs1 rs2 : Reg) (imm : Int), s.mem.wf = true → -2048 ≤ imm → imm ≤ 2047 →
    let addr := effectiveAddress s rs1 imm
    (addr.toNat : Int) = ((s.readReg rs1).toNat + imm) % 2 ^ 32 ∧
    Encodes (.sw rs1 rs2 imm) 0x00002023#32 0x0000707F#32 ∧
    (addr.toNat / 4 < s.params.memWords →
      ∃ t, exec (.sw rs1 rs2 imm) s = .next t ∧
        StoresBytes s t (4 * (addr.toNat / 4))
          [(s.readReg rs2).extractLsb' 0 8, (s.readReg rs2).extractLsb' 8 8, (s.readReg rs2).extractLsb' 16 8,
            (s.readReg rs2).extractLsb' 24 8] ∧
        t.log = s.log ++ readEntries s [rs1, rs2] ++
          [.writeMemory addr .word (s.mem.readWord (addr.toNat / 4)) (s.readReg rs2), .jump s.pc (s.pc + 1)] ∧
        ∀ j, Resident t j ↔ Resident s j) ∧
    (s.params.memWords ≤ addr.toNat / 4 →
      ∃ t, exec (.sw rs1 rs2 imm) s = .next t ∧ Faults s t [rs1, rs2] .invalidAddress)

/-- R52, R60, R105 to R109 (D8, D12, D13): a completed SB or SH logs its two reads, its memory write with the value it
overwrote, a Stall exactly when the enclosing word missed and FILL_LATENCY is not zero, and its jump; a miss fills the
line as a load's does. -/
def Obligations.SubWordStoresLogAndFillTheCache : Prop :=
  ∀ (s : State) (rs1 rs2 : Reg) (imm : Int), MemoryInv s →
    let addr := effectiveAddress s rs1 imm
    addr.toNat / 4 < s.params.memWords →
    (∃ t, exec (.sb rs1 rs2 imm) s = .next t ∧
      LogsCacheRead s t [rs1, rs2] (.writeMemory addr .byte (s.mem.readByte addr.toNat)
        ((s.readReg rs2).extractLsb' 0 8)) (addr.toNat / 4) ∧
      FillsFor s t (addr.toNat / 4)) ∧
    (addr.toNat % 2 = 0 → ∃ t, exec (.sh rs1 rs2 imm) s = .next t ∧
      LogsCacheRead s t [rs1, rs2]
        (.writeMemory addr .half (s.mem.readByte (addr.toNat + 1) ++ s.mem.readByte addr.toNat)
          ((s.readReg rs2).extractLsb' 0 16)) (addr.toNat / 4) ∧
      FillsFor s t (addr.toNat / 4))

/-- R43, R61 (derived in the spec): after a word is stored, a byte load in it gives its byte sign-extended, a half-word
load its half, a word load the word. -/
def Obligations.LoadSeesTheStoredWord : Prop :=
  ∀ (s t : State) (rs1 rs2 : Reg) (imm : Int), s.mem.wf = true →
    (effectiveAddress s rs1 imm).toNat / 4 < s.params.memWords →
    exec (.sw rs1 rs2 imm) s = .next t →
    ∀ (rd base : Reg) (imm' : Int), rd ≠ 0 →
      (effectiveAddress t base imm').toNat / 4 = (effectiveAddress s rs1 imm).toNat / 4 →
      (∃ u, exec (.lb rd base imm') t = .next u ∧ u.readReg rd =
        ((s.readReg rs2).extractLsb' (8 * ((effectiveAddress t base imm').toNat % 4)) 8).signExtend 32) ∧
      ((effectiveAddress t base imm').toNat % 2 = 0 →
        ∃ u, exec (.lh rd base imm') t = .next u ∧ u.readReg rd =
          ((s.readReg rs2).extractLsb' (8 * ((effectiveAddress t base imm').toNat % 4)) 16).signExtend 32) ∧
      ∃ u, exec (.lw rd base imm') t = .next u ∧ u.readReg rd = s.readReg rs2

/-! ## Branches (46_branches.md) -/

/-- R154 to R159: each branch completes wherever its target is not negative: to `pc + s(offset)` when its comparison
holds, to `pc + 1` when it does not; nothing but `pc`, run state and log changes. -/
def Obligations.BranchResults : Prop :=
  ∀ (s : State) (rs1 rs2 : Reg) (offset : Int), -2048 ≤ offset → offset ≤ 2047 →
    let target := (s.pc : Int) + offset
    let goes := fun (i : Instr) (taken : Prop) =>
      (taken → 0 ≤ target → ∃ t, exec i s = .next t ∧ Branches s t rs1 rs2 target.toNat) ∧
      (¬taken → ∃ t, exec i s = .next t ∧ Branches s t rs1 rs2 (s.pc + 1))
    (Encodes (.beq rs1 rs2 offset) 0x00000063#32 0x0000707F#32 ∧
      goes (.beq rs1 rs2 offset) (s.readReg rs1 = s.readReg rs2)) ∧
    (Encodes (.bne rs1 rs2 offset) 0x00001063#32 0x0000707F#32 ∧
      goes (.bne rs1 rs2 offset) (s.readReg rs1 ≠ s.readReg rs2)) ∧
    (Encodes (.blt rs1 rs2 offset) 0x00004063#32 0x0000707F#32 ∧
      goes (.blt rs1 rs2 offset) ((s.readReg rs1).toInt < (s.readReg rs2).toInt)) ∧
    (Encodes (.bge rs1 rs2 offset) 0x00005063#32 0x0000707F#32 ∧
      goes (.bge rs1 rs2 offset) ((s.readReg rs1).toInt ≥ (s.readReg rs2).toInt)) ∧
    (Encodes (.bltu rs1 rs2 offset) 0x00006063#32 0x0000707F#32 ∧
      goes (.bltu rs1 rs2 offset) ((s.readReg rs1).toNat < (s.readReg rs2).toNat)) ∧
    (Encodes (.bgeu rs1 rs2 offset) 0x00007063#32 0x0000707F#32 ∧
      goes (.bgeu rs1 rs2 offset) ((s.readReg rs1).toNat ≥ (s.readReg rs2).toNat))

/-- R152 (D10): a taken branch with a negative target is refused by name, after its two reads: the state marked is the
one before the step with `rs1` and `rs2`, in this order, read into its log. No other instruction is refused in any
state. That the refusal holds that state is the model's form of R114's mark (log entry 8). -/
def Obligations.OnlyNegativeTargetsAreRefused : Prop :=
  ∀ (i : Instr) (s : State) (r : Refusal), exec i s = .refused r ↔
    ∃ rs1 rs2 offset, r = .negativeBranchTarget { s with log := s.log ++ readEntries s [rs1, rs2] } ∧
      (s.pc : Int) + offset < 0 ∧
      ((i = .beq rs1 rs2 offset ∧ s.readReg rs1 = s.readReg rs2) ∨
        (i = .bne rs1 rs2 offset ∧ s.readReg rs1 ≠ s.readReg rs2) ∨
        (i = .blt rs1 rs2 offset ∧ (s.readReg rs1).toInt < (s.readReg rs2).toInt) ∨
        (i = .bge rs1 rs2 offset ∧ (s.readReg rs1).toInt ≥ (s.readReg rs2).toInt) ∨
        (i = .bltu rs1 rs2 offset ∧ (s.readReg rs1).toNat < (s.readReg rs2).toNat) ∨
        (i = .bgeu rs1 rs2 offset ∧ (s.readReg rs1).toNat ≥ (s.readReg rs2).toNat))

/-! ## Opcodes without semantics, and faults (47_unsupported.md, 60_exceptions.md) -/

/-- R162 to R166: JALR, SCALL, LUI, AUIPC and JAL, whatever their operands, log one Error and halt the core with
UnsupportedInstruction; nothing else changes. -/
def Obligations.UnsupportedOpcodesHalt : Prop :=
  ∀ (s : State) (rd rs1 : Reg) (imm : Int) (imm20 : Nat),
    let halted : State := { s with log := s.log ++ [.error], run := .halted .unsupportedInstruction }
    (Encodes (.jalr rd rs1 imm) 0x00000067#32 0x0000707F#32 ∧ exec (.jalr rd rs1 imm) s = .next halted) ∧
    (encode .scall = 0x00000073#32 ∧ exec .scall s = .next halted) ∧
    (Encodes (.lui rd imm20) 0x00000037#32 0x0000007F#32 ∧ exec (.lui rd imm20) s = .next halted) ∧
    (Encodes (.auipc rd imm20) 0x00000017#32 0x0000007F#32 ∧ exec (.auipc rd imm20) s = .next halted) ∧
    (Encodes (.jal rd imm) 0x0000006F#32 0x0000007F#32 ∧ exec (.jal rd imm) s = .next halted)

/-- R167, R81 (D20): a word of no row halts a Ready core with UnsupportedInstruction and one Error; nothing else
changes. -/
def Obligations.InvalidWordHalts : Prop :=
  ∀ (s : State) (words : List Word) (w : Word), s.run = .ready → s.program = programOfWords words →
    words[s.pc]? = some w → (∀ row ∈ opcodeTable, w &&& row.mask ≠ row.pattern) →
    step s = .next { s with log := s.log ++ [.error], run := .halted .unsupportedInstruction }

/-- R111, R173: a step that halts the core has logged its reads so far and one Error, has set `run` to the kind, and
has left `pc`, registers, memory and cache as they were. -/
def Obligations.FaultingStepChangesNothingElse : Prop :=
  ∀ (i : Instr) (s t : State) (kind : FaultKind), s.run = .ready → exec i s = .next t → t.run = .halted kind →
    Faults s t i.sources kind

/-- R168, R169, R172 (R169 is derived in the spec; the order of checks is D7, D8): an instruction halts the core with a
kind exactly when: half-word access at an odd address, AlignmentFault; otherwise access at an inaccessible address,
InvalidAddress; an opcode without semantics, UnsupportedInstruction. -/
def Obligations.FaultsAreExactlyThese : Prop :=
  ∀ (i : Instr) (s : State) (kind : FaultKind), s.run = .ready →
    ((∃ t, exec i s = .next t ∧ t.run = .halted kind) ↔ RaisesFault i s kind)

/-- R39, R46, R47 in the order of checks of R49, which is the spec's decision D7 (log entry 16): a half-word access at
an odd address takes AlignmentFault, whether or not it is accessible; a byte access never does; an access
that is not so misaligned takes InvalidAddress exactly when `u(addr) div 4` is not below MEM_WORDS, and one that
completes is to an accessible address. -/
def Obligations.AlignmentAndAccessibility : Prop :=
  ∀ (i : Instr) (s : State) (n : Width) (rs1 : Reg) (imm : Int), s.run = .ready → i.access = some (n, rs1, imm) →
    let addr := (effectiveAddress s rs1 imm).toNat
    (n = .half → addr % 2 = 1 → ∃ t, exec i s = .next t ∧ t.run = .halted .alignmentFault) ∧
    (n = .byte → ∀ t, exec i s = .next t → t.run ≠ .halted .alignmentFault) ∧
    (¬(n = .half ∧ addr % 2 = 1) →
      ((∃ t, exec i s = .next t ∧ t.run = .halted .invalidAddress) ↔ s.params.memWords ≤ addr / 4)) ∧
    ∀ t, exec i s = .next t → (∀ kind, t.run ≠ .halted kind) → addr / 4 < s.params.memWords

/-! ## The whole machine -/

/-- R106, R109: a step that does not fault logs one entry per source register, in order, with the value it held
before the step; then what EffectsAndStallsAreLogged says, no read and no jump; then one Jump from the index fetched
to the next one, which is `pc + 1` or a branch's target, where `pc` then stands. -/
def Obligations.StepAppendsOneRecord : Prop :=
  ∀ (i : Instr) (s t : State), s.run = .ready → exec i s = .next t → (∀ kind, t.run ≠ .halted kind) →
    (∃ middle, t.log = s.log ++ readEntries s i.sources ++ middle ++ [.jump s.pc t.pc] ∧
      ∀ a ∈ middle, (∀ r v, a ≠ .readRegister r v) ∧ ∀ p q, a ≠ .jump p q) ∧
    (t.pc = s.pc + 1 ∨ ∃ offset, i.branchOffset = some offset ∧ (t.pc : Int) = s.pc + offset)

/-- R107, R108, R112 (D11, D12): between the reads and the jump a step that does not fault logs one effect, none for a
branch: a register write with the register's value before and after it, so 0 and 0 for X0, or a memory write at the
address the store computes; then at most one Stall, only with an access. -/
def Obligations.EffectsAndStallsAreLogged : Prop :=
  ∀ (i : Instr) (s t : State), s.run = .ready → exec i s = .next t → (∀ kind, t.run ≠ .halted kind) →
    ∃ effect stall, t.log = s.log ++ readEntries s i.sources ++ effect ++ stall ++ [.jump s.pc t.pc] ∧
      (i.isBranch = true → effect = []) ∧
      (∀ rd, i.destination = some rd → effect = [.writeRegister rd (s.readReg rd) (t.readReg rd)]) ∧
      (i.isStore = true → ∀ n rs1 imm, i.access = some (n, rs1, imm) →
        ∃ before after, effect = [.writeMemory (effectiveAddress s rs1 imm) n before after]) ∧
      IsStall stall ∧ (i.access = none → stall = [])

/-- The frame of every instruction (R18, R32, R33, R35): only the destination register changes; only a store changes
memory, and only the bytes at the address it computes (the premise is the canonical form of log entry 6, which
StepKeepsMemoryInvariant states); only a load or store changes the cache; nothing changes the
program or the parameters. -/
def Obligations.InstructionFrame : Prop :=
  ∀ (i : Instr) (s t : State), exec i s = .next t →
    (∀ r, i.destination ≠ some r → t.readReg r = s.readReg r) ∧
    (i.isStore = false → ∀ a, t.mem.readByte a = s.mem.readByte a) ∧
    (s.mem.wf = true → ∀ n rs1 imm, i.access = some (n, rs1, imm) →
      let addr := (effectiveAddress s rs1 imm).toNat
      let start := if n = .word then 4 * (addr / 4) else addr
      ∀ a, (a < start ∨ start + n.bytes ≤ a) → t.mem.readByte a = s.mem.readByte a) ∧
    (i.access = none → t.cache = s.cache) ∧
    t.program = s.program ∧ t.params = s.params

/-- R35, R13, R115: neither a step nor a step-back changes the program or a construction parameter. -/
def Obligations.ProgramIsImmutable : Prop :=
  ∀ s : State,
    (∀ t, step s = .next t → t.program = s.program ∧ t.params = s.params) ∧
    (stepBack s).2.program = s.program ∧ (stepBack s).2.params = s.params

/-- R189: two cores that differ only in cache contents, cache parameters and logged stalls step alike: same values,
same order, same outcome, and still differ only so. In states whose lines differ from memory, which no run reaches,
this rests on the model's reading memory itself (log entry 9). -/
def Obligations.StallTimingChangesNoValue : Prop :=
  ∀ s t : State, SameButTiming s t →
    (∀ s', step s = .next s' → ∃ t', step t = .next t' ∧ SameButTiming s' t') ∧
    (∀ f, step s = .fault f → step t = .fault f) ∧
    (∀ r, step s = .refused r → ∃ s' t', r = .negativeBranchTarget s' ∧
      step t = .refused (.negativeBranchTarget t') ∧ SameButTiming s' t')

/-! ## Invariants -/

/-- R59 and the canonical form of memory (log entry 6): every step from a state with the invariant keeps it. -/
def Obligations.StepKeepsMemoryInvariant : Prop :=
  ∀ s t : State, MemoryInv s → step s = .next t → MemoryInv t

/-- R27, R112 (derived in the spec): every step from a state with the invariant keeps it. -/
def Obligations.StepKeepsHistoryInvariant : Prop :=
  ∀ s t : State, HistoryInv s → step s = .next t → HistoryInv t

/-- Step-back keeps both invariants (R27, R59, R112, R115; D16). -/
def Obligations.StepBackKeepsInvariants : Prop :=
  ∀ s : State, MemoryInv s → HistoryInv s → MemoryInv (stepBack s).2 ∧ HistoryInv (stepBack s).2

/-- Every constructed core, and `State.reset`, has both invariants. -/
def Obligations.ConstructionEstablishesInvariants : Prop :=
  (∀ (p : Params) (program : List Record) (s : State), State.construct p program = .ok s →
    MemoryInv s ∧ HistoryInv s) ∧
  MemoryInv State.reset ∧ HistoryInv State.reset

/-! ## Step back (41_dispatch.md section 4; its details are D16) -/

/-- R118 (derived in the spec): a successful step followed by a step-back restores registers, memory, `pc`, run state
and log exactly. -/
def Obligations.StepThenStepBackRestores : Prop :=
  ∀ s t : State, MemoryInv s → HistoryInv s → step s = .next t → (∀ kind, t.run ≠ .halted kind) →
    (stepBack t).1 = .ok ∧ (stepBack t).2.regs = s.regs ∧ (stepBack t).2.mem = s.mem ∧
      (stepBack t).2.pc = s.pc ∧ (stepBack t).2.run = s.run ∧ (stepBack t).2.log = s.log

/-- R116 (D16): step-back changes nothing on an empty log and on a log that ends in Error, and says which. -/
def Obligations.StepBackWithoutHistoryIsANoOp : Prop :=
  ∀ s : State,
    (s.log = [] → stepBack s = (.emptyHistory, s)) ∧
    (s.log.getLast? = some .error → stepBack s = (.nothingToReverse, s))

/-- R117 (D16): step-back changes no valid bit and no tag of the cache. -/
def Obligations.StepBackKeepsValidBitsAndTags : Prop :=
  ∀ s : State, (stepBack s).2.lineTags = s.lineTags
end

