-- ==== Sys2Proof/Laws/Memory.lean ====
section
/-! SUPPORT. Data memory: read after write, the canonical form, and equality of memories from equality of bytes. -/

namespace Sys2Proof.Machine.Memory

/-! ## One byte -/

theorem wfFrom_mono {low low' : Nat} {m : Memory} (h : low' ≤ low) (hm : wfFrom low m = true) :
    wfFrom low' m = true := by
  cases m with
  | nil => rfl
  | cons c rest => simp_all [wfFrom]; omega

theorem readByte_below {low a : Nat} {m : Memory} (hm : wfFrom low m = true) (h : a < low) : readByte m a = 0#8 := by
  induction m generalizing low with
  | nil => rfl
  | cons c rest ih =>
    simp only [wfFrom, Bool.and_eq_true, decide_eq_true_eq] at hm
    have : c.1 ≠ a := by omega
    simp only [readByte, this, if_false]
    exact ih hm.2 (by omega)

/-- A write leaves every other byte alone, whatever the form of the list. -/
theorem readByte_writeByte_ne (m : Memory) {a a' : Nat} (b : Byte) (h : a' ≠ a) :
    readByte (writeByte m a b) a' = readByte m a' := by
  have h' : ¬a = a' := fun e => h e.symm
  induction m with
  | nil => unfold writeByte; split <;> simp [readByte, h']
  | cons c rest ih =>
    unfold writeByte
    split
    · split <;> simp [readByte, h']
    · split
      · subst a; split <;> simp [readByte, h']
      · simp only [readByte]; split <;> simp_all

/-- A write is seen at its address. -/
theorem readByte_writeByte_self {low : Nat} {m : Memory} (a : Nat) (b : Byte) (hm : wfFrom low m = true) :
    readByte (writeByte m a b) a = b := by
  induction m generalizing low with
  | nil => unfold writeByte; split <;> simp_all [readByte]
  | cons c rest ih =>
    simp only [wfFrom, Bool.and_eq_true, decide_eq_true_eq] at hm
    unfold writeByte
    split
    · split
      · rename_i hb; subst hb
        have hne : c.1 ≠ a := by omega
        simp only [readByte, hne, if_false]
        exact readByte_below hm.2 (by omega)
      · simp [readByte]
    · split
      · split
        · rename_i hb; subst hb
          exact readByte_below hm.2 (by omega)
        · simp [readByte]
      · rename_i h1 h2
        have hne : c.1 ≠ a := fun e => h2 e.symm
        simp only [readByte, hne, if_false]
        exact ih hm.2

theorem readByte_writeByte {m : Memory} (a a' : Nat) (b : Byte) (hm : m.wf = true) :
    readByte (writeByte m a b) a' = if a' = a then b else readByte m a' := by
  split
  · rename_i h; subst h; exact readByte_writeByte_self _ b hm
  · rename_i h; exact readByte_writeByte_ne m b h

theorem wfFrom_writeByte {low : Nat} {m : Memory} (a : Nat) (b : Byte) (ha : low ≤ a) (hm : wfFrom low m = true) :
    wfFrom low (writeByte m a b) = true := by
  induction m generalizing low with
  | nil => unfold writeByte; split <;> simp_all [wfFrom]
  | cons c rest ih =>
    have hm' := hm
    simp only [wfFrom, Bool.and_eq_true, decide_eq_true_eq] at hm'
    obtain ⟨⟨h1, h2⟩, h3⟩ := hm'
    unfold writeByte
    split
    · split
      · exact hm
      · simp only [wfFrom, Bool.and_eq_true, decide_eq_true_eq]
        exact ⟨⟨ha, ‹_›⟩, ⟨by omega, h2⟩, h3⟩
    · split
      · split
        · exact wfFrom_mono (by omega) h3
        · simp only [wfFrom, Bool.and_eq_true, decide_eq_true_eq]
          exact ⟨⟨ha, ‹_›⟩, by subst a; exact h3⟩
      · simp only [wfFrom, Bool.and_eq_true, decide_eq_true_eq]
        exact ⟨⟨h1, h2⟩, ih (by omega) h3⟩

/-- Writing a byte keeps the canonical form. -/
theorem wf_writeByte {m : Memory} (a : Nat) (b : Byte) (hm : m.wf = true) : (m.writeByte a b).wf = true :=
  wfFrom_writeByte a b (Nat.zero_le _) hm

theorem mem_writeByte {m : Memory} {a : Nat} {b : Byte} {c : Host.Cell} (h : c ∈ m.writeByte a b) :
    c = (a, b) ∨ c ∈ m := by
  induction m with
  | nil => unfold writeByte at h; split at h <;> simp_all
  | cons d rest ih =>
    unfold writeByte at h
    split at h
    · split at h <;> simp_all
    · split at h
      · split at h <;> simp_all
        rcases h with h | h <;> simp [h]
      · simp only [List.mem_cons] at h ⊢
        rcases h with h | h
        · exact .inr (.inl h)
        · rcases ih h with h | h
          · exact .inl h
          · exact .inr (.inr h)

/-! ## Equality of memories -/

theorem readByte_head {k : Nat} {v : Byte} {rest : Memory} : readByte ((k, v) :: rest) k = v := by simp [readByte]

theorem eq_of_readByte_from {low : Nat} {m m' : Memory} (hm : wfFrom low m = true) (hm' : wfFrom low m' = true)
    (h : ∀ a, readByte m a = readByte m' a) : m = m' := by
  induction m generalizing low m' with
  | nil =>
    cases m' with
    | nil => rfl
    | cons c rest =>
      simp only [wfFrom, Bool.and_eq_true, decide_eq_true_eq] at hm'
      have := h c.1
      simp only [readByte, if_true] at this
      exact absurd this.symm hm'.1.2
  | cons c rest ih =>
    have hm0 := hm
    simp only [wfFrom, Bool.and_eq_true, decide_eq_true_eq] at hm
    cases m' with
    | nil =>
      have := h c.1
      simp only [readByte, if_true] at this
      exact absurd this hm.1.2
    | cons d rest' =>
      have hm0' := hm'
      simp only [wfFrom, Bool.and_eq_true, decide_eq_true_eq] at hm'
      have hk : c.1 = d.1 := by
        rcases Nat.lt_trichotomy c.1 d.1 with hlt | heq | hgt
        · have h1 := h c.1
          have : d.1 ≠ c.1 := by omega
          simp only [readByte, if_true, this, if_false] at h1
          rw [readByte_below hm'.2 (by omega)] at h1
          exact absurd h1 hm.1.2
        · exact heq
        · have h1 := h d.1
          have : c.1 ≠ d.1 := by omega
          simp only [readByte, if_true, this, if_false] at h1
          rw [readByte_below hm.2 (by omega)] at h1
          exact absurd h1.symm hm'.1.2
      have hv : c.2 = d.2 := by
        have h1 := h c.1
        simp only [readByte, if_true, hk] at h1
        simpa using h1
      have hcd : c = d := Prod.ext hk hv
      subst hcd
      congr 1
      refine ih hm.2 hm'.2 fun a => ?_
      have h1 := h a
      by_cases hca : c.1 = a
      · subst hca
        rw [readByte_below hm.2 (by omega), readByte_below hm'.2 (by omega)]
      · simpa only [readByte, hca, if_false] using h1

/-- Two canonical memories with the same bytes are the same list. -/
theorem eq_of_readByte {m m' : Memory} (hm : m.wf = true) (hm' : m'.wf = true)
    (h : ∀ a, m.readByte a = m'.readByte a) : m = m' :=
  eq_of_readByte_from hm hm' h

/-! ## Bytes in a row and words (20_memory.md R42) -/

theorem asBytes_word (w : Word) :
    asBytes w = [w.extractLsb' 0 8, w.extractLsb' 8 8, w.extractLsb' 16 8, w.extractLsb' 24 8] := rfl

theorem wf_writeBytes {m : Memory} (a : Nat) (bs : List Byte) (hm : m.wf = true) : (m.writeBytes a bs).wf = true := by
  induction bs generalizing m a with
  | nil => exact hm
  | cons b rest ih => exact ih (a + 1) (wf_writeByte a b hm)

/-- Writing a word keeps the canonical form. -/
theorem wf_writeWord {m : Memory} (i : Nat) (w : Word) (hm : m.wf = true) : (m.writeWord i w).wf = true :=
  wf_writeBytes _ _ hm

theorem readByte_writeBytes_ne (m : Memory) (a : Nat) (bs : List Byte) {a' : Nat}
    (h : a' < a ∨ a + bs.length ≤ a') : (m.writeBytes a bs).readByte a' = m.readByte a' := by
  induction bs generalizing m a with
  | nil => rfl
  | cons b rest ih =>
    simp only [List.length_cons] at h
    unfold writeBytes
    rw [ih _ _ (by omega), readByte_writeByte_ne _ _ (by omega)]

theorem readByte_writeBytes {m : Memory} (a : Nat) (bs : List Byte) (hm : m.wf = true) {k : Nat}
    (hk : k < bs.length) : (m.writeBytes a bs).readByte (a + k) = bs[k] := by
  induction bs generalizing m a k with
  | nil => simp at hk
  | cons b rest ih =>
    unfold writeBytes
    cases k with
    | zero =>
      rw [readByte_writeBytes_ne _ _ _ (by omega), Nat.add_zero, readByte_writeByte_self a b hm]; rfl
    | succ k =>
      simp only [List.length_cons] at hk
      have := ih (a + 1) (wf_writeByte a b hm) (k := k) (by omega)
      rw [show a + (k + 1) = a + 1 + k by omega, this]; rfl

/-- A word write leaves the bytes of every other word alone. -/
theorem readByte_writeWord_ne (m : Memory) (i : Nat) (w : Word) {a : Nat} (h : a / 4 ≠ i) :
    (m.writeWord i w).readByte a = m.readByte a :=
  readByte_writeBytes_ne _ _ _ (by simp only [asBytes_word, List.length_cons, List.length_nil]; omega)

/-- Byte lane `k` of a written word (R42). -/
theorem readByte_writeWord_lane {m : Memory} (i : Nat) (w : Word) (hm : m.wf = true) {k : Nat} (hk : k < 4) :
    (m.writeWord i w).readByte (4 * i + k) = w.extractLsb' (8 * k) 8 := by
  have h := readByte_writeBytes (4 * i) (asBytes w) hm (k := k) (by simp [asBytes_word]; omega)
  unfold writeWord
  rw [h]
  simp [asBytes]

/-- Byte lane `k` of a word read (R42). -/
theorem extractLsb'_readWord (m : Memory) (i : Nat) {k : Nat} (hk : k < 4) :
    (m.readWord i).extractLsb' (8 * k) 8 = m.readByte (4 * i + k) := by
  have h : k = 0 ∨ k = 1 ∨ k = 2 ∨ k = 3 := by omega
  unfold readWord
  rcases h with rfl | rfl | rfl | rfl <;>
    (ext j hj; simp) <;>
    grind

/-- A byte access reads its byte (20_memory.md R51). -/
theorem byte_of_word (m : Memory) (a : Nat) : (m.readWord (a / 4)).extractLsb' (8 * (a % 4)) 8 = m.readByte a := by
  have h := extractLsb'_readWord m (a / 4) (k := a % 4) (by omega)
  rwa [show 4 * (a / 4) + a % 4 = a by omega] at h

/-- An aligned half-word access reads its two bytes, the low one first (20_memory.md R42, R51). -/
theorem half_of_word (m : Memory) (a : Nat) (h : a % 2 = 0) :
    (m.readWord (a / 4)).extractLsb' (8 * (a % 4)) 16 = m.readByte (a + 1) ++ m.readByte a := by
  have h0 := extractLsb'_readWord m (a / 4) (k := a % 4) (by omega)
  have h1 := extractLsb'_readWord m (a / 4) (k := a % 4 + 1) (by omega)
  rw [show 4 * (a / 4) + a % 4 = a by omega] at h0
  rw [show 4 * (a / 4) + (a % 4 + 1) = a + 1 by omega] at h1
  rw [← h0, ← h1]
  apply BitVec.eq_of_getLsbD_eq
  intro j hj
  rw [BitVec.getLsbD_append]
  simp only [BitVec.getLsbD_extractLsb']
  grind

/-- A word is its four bytes. -/
theorem word_of_bytes (w : Word) :
    w.extractLsb' 24 8 ++ w.extractLsb' 16 8 ++ w.extractLsb' 8 8 ++ w.extractLsb' 0 8 = w := by
  ext j hj
  simp
  grind

theorem readWord_congr {m m' : Memory} {i : Nat} (h : ∀ k, k < 4 → m.readByte (4 * i + k) = m'.readByte (4 * i + k)) :
    m.readWord i = m'.readWord i := by
  have h0 := h 0 (by omega)
  have h1 := h 1 (by omega)
  have h2 := h 2 (by omega)
  have h3 := h 3 (by omega)
  rw [Nat.add_zero] at h0
  unfold readWord
  rw [h0, h1, h2, h3]

/-- Read after write, by words. -/
theorem readWord_writeWord {m : Memory} (i i' : Nat) (w : Word) (hm : m.wf = true) :
    (m.writeWord i w).readWord i' = if i' = i then w else m.readWord i' := by
  split
  · rename_i h; subst h
    have h0 := readByte_writeWord_lane i' w hm (k := 0) (by omega)
    have h1 := readByte_writeWord_lane i' w hm (k := 1) (by omega)
    have h2 := readByte_writeWord_lane i' w hm (k := 2) (by omega)
    have h3 := readByte_writeWord_lane i' w hm (k := 3) (by omega)
    rw [Nat.add_zero] at h0
    unfold readWord
    rw [h0, h1, h2, h3]
    exact word_of_bytes w
  · rename_i h
    exact readWord_congr fun k hk => readByte_writeWord_ne _ _ _ (by omega)

theorem mem_writeBytes {m : Memory} {a : Nat} {bs : List Byte} {c : Host.Cell} (h : c ∈ m.writeBytes a bs) :
    (a ≤ c.1 ∧ c.1 < a + bs.length) ∨ c ∈ m := by
  induction bs generalizing m a with
  | nil => exact .inr h
  | cons b rest ih =>
    simp only [List.length_cons]
    rcases ih h with h | h
    · exact .inl (by omega)
    · rcases mem_writeByte h with h | h
      · subst h; exact .inl ⟨Nat.le_refl _, by simp⟩
      · exact .inr h

/-- A word write lists no byte outside its word that was not listed. -/
theorem mem_writeWord {m : Memory} {i : Nat} {w : Word} {c : Host.Cell} (h : c ∈ m.writeWord i w) :
    c.1 / 4 = i ∨ c ∈ m := by
  rcases mem_writeBytes h with h | h
  · simp only [asBytes_word, List.length_cons, List.length_nil] at h
    exact .inl (by omega)
  · exact .inr h

/-- Writing a word back restores a canonical memory exactly. -/
theorem writeWord_undo {m : Memory} (i : Nat) (w : Word) (hm : m.wf = true) :
    (m.writeWord i w).writeWord i (m.readWord i) = m := by
  refine eq_of_readByte (wf_writeWord _ _ (wf_writeWord _ _ hm)) hm fun a => ?_
  by_cases h : a / 4 = i
  · have hk : a % 4 < 4 := Nat.mod_lt _ (by omega)
    have ha : a = 4 * i + a % 4 := by omega
    rw [ha, readByte_writeWord_lane i _ (wf_writeWord _ _ hm) hk, extractLsb'_readWord _ _ hk]
  · rw [readByte_writeWord_ne _ _ _ h, readByte_writeWord_ne _ _ _ h]

end Sys2Proof.Machine.Memory
end

