-- ==== Sys2Proof/Laws/State.lean ====
section
/-! SUPPORT. One lemma per field per update of State, and what each shared update leaves of the registers. -/

namespace Sys2Proof.Machine

variable (s : State)

/-! ### emit -/

@[simp] theorem State.emit_regs (a : Action) :
    (s.emit a).regs = s.regs := rfl

@[simp] theorem State.emit_pc (a : Action) :
    (s.emit a).pc = s.pc := rfl

@[simp] theorem State.emit_run (a : Action) :
    (s.emit a).run = s.run := rfl

@[simp] theorem State.emit_mem (a : Action) :
    (s.emit a).mem = s.mem := rfl

@[simp] theorem State.emit_cache (a : Action) :
    (s.emit a).cache = s.cache := rfl

@[simp] theorem State.emit_log (a : Action) :
    (s.emit a).log = s.log ++ [a] := rfl

@[simp] theorem State.emit_params (a : Action) :
    (s.emit a).params = s.params := rfl

@[simp] theorem State.emit_program (a : Action) :
    (s.emit a).program = s.program := rfl

/-! ### logReads -/

@[simp] theorem State.logReads_regs (sources : List Reg) :
    (s.logReads sources).regs = s.regs := rfl

@[simp] theorem State.logReads_pc (sources : List Reg) :
    (s.logReads sources).pc = s.pc := rfl

@[simp] theorem State.logReads_run (sources : List Reg) :
    (s.logReads sources).run = s.run := rfl

@[simp] theorem State.logReads_mem (sources : List Reg) :
    (s.logReads sources).mem = s.mem := rfl

@[simp] theorem State.logReads_cache (sources : List Reg) :
    (s.logReads sources).cache = s.cache := rfl

@[simp] theorem State.logReads_log (sources : List Reg) :
    (s.logReads sources).log = s.log ++ sources.map (readEntry s) := rfl

@[simp] theorem State.logReads_params (sources : List Reg) :
    (s.logReads sources).params = s.params := rfl

@[simp] theorem State.logReads_program (sources : List Reg) :
    (s.logReads sources).program = s.program := rfl

/-! ### writeReg -/

@[simp] theorem State.writeReg_regs (r : Reg) (v : Word) :
    (s.writeReg r v).regs = if r = 0 then s.regs else s.regs.set r v := rfl

@[simp] theorem State.writeReg_pc (r : Reg) (v : Word) :
    (s.writeReg r v).pc = s.pc := rfl

@[simp] theorem State.writeReg_run (r : Reg) (v : Word) :
    (s.writeReg r v).run = s.run := rfl

@[simp] theorem State.writeReg_mem (r : Reg) (v : Word) :
    (s.writeReg r v).mem = s.mem := rfl

@[simp] theorem State.writeReg_cache (r : Reg) (v : Word) :
    (s.writeReg r v).cache = s.cache := rfl

@[simp] theorem State.writeReg_log (r : Reg) (v : Word) :
    (s.writeReg r v).log = s.log := rfl

@[simp] theorem State.writeReg_params (r : Reg) (v : Word) :
    (s.writeReg r v).params = s.params := rfl

@[simp] theorem State.writeReg_program (r : Reg) (v : Word) :
    (s.writeReg r v).program = s.program := rfl

/-! ### writeDest -/

@[simp] theorem State.writeDest_regs (rd : Reg) (v : Word) :
    (s.writeDest rd v).regs = (s.writeReg rd v).regs := rfl

@[simp] theorem State.writeDest_pc (rd : Reg) (v : Word) :
    (s.writeDest rd v).pc = s.pc := rfl

@[simp] theorem State.writeDest_run (rd : Reg) (v : Word) :
    (s.writeDest rd v).run = s.run := rfl

@[simp] theorem State.writeDest_mem (rd : Reg) (v : Word) :
    (s.writeDest rd v).mem = s.mem := rfl

@[simp] theorem State.writeDest_cache (rd : Reg) (v : Word) :
    (s.writeDest rd v).cache = s.cache := rfl

@[simp] theorem State.writeDest_log (rd : Reg) (v : Word) :
    (s.writeDest rd v).log = s.log ++ [.writeRegister rd (s.readReg rd) ((s.writeReg rd v).readReg rd)] := rfl

@[simp] theorem State.writeDest_params (rd : Reg) (v : Word) :
    (s.writeDest rd v).params = s.params := rfl

@[simp] theorem State.writeDest_program (rd : Reg) (v : Word) :
    (s.writeDest rd v).program = s.program := rfl

/-! ### haltWith -/

@[simp] theorem State.haltWith_regs (kind : FaultKind) :
    (s.haltWith kind).regs = s.regs := rfl

@[simp] theorem State.haltWith_pc (kind : FaultKind) :
    (s.haltWith kind).pc = s.pc := rfl

@[simp] theorem State.haltWith_run (kind : FaultKind) :
    (s.haltWith kind).run = .halted kind := rfl

@[simp] theorem State.haltWith_mem (kind : FaultKind) :
    (s.haltWith kind).mem = s.mem := rfl

@[simp] theorem State.haltWith_cache (kind : FaultKind) :
    (s.haltWith kind).cache = s.cache := rfl

@[simp] theorem State.haltWith_log (kind : FaultKind) :
    (s.haltWith kind).log = s.log ++ [.error] := rfl

@[simp] theorem State.haltWith_params (kind : FaultKind) :
    (s.haltWith kind).params = s.params := rfl

@[simp] theorem State.haltWith_program (kind : FaultKind) :
    (s.haltWith kind).program = s.program := rfl

/-! ### retireTo -/

@[simp] theorem State.retireTo_regs (latency npc : Nat) :
    (s.retireTo latency npc).regs = s.regs := rfl

@[simp] theorem State.retireTo_pc (latency npc : Nat) :
    (s.retireTo latency npc).pc = npc := rfl

@[simp] theorem State.retireTo_run (latency npc : Nat) :
    (s.retireTo latency npc).run = if s.program.length ≤ npc then .finished else s.run := rfl

@[simp] theorem State.retireTo_mem (latency npc : Nat) :
    (s.retireTo latency npc).mem = s.mem := rfl

@[simp] theorem State.retireTo_cache (latency npc : Nat) :
    (s.retireTo latency npc).cache = s.cache := rfl

@[simp] theorem State.retireTo_log (latency npc : Nat) :
    (s.retireTo latency npc).log = s.log ++ tailEntries latency s.pc npc := rfl

@[simp] theorem State.retireTo_params (latency npc : Nat) :
    (s.retireTo latency npc).params = s.params := rfl

@[simp] theorem State.retireTo_program (latency npc : Nat) :
    (s.retireTo latency npc).program = s.program := rfl

/-! ### cacheRead_state -/

@[simp] theorem State.cacheRead_state_regs (i : Nat) :
    ((s.cacheRead i).2.2).regs = s.regs := rfl

@[simp] theorem State.cacheRead_state_pc (i : Nat) :
    ((s.cacheRead i).2.2).pc = s.pc := rfl

@[simp] theorem State.cacheRead_state_run (i : Nat) :
    ((s.cacheRead i).2.2).run = s.run := rfl

@[simp] theorem State.cacheRead_state_mem (i : Nat) :
    ((s.cacheRead i).2.2).mem = s.mem := rfl

@[simp] theorem State.cacheRead_state_cache (i : Nat) :
    ((s.cacheRead i).2.2).cache = s.cacheAfterRead i := rfl

@[simp] theorem State.cacheRead_state_log (i : Nat) :
    ((s.cacheRead i).2.2).log = s.log := rfl

@[simp] theorem State.cacheRead_state_params (i : Nat) :
    ((s.cacheRead i).2.2).params = s.params := rfl

@[simp] theorem State.cacheRead_state_program (i : Nat) :
    ((s.cacheRead i).2.2).program = s.program := rfl

/-! ### cacheWrite_state -/

@[simp] theorem State.cacheWrite_state_regs (i : Nat) (w : Word) :
    ((s.cacheWrite i w).2).regs = s.regs := rfl

@[simp] theorem State.cacheWrite_state_pc (i : Nat) (w : Word) :
    ((s.cacheWrite i w).2).pc = s.pc := rfl

@[simp] theorem State.cacheWrite_state_run (i : Nat) (w : Word) :
    ((s.cacheWrite i w).2).run = s.run := rfl

@[simp] theorem State.cacheWrite_state_mem (i : Nat) (w : Word) :
    ((s.cacheWrite i w).2).mem = s.mem.writeWord i w := rfl

@[simp] theorem State.cacheWrite_state_cache (i : Nat) (w : Word) :
    ((s.cacheWrite i w).2).cache = s.cacheAfterWrite i w := rfl

@[simp] theorem State.cacheWrite_state_log (i : Nat) (w : Word) :
    ((s.cacheWrite i w).2).log = s.log := rfl

@[simp] theorem State.cacheWrite_state_params (i : Nat) (w : Word) :
    ((s.cacheWrite i w).2).params = s.params := rfl

@[simp] theorem State.cacheWrite_state_program (i : Nat) (w : Word) :
    ((s.cacheWrite i w).2).program = s.program := rfl

/-! ### What the updates leave of the registers -/

theorem State.readReg_congr {s t : State} (h : t.regs = s.regs) (r : Reg) : t.readReg r = s.readReg r := by
  unfold State.readReg; rw [h]

@[simp] theorem State.readReg_zero : s.readReg 0 = 0#32 := rfl

@[simp] theorem State.readReg_emit (a : Action) (r : Reg) : (s.emit a).readReg r = s.readReg r := rfl

@[simp] theorem State.readReg_logReads (sources : List Reg) (r : Reg) :
    (s.logReads sources).readReg r = s.readReg r := rfl

@[simp] theorem State.readReg_haltWith (kind : FaultKind) (r : Reg) :
    (s.haltWith kind).readReg r = s.readReg r := rfl

@[simp] theorem State.readReg_retireTo (latency npc : Nat) (r : Reg) :
    (s.retireTo latency npc).readReg r = s.readReg r := rfl

@[simp] theorem State.readReg_cacheRead (i : Nat) (r : Reg) :
    (s.cacheRead i).2.2.readReg r = s.readReg r := rfl

@[simp] theorem State.readReg_cacheWrite (i : Nat) (w : Word) (r : Reg) :
    (s.cacheWrite i w).2.readReg r = s.readReg r := rfl

/-- A register write is seen at that register, unless it is X0, and nowhere else (10_state.md R16, R18). -/
@[simp] theorem State.readReg_writeReg (rd : Reg) (v : Word) (r : Reg) :
    (s.writeReg rd v).readReg r = if r = rd ∧ r ≠ 0 then v else s.readReg r := by
  unfold State.readReg
  by_cases hr : r = 0
  · simp [hr]
  · by_cases hrd : rd = 0
    · have : ¬r = rd := fun h => hr (h.trans hrd)
      simp [hr, hrd]
    · by_cases h : r = rd
      · subst h; simp [hr]
      · have hv : rd.val ≠ r.val := fun hh => h (Fin.ext hh.symm)
        simp [hr, hrd, h, Vector.getElem_set_ne, hv]

@[simp] theorem State.readReg_writeDest (rd : Reg) (v : Word) (r : Reg) :
    (s.writeDest rd v).readReg r = if r = rd ∧ r ≠ 0 then v else s.readReg r :=
  State.readReg_writeReg s rd v r

/-- Writing back the value a register held undoes a write to it (41_dispatch.md R115, R118). -/
theorem State.writeReg_undo (rd : Reg) (v : Word) :
    ((s.writeReg rd v).writeReg rd (s.readReg rd)).regs = s.regs := by
  by_cases h : rd = 0
  · simp [h]
  · simp [h, State.readReg]

end Sys2Proof.Machine
end

