-- ==== Sys2Proof/Laws/Ops.lean ====
section
/-! SUPPORT. What each shared operation can do: replaced bits, the access check, the access primitives, the cache,
the end of a step. Later proofs cite these and do not unfold the operations. -/

namespace Sys2Proof.Machine

/-! ## Replaced bits (20_memory.md R52) -/

theorem getLsbD_replaceBits {m : Nat} (w : Word) (lo : Nat) (v : BitVec m) (hfit : lo + m ≤ 32) (j : Nat) (hj : j < 32) :
    (replaceBits w lo v).getLsbD j = if lo ≤ j ∧ j < lo + m then v.getLsbD (j - lo) else w.getLsbD j := by
  unfold replaceBits
  simp only [BitVec.getLsbD_or, BitVec.getLsbD_and, BitVec.getLsbD_not, BitVec.getLsbD_shiftLeft,
    BitVec.getLsbD_setWidth, BitVec.getLsbD_allOnes]
  by_cases h1 : lo ≤ j
  · by_cases h2 : j < lo + m
    · have a1 : ¬j < lo := by omega
      have a2 : j - lo < m := by omega
      have a3 : j - lo < 32 := by omega
      simp [h1, h2, hj, a1, a2, a3]
    · have a1 : ¬j < lo := by omega
      have a2 : ¬j - lo < m := by omega
      have a3 : v.getLsbD (j - lo) = false := BitVec.getLsbD_of_ge _ _ (by omega)
      simp [h2, hj, a1, a2, a3]
  · have a1 : j < lo := by omega
    simp [h1, hj, a1]

/-- The replaced bits read back. -/
theorem extractLsb'_replaceBits_self {m : Nat} (w : Word) (lo : Nat) (v : BitVec m) (hfit : lo + m ≤ 32) :
    (replaceBits w lo v).extractLsb' lo m = v := by
  ext j hj
  rw [BitVec.getElem_extractLsb', getLsbD_replaceBits w lo v hfit _ (by omega)]
  have : lo + j < lo + m := by omega
  simp [hj, BitVec.getLsbD_eq_getElem]

/-- Bits outside the replaced ones stay. -/
theorem extractLsb'_replaceBits_ne {m : Nat} (w : Word) (lo : Nat) (v : BitVec m) (hfit : lo + m ≤ 32) (lo' m' : Nat)
    (hfit' : lo' + m' ≤ 32) (h : lo' + m' ≤ lo ∨ lo + m ≤ lo') :
    (replaceBits w lo v).extractLsb' lo' m' = w.extractLsb' lo' m' := by
  ext j hj
  rw [BitVec.getElem_extractLsb', BitVec.getElem_extractLsb', getLsbD_replaceBits w lo v hfit _ (by omega)]
  have : ¬(lo ≤ lo' + j ∧ lo' + j < lo + m) := by omega
  simp [this]

/-- Putting the old bits back restores the word. -/
theorem replaceBits_undo {m : Nat} (w : Word) (lo : Nat) (v : BitVec m) (hfit : lo + m ≤ 32) :
    replaceBits (replaceBits w lo v) lo (w.extractLsb' lo m) = w := by
  apply BitVec.eq_of_getLsbD_eq
  intro j hj
  rw [getLsbD_replaceBits _ _ _ hfit _ hj, getLsbD_replaceBits _ _ _ hfit _ hj]
  by_cases h : lo ≤ j ∧ j < lo + m
  · have a1 : j - lo < m := by omega
    simp only [h, and_self, if_true, BitVec.getLsbD_extractLsb', a1, decide_true, Bool.true_and]
    rw [show lo + (j - lo) = j by omega]
  · simp [h]

/-- The bytes of a read-modify-write: `n` bytes from lane `lo` on become those of `v`, every other byte of memory
stays (20_memory.md R52). -/
theorem readByte_replaced {m : Memory} (hm : m.wf = true) (i lo : Nat) {n : Nat} (v : BitVec (8 * n)) (hfit : lo + n ≤ 4) :
    (∀ k, k < n →
      (m.writeWord i (replaceBits (m.readWord i) (8 * lo) v)).readByte (4 * i + lo + k) = v.extractLsb' (8 * k) 8) ∧
    ∀ a, (a < 4 * i + lo ∨ 4 * i + lo + n ≤ a) →
      (m.writeWord i (replaceBits (m.readWord i) (8 * lo) v)).readByte a = m.readByte a := by
  refine ⟨fun k hk => ?_, fun a ha => ?_⟩
  · rw [Nat.add_assoc, Memory.readByte_writeWord_lane i _ hm (by omega)]
    apply BitVec.eq_of_getLsbD_eq
    intro j hj
    rw [BitVec.getLsbD_extractLsb', BitVec.getLsbD_extractLsb', getLsbD_replaceBits _ _ _ (by omega) _ (by omega),
      if_pos (by omega)]
    congr 2; omega
  · by_cases h : a / 4 = i
    · have e : a = 4 * i + a % 4 := by omega
      have hk : a % 4 < 4 := by omega
      rw [e, Memory.readByte_writeWord_lane i _ hm hk, ← Memory.extractLsb'_readWord _ _ hk]
      exact extractLsb'_replaceBits_ne _ _ _ (by omega) _ _ (by omega) (by omega)
    · exact Memory.readByte_writeWord_ne _ _ _ h

theorem asByte_eq (v : Word) : asByte v = v.extractLsb' 0 8 := by ext j hj; simp [asByte, valueConvert]

theorem asHalfWord_eq (v : Word) : asHalfWord v = v.extractLsb' 0 16 := by ext j hj; simp [asHalfWord, valueConvert]

/-! ## The access check (20_memory.md R49) -/

theorem checkAccess_eq_none {p : Params} {addr : Word} {n : Width} :
    checkAccess p addr n = none ↔ ¬(n = .half ∧ addr.toNat % 2 = 1) ∧ addr.toNat / 4 < p.memWords := by
  unfold checkAccess wordIndex
  split
  · simp_all
  · split
    · simp_all
    · simp_all

theorem checkAccess_eq_some {p : Params} {addr : Word} {n : Width} {kind : FaultKind} :
    checkAccess p addr n = some kind ↔
      if n = .half ∧ addr.toNat % 2 = 1 then kind = .alignmentFault
      else kind = .invalidAddress ∧ p.memWords ≤ addr.toNat / 4 := by
  unfold checkAccess wordIndex
  split
  · simp [eq_comm]
  · split
    · simp_all [eq_comm]
    · simp_all

theorem checkAccess_congr {p q : Params} (h : p.memWords = q.memWords) (addr : Word) (n : Width) :
    checkAccess p addr n = checkAccess q addr n := by unfold checkAccess; rw [h]

/-- A checked access lies in its word. -/
theorem laneBit_fits {p : Params} {addr : Word} {n : Width} (h : checkAccess p addr n = none) :
    laneBit addr n + n.bits ≤ 32 := by
  rw [checkAccess_eq_none] at h
  cases n with
  | byte => simp only [laneBit, Width.bits]; omega
  | half =>
    have : addr.toNat % 2 ≠ 1 := fun e => h.1 ⟨rfl, e⟩
    simp only [laneBit, Width.bits]; omega
  | word => simp [laneBit, Width.bits]

/-! ## Access primitives (20_memory.md R51, R52) -/

/-- `MemRead`: the check's fault, or the addressed bits of the word, with the cache read's latency and state. -/
theorem memRead_eq (s : State) (addr : Word) (n : Width) :
    s.memRead addr n = match checkAccess s.params addr n with
      | some kind => .error kind
      | none => .ok ((s.mem.readWord (wordIndex addr)).extractLsb' (laneBit addr n) n.bits,
          s.readLatency (wordIndex addr), { s with cache := s.cacheAfterRead (wordIndex addr) }) := rfl

/-- The word a store leaves in the enclosing word's place. -/
def storedWord (s : State) (addr : Word) (n : Width) (v : BitVec n.bits) : Word :=
  replaceBits (s.mem.readWord (wordIndex addr)) (laneBit addr n) v

theorem replaceBits_word (w v : Word) : replaceBits w 0 v = v := by
  apply BitVec.eq_of_getLsbD_eq
  intro j hj
  rw [getLsbD_replaceBits _ _ _ (by omega) _ hj]
  simp [hj]

/-- The state a store's cache write starts from: a sub-word store has read the enclosing word first. -/
def storeBase (s : State) (addr : Word) (n : Width) : State :=
  match n with
  | .word => s
  | _ => (s.cacheRead (wordIndex addr)).2.2

/-- The latency of a store: that of the read of its read-modify-write (20_memory.md R60). -/
def storeLatency (s : State) (addr : Word) (n : Width) : Nat :=
  match n with
  | .word => 0
  | _ => s.readLatency (wordIndex addr)

/-- `MemWrite`: the check's fault, or the overwritten bits, the latency, and memory with the stored word. -/
theorem memWrite_eq (s : State) (addr : Word) (n : Width) (v : BitVec n.bits) :
    s.memWrite addr n v = match checkAccess s.params addr n with
      | some kind => .error kind
      | none => .ok ((s.mem.readWord (wordIndex addr)).extractLsb' (laneBit addr n) n.bits, storeLatency s addr n,
          { s with
            cache := (storeBase s addr n).cacheAfterWrite (wordIndex addr) (storedWord s addr n v)
            mem := s.mem.writeWord (wordIndex addr) (storedWord s addr n v) }) := by
  unfold State.memWrite
  cases checkAccess s.params addr n with
  | some kind => rfl
  | none =>
    cases n with
    | byte => rfl
    | half => rfl
    | word =>
      have h0 : laneBit addr .word = 0 := rfl
      have h : storedWord s addr .word v = v := replaceBits_word _ _
      have h2 : (s.mem.readWord (wordIndex addr)).extractLsb' 0 32 = s.mem.readWord (wordIndex addr) :=
        BitVec.extractLsb'_eq_self
      simp only [h, h0, storeLatency, storeBase, State.cacheWrite, Width.bits, h2]

/-- `Restore` after the same store puts the old word back in memory (41_dispatch.md R115). -/
theorem storedWord_undo {p : Params} (s : State) (addr : Word) (n : Width) (v : BitVec n.bits)
    (h : checkAccess p addr n = none) :
    replaceBits (storedWord s addr n v) (laneBit addr n)
      ((s.mem.readWord (wordIndex addr)).extractLsb' (laneBit addr n) n.bits) = s.mem.readWord (wordIndex addr) :=
  replaceBits_undo _ _ _ (laneBit_fits h)

/-! ## The end of a step (41_dispatch.md R108 to R110) -/

theorem tailEntries_zero (pcBefore pcAfter : Nat) : tailEntries 0 pcBefore pcAfter = [.jump pcBefore pcAfter] := rfl

theorem tailEntries_pos {latency : Nat} (h : 0 < latency) (pcBefore pcAfter : Nat) :
    tailEntries latency pcBefore pcAfter = [.stall latency, .jump pcBefore pcAfter] := by simp [tailEntries, h]

end Sys2Proof.Machine
end

