-- ==== Sys2Proof/Laws/Cache.lean ====
section
/-! SUPPORT. The cache: hits and residence, and that reads and writes through it keep `MemoryInv` (20_memory.md
R59). -/

namespace Sys2Proof.Machine

theorem residentLine_eq_some {s : State} {i : Nat} {line : CacheLine} :
    s.residentLine i = some line ↔
      s.cache[setOf s.params i]? = some (some line) ∧ line.tag = tagOf s.params i := by
  unfold State.residentLine
  split
  · rename_i l h
    split
    · rename_i ht
      simp only [h, Option.some.injEq]
      constructor
      · rintro rfl; exact ⟨rfl, ht⟩
      · exact fun e => e.1
    · rename_i ht
      simp only [h, Option.some.injEq, reduceCtorEq, false_iff, not_and]
      rintro rfl
      exact ht
  · rename_i h
    simp only [reduceCtorEq, false_iff, not_and]
    intro hc
    exact absurd hc (h line)

theorem resident_iff {s : State} {i : Nat} : Resident s i ↔ ∃ line, s.residentLine i = some line := by
  simp only [residentLine_eq_some]; rfl

theorem not_resident_iff {s : State} {i : Nat} : ¬Resident s i ↔ s.residentLine i = none := by
  rw [resident_iff]
  cases s.residentLine i <;> simp

theorem readLatency_hit {s : State} {i : Nat} (h : Resident s i) : s.readLatency i = 0 := by
  obtain ⟨line, h⟩ := resident_iff.1 h
  simp [State.readLatency, h]

theorem readLatency_miss {s : State} {i : Nat} (h : ¬Resident s i) : s.readLatency i = s.params.fillLatency := by
  rw [not_resident_iff] at h
  simp [State.readLatency, h]

theorem cacheAfterRead_hit {s : State} {i : Nat} (h : Resident s i) : s.cacheAfterRead i = s.cache := by
  obtain ⟨line, h⟩ := resident_iff.1 h
  simp [State.cacheAfterRead, h]

theorem cacheAfterRead_miss {s : State} {i : Nat} (h : ¬Resident s i) :
    s.cacheAfterRead i =
      s.cache.set (setOf s.params i) (some ⟨tagOf s.params i, s.blockData (blockOf s.params i)⟩) := by
  rw [not_resident_iff] at h
  simp [State.cacheAfterRead, h]

@[simp] theorem cacheAfterRead_length (s : State) (i : Nat) : (s.cacheAfterRead i).length = s.cache.length := by
  unfold State.cacheAfterRead; split <;> simp

@[simp] theorem cacheAfterWrite_length (s : State) (i : Nat) (w : Word) :
    (s.cacheAfterWrite i w).length = s.cache.length := by
  unfold State.cacheAfterWrite; split <;> simp

/-- The words a fill fetches (R56): those of the block that exist. -/
theorem blockData_getElem? (s : State) (b : Nat) {j : Nat} (h1 : j < s.params.blockWords)
    (h2 : b * s.params.blockWords + j < s.params.memWords) :
    (s.blockData b)[j]? = some (s.mem.readWord (b * s.params.blockWords + j)) := by
  unfold State.blockData
  have : j < min s.params.blockWords (s.params.memWords - b * s.params.blockWords) := by omega
  simp [this]

/-- Block, set and tag of a word determine one another (R55). -/
theorem tag_mul_add_set (p : Params) (i : Nat) : tagOf p i * p.cacheSets + setOf p i = blockOf p i := by
  unfold tagOf setOf
  rw [Nat.mul_comm]
  exact Nat.div_add_mod _ _

theorem setOf_lt {p : Params} (h : p.WellFormed) (i : Nat) : setOf p i < p.cacheSets := Nat.mod_lt _ h.1

/-- The word at offset `j` of block `tag * CACHE_SETS + set` is word `i` only if the three are `i`'s. -/
theorem word_of_block {p : Params} (hp : p.WellFormed) {tag set j i : Nat} (hs : set < p.cacheSets)
    (hj : j < p.blockWords) (h : (tag * p.cacheSets + set) * p.blockWords + j = i) :
    tag = tagOf p i ∧ set = setOf p i ∧ j = i % p.blockWords := by
  have hB : 0 < p.blockWords := hp.2
  have hS : 0 < p.cacheSets := hp.1
  have hb : i / p.blockWords = tag * p.cacheSets + set := by
    rw [← h, Nat.add_comm, Nat.add_mul_div_right _ _ hB, Nat.div_eq_of_lt hj, Nat.zero_add]
  have hm : i % p.blockWords = j := by
    rw [← h, Nat.add_comm, Nat.add_mul_mod_self_right, Nat.mod_eq_of_lt hj]
  refine ⟨?_, ?_, hm.symm⟩
  · unfold tagOf blockOf
    rw [hb, Nat.add_comm, Nat.add_mul_div_right _ _ hS, Nat.div_eq_of_lt hs, Nat.zero_add]
  · unfold setOf blockOf
    rw [hb, Nat.add_comm, Nat.add_mul_mod_self_right, Nat.mod_eq_of_lt hs]

/-- The memory part of a state, as `MemoryInv` sees it. -/
theorem MemoryInv.congr {s t : State} (hp : t.params = s.params) (hm : t.mem = s.mem) (hc : t.cache = s.cache)
    (h : MemoryInv s) : MemoryInv t := by
  obtain ⟨h1, h2, h3, h4, h5⟩ := h
  constructor
  · rw [hp]; exact h1
  · rw [hm]; exact h2
  · rw [hm, hp]; exact h3
  · rw [hc, hp]; exact h4
  · rw [hc, hp, hm]; exact h5

/-- A read through the cache keeps the invariant. -/
theorem MemoryInv.cacheRead {s : State} (h : MemoryInv s) (i : Nat) : MemoryInv (s.cacheRead i).2.2 := by
  refine ⟨h.params, h.canonical, h.bounded, by simpa using h.sets, ?_⟩
  intro set line hline j hj hb
  by_cases hr : Resident s i
  · refine h.coherent set line ?_ j hj hb
    simpa [cacheAfterRead_hit hr] using hline
  · simp only [State.cacheRead_state_cache, cacheAfterRead_miss hr, List.getElem?_set] at hline
    split at hline
    · rename_i hset
      split at hline
      · simp only [Option.some.injEq] at hline
        subst hline hset
        simp only [State.cacheRead_state_params, State.cacheRead_state_mem, tag_mul_add_set] at hb ⊢
        exact blockData_getElem? s _ hj hb
      · simp at hline
    · exact h.coherent set line hline j hj hb

/-- A write through the cache keeps the invariant (R57, R59). -/
theorem MemoryInv.cacheWrite {s : State} (h : MemoryInv s) (i : Nat) (w : Word) (hi : i < s.params.memWords) :
    MemoryInv (s.cacheWrite i w).2 := by
  have hold : ∀ (set : Nat) (line : CacheLine), set < s.params.cacheSets →
      s.cache[set]? = some (some line) →
      (set ≠ setOf s.params i ∨ line.tag ≠ tagOf s.params i) →
      ∀ j, j < s.params.blockWords →
        (line.tag * s.params.cacheSets + set) * s.params.blockWords + j < s.params.memWords →
        line.data[j]? = some ((s.mem.writeWord i w).readWord
          ((line.tag * s.params.cacheSets + set) * s.params.blockWords + j)) := by
    intro set line hset hline hne j hj hb
    rw [h.coherent set line hline j hj hb, Memory.readWord_writeWord _ _ _ h.canonical, if_neg]
    intro e
    have := word_of_block h.params hset hj e
    rcases hne with hne | hne
    · exact hne this.2.1
    · exact hne this.1
  refine ⟨h.params, Memory.wf_writeWord _ _ h.canonical, ?_, by simpa using h.sets, ?_⟩
  · intro c hc
    rcases Memory.mem_writeWord hc with hc | hc
    · simp only [State.cacheWrite_state_params]; omega
    · exact h.bounded c hc
  · intro set line hline j hj hb
    simp only [State.cacheWrite_state_params, State.cacheWrite_state_mem, State.cacheWrite_state_cache] at *
    unfold State.cacheAfterWrite at hline
    split at hline
    · rename_i old hold'
      obtain ⟨hc, ht⟩ := residentLine_eq_some.1 hold'
      rw [List.getElem?_set] at hline
      split at hline
      · rename_i hset
        split at hline
        · simp only [Option.some.injEq] at hline
          subst hline hset
          simp only [ht, tag_mul_add_set] at hb ⊢
          have hb' : blockOf s.params i * s.params.blockWords + j < s.params.memWords := hb
          have hcoh := h.coherent _ _ hc j hj (by rw [ht, tag_mul_add_set]; exact hb')
          rw [ht, tag_mul_add_set] at hcoh
          rw [Memory.readWord_writeWord _ _ _ h.canonical, List.getElem?_set]
          have hmod : i % s.params.blockWords = j ↔ blockOf s.params i * s.params.blockWords + j = i := by
            have := Nat.div_add_mod i s.params.blockWords
            have hB : 0 < s.params.blockWords := h.params.2
            unfold blockOf
            rw [Nat.mul_comm] at this
            constructor
            · intro e; omega
            · intro e; omega
          have hlen : j < old.data.length := by
            rw [List.getElem?_eq_some_iff] at hcoh; exact hcoh.1
          by_cases e : i % s.params.blockWords = j
          · simp [e, hmod.1 e, hlen]
          · simp only [e, if_false, if_neg (fun h' => e (hmod.2 h'))]
            exact hcoh
        · simp at hline
      · rename_i hset
        have hlt : set < s.params.cacheSets := by
          rw [List.getElem?_eq_some_iff] at hline; rw [← h.sets]; exact hline.1
        exact hold set line hlt hline (.inl fun e => hset e.symm) j hj hb
    · rename_i hnone
      have hlt : set < s.params.cacheSets := by
        rw [List.getElem?_eq_some_iff] at hline; rw [← h.sets]; exact hline.1
      refine hold set line hlt hline ?_ j hj hb
      by_cases e : set = setOf s.params i
      · right
        intro ht
        subst e
        exact (not_resident_iff.2 hnone) ⟨line, hline, ht⟩
      · exact .inl e

/-- A write through the cache changes no tag and no valid bit (R57, 41_dispatch.md R117). -/
theorem cacheAfterWrite_tags (s : State) (i : Nat) (w : Word) :
    (s.cacheAfterWrite i w).map (fun line => line.map CacheLine.tag) = s.lineTags := by
  unfold State.cacheAfterWrite State.lineTags
  split
  · rename_i line h
    obtain ⟨hc, -⟩ := residentLine_eq_some.1 h
    rw [List.map_set]
    apply List.ext_getElem?
    intro j
    rw [List.getElem?_set]
    split
    · rename_i hj
      subst hj
      rw [List.getElem?_map, hc]
      have : setOf s.params i < s.cache.length := by
        rw [List.getElem?_eq_some_iff] at hc; exact hc.1
      simp [this]
    · rfl
  · rfl

/-- Residence depends on the tags alone. -/
theorem resident_iff_lineTags {s : State} {i : Nat} :
    Resident s i ↔ s.lineTags[setOf s.params i]? = some (some (tagOf s.params i)) := by
  unfold Resident State.lineTags
  rw [List.getElem?_map]
  constructor
  · rintro ⟨line, h, ht⟩
    have h' : s.cache[setOf s.params i]? = some (some line) := h
    rw [h']
    exact congrArg (fun x => some (some x)) ht
  · intro h
    cases hc : s.cache[setOf s.params i]? with
    | none => simp [hc] at h
    | some o =>
      cases o with
      | none => simp [hc] at h
      | some line =>
        simp only [hc, Option.map_some, Option.some.injEq] at h
        exact ⟨line, hc, h⟩

end Sys2Proof.Machine
end

