-- ==== Sys2Proof/Laws/Decode.lean ====
section
/-! SUPPORT. The fields of an encoded word, format by format (30_encoding.md R71 to R77): each bit of the word, each
field read back, and the word under its row's mask. -/

namespace Sys2Proof

/-! ## Register and number fields -/

@[simp] theorem regOfBits_regBits (r : Reg) : regOfBits (regBits r) = r := by
  unfold regOfBits regBits
  apply Fin.ext
  simp

@[simp] theorem regBits_regOfBits (b : BitVec 5) : regBits (regOfBits b) = b := by
  unfold regOfBits regBits
  apply BitVec.eq_of_toNat_eq
  simp

theorem toInt_ofInt_12 {v : Int} (h : fitsSigned12 v = true) : (BitVec.ofInt 12 v).toInt = v := by
  simp only [fitsSigned12, Bool.and_eq_true, decide_eq_true_eq] at h
  rw [BitVec.toInt_ofInt, Int.bmod_def]
  omega

theorem toInt_ofInt_20 {v : Int} (h : fitsSigned20 v = true) : (BitVec.ofInt 20 v).toInt = v := by
  simp only [fitsSigned20, Bool.and_eq_true, decide_eq_true_eq] at h
  rw [BitVec.toInt_ofInt, Int.bmod_def]
  omega

theorem toNat_ofNat_5 {v : Nat} (h : fitsShamt v = true) : (BitVec.ofNat 5 v).toNat = v := by
  simp only [fitsShamt, decide_eq_true_eq] at h
  rw [BitVec.toNat_ofNat]; omega

theorem toNat_ofNat_20 {v : Nat} (h : fitsUnsigned20 v = true) : (BitVec.ofNat 20 v).toNat = v := by
  simp only [fitsUnsigned20, decide_eq_true_eq] at h
  rw [BitVec.toNat_ofNat]; omega

/-! ## Each bit of an encoded word -/

theorem getLsbD_encodeR (f7 : BitVec 7) (rs2 rs1 : Reg) (f3 : BitVec 3) (rd : Reg) (op : BitVec 7) (j : Nat) :
    (encodeR f7 rs2 rs1 f3 rd op).getLsbD j =
      if j < 7 then op.getLsbD j
      else if j < 12 then (regBits rd).getLsbD (j - 7)
      else if j < 15 then f3.getLsbD (j - 12)
      else if j < 20 then (regBits rs1).getLsbD (j - 15)
      else if j < 25 then (regBits rs2).getLsbD (j - 20)
      else f7.getLsbD (j - 25) := by
  have h : (encodeR f7 rs2 rs1 f3 rd op).getLsbD j =
    (f7 ++ regBits rs2 ++ regBits rs1 ++ f3 ++ regBits rd ++ op : BitVec (7 + 5 + 5 + 3 + 5 + 7)).getLsbD j := rfl
  rw [h]
  simp only [BitVec.getLsbD_append]
  grind

theorem getLsbD_encodeI (imm : Int) (rs1 : Reg) (f3 : BitVec 3) (rd : Reg) (op : BitVec 7) (j : Nat) :
    (encodeI imm rs1 f3 rd op).getLsbD j =
      if j < 7 then op.getLsbD j
      else if j < 12 then (regBits rd).getLsbD (j - 7)
      else if j < 15 then f3.getLsbD (j - 12)
      else if j < 20 then (regBits rs1).getLsbD (j - 15)
      else (BitVec.ofInt 12 imm).getLsbD (j - 20) := by
  have h : (encodeI imm rs1 f3 rd op).getLsbD j =
    (BitVec.ofInt 12 imm ++ regBits rs1 ++ f3 ++ regBits rd ++ op : BitVec (12 + 5 + 3 + 5 + 7)).getLsbD j := rfl
  rw [h]
  simp only [BitVec.getLsbD_append]
  grind

theorem getLsbD_encodeShift (f7 : BitVec 7) (shamt : Nat) (rs1 : Reg) (f3 : BitVec 3) (rd : Reg) (j : Nat) :
    (encodeShift f7 shamt rs1 f3 rd).getLsbD j =
      if j < 7 then (0x13#7).getLsbD j
      else if j < 12 then (regBits rd).getLsbD (j - 7)
      else if j < 15 then f3.getLsbD (j - 12)
      else if j < 20 then (regBits rs1).getLsbD (j - 15)
      else if j < 25 then (BitVec.ofNat 5 shamt).getLsbD (j - 20)
      else f7.getLsbD (j - 25) := by
  have h : (encodeShift f7 shamt rs1 f3 rd).getLsbD j =
    (f7 ++ BitVec.ofNat 5 shamt ++ regBits rs1 ++ f3 ++ regBits rd ++ 0x13#7 : BitVec (7 + 5 + 5 + 3 + 5 + 7)).getLsbD j := rfl
  rw [h]
  simp only [BitVec.getLsbD_append]
  grind

theorem getLsbD_encodeS (imm : Int) (rs2 rs1 : Reg) (f3 : BitVec 3) (j : Nat) :
    (encodeS imm rs2 rs1 f3).getLsbD j =
      if j < 7 then (0x23#7).getLsbD j
      else if j < 12 then ((BitVec.ofInt 12 imm).extractLsb' 0 5).getLsbD (j - 7)
      else if j < 15 then f3.getLsbD (j - 12)
      else if j < 20 then (regBits rs1).getLsbD (j - 15)
      else if j < 25 then (regBits rs2).getLsbD (j - 20)
      else ((BitVec.ofInt 12 imm).extractLsb' 5 7).getLsbD (j - 25) := by
  have h : (encodeS imm rs2 rs1 f3).getLsbD j =
    ((BitVec.ofInt 12 imm).extractLsb' 5 7 ++ regBits rs2 ++ regBits rs1 ++ f3 ++ (BitVec.ofInt 12 imm).extractLsb' 0 5 ++ 0x23#7 : BitVec (7 + 5 + 5 + 3 + 5 + 7)).getLsbD j := rfl
  rw [h]
  simp only [BitVec.getLsbD_append]
  grind

theorem getLsbD_encodeSB (o : Int) (rs2 rs1 : Reg) (f3 : BitVec 3) (j : Nat) :
    (encodeSB o rs2 rs1 f3).getLsbD j =
      if j < 7 then (0x63#7).getLsbD j
      else if j < 8 then ((BitVec.ofInt 12 o).extractLsb' 10 1).getLsbD (j - 7)
      else if j < 12 then ((BitVec.ofInt 12 o).extractLsb' 0 4).getLsbD (j - 8)
      else if j < 15 then f3.getLsbD (j - 12)
      else if j < 20 then (regBits rs1).getLsbD (j - 15)
      else if j < 25 then (regBits rs2).getLsbD (j - 20)
      else if j < 31 then ((BitVec.ofInt 12 o).extractLsb' 4 6).getLsbD (j - 25)
      else ((BitVec.ofInt 12 o).extractLsb' 11 1).getLsbD (j - 31) := by
  have h : (encodeSB o rs2 rs1 f3).getLsbD j =
    ((BitVec.ofInt 12 o).extractLsb' 11 1 ++ (BitVec.ofInt 12 o).extractLsb' 4 6 ++ regBits rs2 ++ regBits rs1 ++ f3 ++ (BitVec.ofInt 12 o).extractLsb' 0 4 ++ (BitVec.ofInt 12 o).extractLsb' 10 1 ++ 0x63#7 : BitVec (1 + 6 + 5 + 5 + 3 + 4 + 1 + 7)).getLsbD j := rfl
  rw [h]
  simp only [BitVec.getLsbD_append]
  grind

theorem getLsbD_encodeU (imm20 : Nat) (rd : Reg) (op : BitVec 7) (j : Nat) :
    (encodeU imm20 rd op).getLsbD j =
      if j < 7 then op.getLsbD j
      else if j < 12 then (regBits rd).getLsbD (j - 7)
      else (BitVec.ofNat 20 imm20).getLsbD (j - 12) := by
  have h : (encodeU imm20 rd op).getLsbD j =
    (BitVec.ofNat 20 imm20 ++ regBits rd ++ op : BitVec (20 + 5 + 7)).getLsbD j := rfl
  rw [h]
  simp only [BitVec.getLsbD_append]
  grind

theorem getLsbD_encodeUJ (o : Int) (rd : Reg) (j : Nat) :
    (encodeUJ o rd).getLsbD j =
      if j < 7 then (0x6F#7).getLsbD j
      else if j < 12 then (regBits rd).getLsbD (j - 7)
      else if j < 20 then ((BitVec.ofInt 20 o).extractLsb' 11 8).getLsbD (j - 12)
      else if j < 21 then ((BitVec.ofInt 20 o).extractLsb' 10 1).getLsbD (j - 20)
      else if j < 31 then ((BitVec.ofInt 20 o).extractLsb' 0 10).getLsbD (j - 21)
      else ((BitVec.ofInt 20 o).extractLsb' 19 1).getLsbD (j - 31) := by
  have h : (encodeUJ o rd).getLsbD j =
    ((BitVec.ofInt 20 o).extractLsb' 19 1 ++ (BitVec.ofInt 20 o).extractLsb' 0 10 ++ (BitVec.ofInt 20 o).extractLsb' 10 1 ++ (BitVec.ofInt 20 o).extractLsb' 11 8 ++ regBits rd ++ 0x6F#7 : BitVec (1 + 10 + 1 + 8 + 5 + 7)).getLsbD j := rfl
  rw [h]
  simp only [BitVec.getLsbD_append]
  grind

/-! ## Each field of an encoded word -/

@[simp] theorem opcodeOf_encodeR (f7 : BitVec 7) (rs2 rs1 : Reg) (f3 : BitVec 3) (rd : Reg) (op : BitVec 7) :
    opcodeOf (encodeR f7 rs2 rs1 f3 rd op) = op := by
  unfold opcodeOf
  apply BitVec.eq_of_getLsbD_eq
  intro j hj
  rw [BitVec.getLsbD_extractLsb', getLsbD_encodeR]
  grind

@[simp] theorem rdOf_encodeR (f7 : BitVec 7) (rs2 rs1 : Reg) (f3 : BitVec 3) (rd : Reg) (op : BitVec 7) :
    rdOf (encodeR f7 rs2 rs1 f3 rd op) = rd := by
  have h : (encodeR f7 rs2 rs1 f3 rd op).extractLsb' 7 5 = regBits rd := by
    apply BitVec.eq_of_getLsbD_eq
    intro j hj
    rw [BitVec.getLsbD_extractLsb', getLsbD_encodeR]
    grind
  unfold rdOf
  rw [h, regOfBits_regBits]

@[simp] theorem funct3Of_encodeR (f7 : BitVec 7) (rs2 rs1 : Reg) (f3 : BitVec 3) (rd : Reg) (op : BitVec 7) :
    funct3Of (encodeR f7 rs2 rs1 f3 rd op) = f3 := by
  unfold funct3Of
  apply BitVec.eq_of_getLsbD_eq
  intro j hj
  rw [BitVec.getLsbD_extractLsb', getLsbD_encodeR]
  grind

@[simp] theorem rs1Of_encodeR (f7 : BitVec 7) (rs2 rs1 : Reg) (f3 : BitVec 3) (rd : Reg) (op : BitVec 7) :
    rs1Of (encodeR f7 rs2 rs1 f3 rd op) = rs1 := by
  have h : (encodeR f7 rs2 rs1 f3 rd op).extractLsb' 15 5 = regBits rs1 := by
    apply BitVec.eq_of_getLsbD_eq
    intro j hj
    rw [BitVec.getLsbD_extractLsb', getLsbD_encodeR]
    grind
  unfold rs1Of
  rw [h, regOfBits_regBits]

@[simp] theorem rs2Of_encodeR (f7 : BitVec 7) (rs2 rs1 : Reg) (f3 : BitVec 3) (rd : Reg) (op : BitVec 7) :
    rs2Of (encodeR f7 rs2 rs1 f3 rd op) = rs2 := by
  have h : (encodeR f7 rs2 rs1 f3 rd op).extractLsb' 20 5 = regBits rs2 := by
    apply BitVec.eq_of_getLsbD_eq
    intro j hj
    rw [BitVec.getLsbD_extractLsb', getLsbD_encodeR]
    grind
  unfold rs2Of
  rw [h, regOfBits_regBits]

@[simp] theorem funct7Of_encodeR (f7 : BitVec 7) (rs2 rs1 : Reg) (f3 : BitVec 3) (rd : Reg) (op : BitVec 7) :
    funct7Of (encodeR f7 rs2 rs1 f3 rd op) = f7 := by
  unfold funct7Of
  apply BitVec.eq_of_getLsbD_eq
  intro j hj
  rw [BitVec.getLsbD_extractLsb', getLsbD_encodeR]
  grind

@[simp] theorem opcodeOf_encodeI (imm : Int) (rs1 : Reg) (f3 : BitVec 3) (rd : Reg) (op : BitVec 7) :
    opcodeOf (encodeI imm rs1 f3 rd op) = op := by
  unfold opcodeOf
  apply BitVec.eq_of_getLsbD_eq
  intro j hj
  rw [BitVec.getLsbD_extractLsb', getLsbD_encodeI]
  grind

@[simp] theorem rdOf_encodeI (imm : Int) (rs1 : Reg) (f3 : BitVec 3) (rd : Reg) (op : BitVec 7) :
    rdOf (encodeI imm rs1 f3 rd op) = rd := by
  have h : (encodeI imm rs1 f3 rd op).extractLsb' 7 5 = regBits rd := by
    apply BitVec.eq_of_getLsbD_eq
    intro j hj
    rw [BitVec.getLsbD_extractLsb', getLsbD_encodeI]
    grind
  unfold rdOf
  rw [h, regOfBits_regBits]

@[simp] theorem funct3Of_encodeI (imm : Int) (rs1 : Reg) (f3 : BitVec 3) (rd : Reg) (op : BitVec 7) :
    funct3Of (encodeI imm rs1 f3 rd op) = f3 := by
  unfold funct3Of
  apply BitVec.eq_of_getLsbD_eq
  intro j hj
  rw [BitVec.getLsbD_extractLsb', getLsbD_encodeI]
  grind

@[simp] theorem rs1Of_encodeI (imm : Int) (rs1 : Reg) (f3 : BitVec 3) (rd : Reg) (op : BitVec 7) :
    rs1Of (encodeI imm rs1 f3 rd op) = rs1 := by
  have h : (encodeI imm rs1 f3 rd op).extractLsb' 15 5 = regBits rs1 := by
    apply BitVec.eq_of_getLsbD_eq
    intro j hj
    rw [BitVec.getLsbD_extractLsb', getLsbD_encodeI]
    grind
  unfold rs1Of
  rw [h, regOfBits_regBits]

@[simp] theorem opcodeOf_encodeShift (f7 : BitVec 7) (shamt : Nat) (rs1 : Reg) (f3 : BitVec 3) (rd : Reg) :
    opcodeOf (encodeShift f7 shamt rs1 f3 rd) = 0x13#7 := by
  unfold opcodeOf
  apply BitVec.eq_of_getLsbD_eq
  intro j hj
  rw [BitVec.getLsbD_extractLsb', getLsbD_encodeShift]
  grind

@[simp] theorem rdOf_encodeShift (f7 : BitVec 7) (shamt : Nat) (rs1 : Reg) (f3 : BitVec 3) (rd : Reg) :
    rdOf (encodeShift f7 shamt rs1 f3 rd) = rd := by
  have h : (encodeShift f7 shamt rs1 f3 rd).extractLsb' 7 5 = regBits rd := by
    apply BitVec.eq_of_getLsbD_eq
    intro j hj
    rw [BitVec.getLsbD_extractLsb', getLsbD_encodeShift]
    grind
  unfold rdOf
  rw [h, regOfBits_regBits]

@[simp] theorem funct3Of_encodeShift (f7 : BitVec 7) (shamt : Nat) (rs1 : Reg) (f3 : BitVec 3) (rd : Reg) :
    funct3Of (encodeShift f7 shamt rs1 f3 rd) = f3 := by
  unfold funct3Of
  apply BitVec.eq_of_getLsbD_eq
  intro j hj
  rw [BitVec.getLsbD_extractLsb', getLsbD_encodeShift]
  grind

@[simp] theorem rs1Of_encodeShift (f7 : BitVec 7) (shamt : Nat) (rs1 : Reg) (f3 : BitVec 3) (rd : Reg) :
    rs1Of (encodeShift f7 shamt rs1 f3 rd) = rs1 := by
  have h : (encodeShift f7 shamt rs1 f3 rd).extractLsb' 15 5 = regBits rs1 := by
    apply BitVec.eq_of_getLsbD_eq
    intro j hj
    rw [BitVec.getLsbD_extractLsb', getLsbD_encodeShift]
    grind
  unfold rs1Of
  rw [h, regOfBits_regBits]

@[simp] theorem funct7Of_encodeShift (f7 : BitVec 7) (shamt : Nat) (rs1 : Reg) (f3 : BitVec 3) (rd : Reg) :
    funct7Of (encodeShift f7 shamt rs1 f3 rd) = f7 := by
  unfold funct7Of
  apply BitVec.eq_of_getLsbD_eq
  intro j hj
  rw [BitVec.getLsbD_extractLsb', getLsbD_encodeShift]
  grind

@[simp] theorem opcodeOf_encodeS (imm : Int) (rs2 rs1 : Reg) (f3 : BitVec 3) :
    opcodeOf (encodeS imm rs2 rs1 f3) = 0x23#7 := by
  unfold opcodeOf
  apply BitVec.eq_of_getLsbD_eq
  intro j hj
  rw [BitVec.getLsbD_extractLsb', getLsbD_encodeS]
  grind

@[simp] theorem funct3Of_encodeS (imm : Int) (rs2 rs1 : Reg) (f3 : BitVec 3) :
    funct3Of (encodeS imm rs2 rs1 f3) = f3 := by
  unfold funct3Of
  apply BitVec.eq_of_getLsbD_eq
  intro j hj
  rw [BitVec.getLsbD_extractLsb', getLsbD_encodeS]
  grind

@[simp] theorem rs1Of_encodeS (imm : Int) (rs2 rs1 : Reg) (f3 : BitVec 3) :
    rs1Of (encodeS imm rs2 rs1 f3) = rs1 := by
  have h : (encodeS imm rs2 rs1 f3).extractLsb' 15 5 = regBits rs1 := by
    apply BitVec.eq_of_getLsbD_eq
    intro j hj
    rw [BitVec.getLsbD_extractLsb', getLsbD_encodeS]
    grind
  unfold rs1Of
  rw [h, regOfBits_regBits]

@[simp] theorem rs2Of_encodeS (imm : Int) (rs2 rs1 : Reg) (f3 : BitVec 3) :
    rs2Of (encodeS imm rs2 rs1 f3) = rs2 := by
  have h : (encodeS imm rs2 rs1 f3).extractLsb' 20 5 = regBits rs2 := by
    apply BitVec.eq_of_getLsbD_eq
    intro j hj
    rw [BitVec.getLsbD_extractLsb', getLsbD_encodeS]
    grind
  unfold rs2Of
  rw [h, regOfBits_regBits]

@[simp] theorem opcodeOf_encodeSB (o : Int) (rs2 rs1 : Reg) (f3 : BitVec 3) :
    opcodeOf (encodeSB o rs2 rs1 f3) = 0x63#7 := by
  unfold opcodeOf
  apply BitVec.eq_of_getLsbD_eq
  intro j hj
  rw [BitVec.getLsbD_extractLsb', getLsbD_encodeSB]
  grind

@[simp] theorem funct3Of_encodeSB (o : Int) (rs2 rs1 : Reg) (f3 : BitVec 3) :
    funct3Of (encodeSB o rs2 rs1 f3) = f3 := by
  unfold funct3Of
  apply BitVec.eq_of_getLsbD_eq
  intro j hj
  rw [BitVec.getLsbD_extractLsb', getLsbD_encodeSB]
  grind

@[simp] theorem rs1Of_encodeSB (o : Int) (rs2 rs1 : Reg) (f3 : BitVec 3) :
    rs1Of (encodeSB o rs2 rs1 f3) = rs1 := by
  have h : (encodeSB o rs2 rs1 f3).extractLsb' 15 5 = regBits rs1 := by
    apply BitVec.eq_of_getLsbD_eq
    intro j hj
    rw [BitVec.getLsbD_extractLsb', getLsbD_encodeSB]
    grind
  unfold rs1Of
  rw [h, regOfBits_regBits]

@[simp] theorem rs2Of_encodeSB (o : Int) (rs2 rs1 : Reg) (f3 : BitVec 3) :
    rs2Of (encodeSB o rs2 rs1 f3) = rs2 := by
  have h : (encodeSB o rs2 rs1 f3).extractLsb' 20 5 = regBits rs2 := by
    apply BitVec.eq_of_getLsbD_eq
    intro j hj
    rw [BitVec.getLsbD_extractLsb', getLsbD_encodeSB]
    grind
  unfold rs2Of
  rw [h, regOfBits_regBits]

@[simp] theorem opcodeOf_encodeU (imm20 : Nat) (rd : Reg) (op : BitVec 7) :
    opcodeOf (encodeU imm20 rd op) = op := by
  unfold opcodeOf
  apply BitVec.eq_of_getLsbD_eq
  intro j hj
  rw [BitVec.getLsbD_extractLsb', getLsbD_encodeU]
  grind

@[simp] theorem rdOf_encodeU (imm20 : Nat) (rd : Reg) (op : BitVec 7) :
    rdOf (encodeU imm20 rd op) = rd := by
  have h : (encodeU imm20 rd op).extractLsb' 7 5 = regBits rd := by
    apply BitVec.eq_of_getLsbD_eq
    intro j hj
    rw [BitVec.getLsbD_extractLsb', getLsbD_encodeU]
    grind
  unfold rdOf
  rw [h, regOfBits_regBits]

@[simp] theorem opcodeOf_encodeUJ (o : Int) (rd : Reg) :
    opcodeOf (encodeUJ o rd) = 0x6F#7 := by
  unfold opcodeOf
  apply BitVec.eq_of_getLsbD_eq
  intro j hj
  rw [BitVec.getLsbD_extractLsb', getLsbD_encodeUJ]
  grind

@[simp] theorem rdOf_encodeUJ (o : Int) (rd : Reg) :
    rdOf (encodeUJ o rd) = rd := by
  have h : (encodeUJ o rd).extractLsb' 7 5 = regBits rd := by
    apply BitVec.eq_of_getLsbD_eq
    intro j hj
    rw [BitVec.getLsbD_extractLsb', getLsbD_encodeUJ]
    grind
  unfold rdOf
  rw [h, regOfBits_regBits]

theorem immIOf_encodeI {imm : Int} (rs1 : Reg) (f3 : BitVec 3) (rd : Reg) (op : BitVec 7)
    (h : fitsSigned12 imm = true) : immIOf (encodeI imm rs1 f3 rd op) = imm := by
  have hb : (encodeI imm rs1 f3 rd op).extractLsb' 20 12 = BitVec.ofInt 12 imm := by
    apply BitVec.eq_of_getLsbD_eq
    intro j hj
    simp only [BitVec.getLsbD_extractLsb', getLsbD_encodeI]
    grind
  unfold immIOf
  rw [hb, toInt_ofInt_12 h]

theorem immSOf_encodeS {imm : Int} (rs2 rs1 : Reg) (f3 : BitVec 3)
    (h : fitsSigned12 imm = true) : immSOf (encodeS imm rs2 rs1 f3) = imm := by
  have hb : ((encodeS imm rs2 rs1 f3).extractLsb' 25 7 ++ (encodeS imm rs2 rs1 f3).extractLsb' 7 5 : BitVec (7 + 5)) = BitVec.ofInt 12 imm := by
    apply BitVec.eq_of_getLsbD_eq
    intro j hj
    simp only [BitVec.getLsbD_append, BitVec.getLsbD_extractLsb', getLsbD_encodeS]
    grind
  unfold immSOf
  rw [hb, toInt_ofInt_12 h]

theorem offsetSBOf_encodeSB {o : Int} (rs2 rs1 : Reg) (f3 : BitVec 3)
    (h : fitsSigned12 o = true) : offsetSBOf (encodeSB o rs2 rs1 f3) = o := by
  have hb : ((encodeSB o rs2 rs1 f3).extractLsb' 31 1 ++ (encodeSB o rs2 rs1 f3).extractLsb' 7 1 ++ (encodeSB o rs2 rs1 f3).extractLsb' 25 6 ++ (encodeSB o rs2 rs1 f3).extractLsb' 8 4 : BitVec (1 + 1 + 6 + 4)) = BitVec.ofInt 12 o := by
    apply BitVec.eq_of_getLsbD_eq
    intro j hj
    simp only [BitVec.getLsbD_append, BitVec.getLsbD_extractLsb', getLsbD_encodeSB]
    grind
  unfold offsetSBOf
  rw [hb, toInt_ofInt_12 h]

theorem offsetUJOf_encodeUJ {o : Int} (rd : Reg)
    (h : fitsSigned20 o = true) : offsetUJOf (encodeUJ o rd) = o := by
  have hb : ((encodeUJ o rd).extractLsb' 31 1 ++ (encodeUJ o rd).extractLsb' 12 8 ++ (encodeUJ o rd).extractLsb' 20 1 ++ (encodeUJ o rd).extractLsb' 21 10 : BitVec (1 + 8 + 1 + 10)) = BitVec.ofInt 20 o := by
    apply BitVec.eq_of_getLsbD_eq
    intro j hj
    simp only [BitVec.getLsbD_append, BitVec.getLsbD_extractLsb', getLsbD_encodeUJ]
    grind
  unfold offsetUJOf
  rw [hb, toInt_ofInt_20 h]

theorem shamtOf_encodeShift (f7 : BitVec 7) {shamt : Nat} (rs1 : Reg) (f3 : BitVec 3) (rd : Reg)
    (h : fitsShamt shamt = true) : shamtOf (encodeShift f7 shamt rs1 f3 rd) = shamt := by
  have hb : (encodeShift f7 shamt rs1 f3 rd).extractLsb' 20 5 = BitVec.ofNat 5 shamt := by
    apply BitVec.eq_of_getLsbD_eq
    intro j hj
    simp only [BitVec.getLsbD_extractLsb', getLsbD_encodeShift]
    grind
  unfold shamtOf
  rw [hb, toNat_ofNat_5 h]

theorem immUOf_encodeU {imm20 : Nat} (rd : Reg) (op : BitVec 7)
    (h : fitsUnsigned20 imm20 = true) : immUOf (encodeU imm20 rd op) = imm20 := by
  have hb : (encodeU imm20 rd op).extractLsb' 12 20 = BitVec.ofNat 20 imm20 := by
    apply BitVec.eq_of_getLsbD_eq
    intro j hj
    simp only [BitVec.getLsbD_extractLsb', getLsbD_encodeU]
    grind
  unfold immUOf
  rw [hb, toNat_ofNat_20 h]

/-! ## An encoded word under its row's mask (R78) -/

theorem encodeR_masked (f7 : BitVec 7) (rs2 rs1 : Reg) (f3 : BitVec 3) (rd : Reg) (op : BitVec 7) :
    encodeR f7 rs2 rs1 f3 rd op &&& 0xFE00707F#32 = (f7.setWidth 32 <<< 25) ||| (f3.setWidth 32 <<< 12) ||| op.setWidth 32 := by
  apply BitVec.eq_of_getLsbD_eq
  intro j hj
  rw [BitVec.getLsbD_and, getLsbD_encodeR]
  interval_cases j <;> simp

theorem encodeI_masked (imm : Int) (rs1 : Reg) (f3 : BitVec 3) (rd : Reg) (op : BitVec 7) :
    encodeI imm rs1 f3 rd op &&& 0x0000707F#32 = (f3.setWidth 32 <<< 12) ||| op.setWidth 32 := by
  apply BitVec.eq_of_getLsbD_eq
  intro j hj
  rw [BitVec.getLsbD_and, getLsbD_encodeI]
  interval_cases j <;> simp

theorem encodeShift_masked (f7 : BitVec 7) (shamt : Nat) (rs1 : Reg) (f3 : BitVec 3) (rd : Reg) :
    encodeShift f7 shamt rs1 f3 rd &&& 0xFE00707F#32 = (f7.setWidth 32 <<< 25) ||| (f3.setWidth 32 <<< 12) ||| 0x13#32 := by
  apply BitVec.eq_of_getLsbD_eq
  intro j hj
  rw [BitVec.getLsbD_and, getLsbD_encodeShift]
  interval_cases j <;> simp

theorem encodeS_masked (imm : Int) (rs2 rs1 : Reg) (f3 : BitVec 3) :
    encodeS imm rs2 rs1 f3 &&& 0x0000707F#32 = (f3.setWidth 32 <<< 12) ||| 0x23#32 := by
  apply BitVec.eq_of_getLsbD_eq
  intro j hj
  rw [BitVec.getLsbD_and, getLsbD_encodeS]
  interval_cases j <;> simp

theorem encodeSB_masked (o : Int) (rs2 rs1 : Reg) (f3 : BitVec 3) :
    encodeSB o rs2 rs1 f3 &&& 0x0000707F#32 = (f3.setWidth 32 <<< 12) ||| 0x63#32 := by
  apply BitVec.eq_of_getLsbD_eq
  intro j hj
  rw [BitVec.getLsbD_and, getLsbD_encodeSB]
  interval_cases j <;> simp

theorem encodeU_masked (imm20 : Nat) (rd : Reg) (op : BitVec 7) :
    encodeU imm20 rd op &&& 0x0000007F#32 = op.setWidth 32 := by
  apply BitVec.eq_of_getLsbD_eq
  intro j hj
  rw [BitVec.getLsbD_and, getLsbD_encodeU]
  interval_cases j <;> simp

theorem encodeUJ_masked (o : Int) (rd : Reg) :
    encodeUJ o rd &&& 0x0000007F#32 = 0x6F#32 := by
  apply BitVec.eq_of_getLsbD_eq
  intro j hj
  rw [BitVec.getLsbD_and, getLsbD_encodeUJ]
  interval_cases j <;> simp

/-! ## A word put together again from its fields (R71 to R77) -/

theorem encodeR_fields (w : Word) :
    encodeR (funct7Of w) (rs2Of w) (rs1Of w) (funct3Of w) (rdOf w) (opcodeOf w) = w := by
  apply BitVec.eq_of_getLsbD_eq
  intro j hj
  rw [getLsbD_encodeR]
  simp only [rdOf, rs1Of, rs2Of, regBits_regOfBits, funct7Of, funct3Of, opcodeOf, BitVec.getLsbD_extractLsb']
  grind

theorem encodeI_fields (w : Word) :
    encodeI (immIOf w) (rs1Of w) (funct3Of w) (rdOf w) (opcodeOf w) = w := by
  apply BitVec.eq_of_getLsbD_eq
  intro j hj
  rw [getLsbD_encodeI]
  simp only [rdOf, rs1Of, regBits_regOfBits, immIOf, BitVec.ofInt_toInt, funct3Of, opcodeOf, BitVec.getLsbD_extractLsb']
  grind

theorem encodeShift_fields (w : Word) (h : opcodeOf w = 0x13#7) :
    encodeShift (funct7Of w) (shamtOf w) (rs1Of w) (funct3Of w) (rdOf w) = w := by
  apply BitVec.eq_of_getLsbD_eq
  intro j hj
  rw [getLsbD_encodeShift, ← h]
  simp only [rdOf, rs1Of, regBits_regOfBits, shamtOf, BitVec.ofNat_toNat, BitVec.setWidth_eq, funct7Of, funct3Of, opcodeOf, BitVec.getLsbD_extractLsb']
  grind

theorem immSOf_eq (w : Word) : BitVec.ofInt 12 (immSOf w) = (w.extractLsb' 25 7 ++ w.extractLsb' 7 5 : BitVec (7 + 5)) :=
  BitVec.ofInt_toInt
theorem offsetSBOf_eq (w : Word) : BitVec.ofInt 12 (offsetSBOf w) =
    (w.extractLsb' 31 1 ++ w.extractLsb' 7 1 ++ w.extractLsb' 25 6 ++ w.extractLsb' 8 4 : BitVec (1 + 1 + 6 + 4)) :=
  BitVec.ofInt_toInt
theorem offsetUJOf_eq (w : Word) : BitVec.ofInt 20 (offsetUJOf w) =
    (w.extractLsb' 31 1 ++ w.extractLsb' 12 8 ++ w.extractLsb' 20 1 ++ w.extractLsb' 21 10 : BitVec (1 + 8 + 1 + 10)) :=
  BitVec.ofInt_toInt

theorem encodeS_fields (w : Word) (h : opcodeOf w = 0x23#7) :
    encodeS (immSOf w) (rs2Of w) (rs1Of w) (funct3Of w) = w := by
  apply BitVec.eq_of_getLsbD_eq
  intro j hj
  rw [getLsbD_encodeS, ← h, immSOf_eq]
  simp only [rs2Of, rs1Of, regBits_regOfBits, BitVec.getLsbD_append, funct3Of, opcodeOf, BitVec.getLsbD_extractLsb']
  grind

theorem encodeSB_fields (w : Word) (h : opcodeOf w = 0x63#7) :
    encodeSB (offsetSBOf w) (rs2Of w) (rs1Of w) (funct3Of w) = w := by
  apply BitVec.eq_of_getLsbD_eq
  intro j hj
  rw [getLsbD_encodeSB, ← h, offsetSBOf_eq]
  simp only [rs2Of, rs1Of, regBits_regOfBits, BitVec.getLsbD_append, funct3Of, opcodeOf, BitVec.getLsbD_extractLsb']
  grind

theorem encodeU_fields (w : Word) :
    encodeU (immUOf w) (rdOf w) (opcodeOf w) = w := by
  apply BitVec.eq_of_getLsbD_eq
  intro j hj
  rw [getLsbD_encodeU]
  simp only [rdOf, regBits_regOfBits, immUOf, BitVec.ofNat_toNat, BitVec.setWidth_eq, opcodeOf, BitVec.getLsbD_extractLsb']
  grind

theorem encodeUJ_fields (w : Word) (h : opcodeOf w = 0x6F#7) :
    encodeUJ (offsetUJOf w) (rdOf w) = w := by
  apply BitVec.eq_of_getLsbD_eq
  intro j hj
  rw [getLsbD_encodeUJ, ← h, offsetUJOf_eq]
  simp only [rdOf, regBits_regOfBits, BitVec.getLsbD_append, opcodeOf, BitVec.getLsbD_extractLsb']
  grind

theorem fitsSigned12_toInt (x : BitVec 12) : fitsSigned12 x.toInt = true := by
  have h1 := BitVec.le_toInt x
  have h2 := BitVec.toInt_lt (x := x)
  simp only [fitsSigned12, Bool.and_eq_true, decide_eq_true_eq]; omega

theorem fitsSigned20_toInt (x : BitVec 20) : fitsSigned20 x.toInt = true := by
  have h1 := BitVec.le_toInt x
  have h2 := BitVec.toInt_lt (x := x)
  simp only [fitsSigned20, Bool.and_eq_true, decide_eq_true_eq]; omega

theorem fitsShamt_toNat (x : BitVec 5) : fitsShamt x.toNat = true := by
  have := x.isLt
  simp only [fitsShamt, decide_eq_true_eq]; omega

theorem fitsUnsigned20_toNat (x : BitVec 20) : fitsUnsigned20 x.toNat = true := by
  have := x.isLt
  simp only [fitsUnsigned20, decide_eq_true_eq]; omega

end Sys2Proof
end

