-- ==== Sys2Proof/Laws/Exec.lean ====
section
/-! SUPPORT. Everything a step can do, said once: a next state of `exec` has one of five shapes. Invariants and
frames are derived from `exec_shape` and do not unfold the meanings. -/

namespace Sys2Proof.Machine

/-- The word index of an instruction's access in a state. -/
abbrev accessIndex (s : State) (rs1 : Reg) (imm : Int) : Nat := wordIndex (effectiveAddress s rs1 imm)

/-- The shapes of a next state of `exec i s`. -/
inductive StepShape (i : Instr) (s t : State) : Prop where
  | compute (rd : Reg) (v : Word) (hd : i.destination = some rd) (ha : i.access = none)
      (hb : i.isBranch = false)
      (ht : t = ((s.logReads i.sources).writeDest rd v).retireTo 0 (s.pc + 1))
  | load (rd : Reg) (n : Width) (sg : Signedness) (rs1 : Reg) (imm : Int)
      (hd : i.destination = some rd) (ha : i.access = some (n, rs1, imm)) (hb : i.isBranch = false)
      (hc : checkAccess s.params (effectiveAddress s rs1 imm) n = none)
      (ht : t = (({ s.logReads i.sources with cache := s.cacheAfterRead (accessIndex s rs1 imm) }).writeDest rd
        (widenToWord sg ((s.mem.readWord (accessIndex s rs1 imm)).extractLsb'
          (laneBit (effectiveAddress s rs1 imm) n) n.bits))).retireTo
          (s.readLatency (accessIndex s rs1 imm)) (s.pc + 1))
  | store (n : Width) (rs1 : Reg) (imm : Int) (v : BitVec n.bits)
      (hd : i.destination = none) (ha : i.access = some (n, rs1, imm)) (hb : i.isBranch = false)
      (hc : checkAccess s.params (effectiveAddress s rs1 imm) n = none)
      (ht : t = (({ s.logReads i.sources with
        cache := (storeBase s (effectiveAddress s rs1 imm) n).cacheAfterWrite (accessIndex s rs1 imm)
          (storedWord s (effectiveAddress s rs1 imm) n v)
        mem := s.mem.writeWord (accessIndex s rs1 imm) (storedWord s (effectiveAddress s rs1 imm) n v) }).emit
          (.writeMemory (effectiveAddress s rs1 imm) n
            ((s.mem.readWord (accessIndex s rs1 imm)).extractLsb' (laneBit (effectiveAddress s rs1 imm) n) n.bits)
            v)).retireTo (storeLatency s (effectiveAddress s rs1 imm) n) (s.pc + 1))
  | branch (npc : Nat) (hd : i.destination = none) (ha : i.access = none) (hb : i.isBranch = true)
      (ht : t = (s.logReads i.sources).retireTo 0 npc)
  | fault (kind : FaultKind) (hf : RaisesFault i s kind) (ht : t = (s.logReads i.sources).haltWith kind)

theorem aluReg_eq (f : Word → Word → Word) (rd rs1 rs2 : Reg) (s : State) :
    aluReg f rd rs1 rs2 s = .next (((s.logReads [rs1, rs2]).writeDest rd
      (f (s.readReg rs1) (s.readReg rs2))).retireTo 0 (s.pc + 1)) := rfl

theorem aluImm_eq (f : Word → Word) (rd rs1 : Reg) (s : State) :
    aluImm f rd rs1 s = .next (((s.logReads [rs1]).writeDest rd (f (s.readReg rs1))).retireTo 0 (s.pc + 1)) := rfl

theorem load_ok {n : Width} (sg : Signedness) (rd : Reg) {rs1 : Reg} {imm : Int} {s : State}
    (hc : checkAccess s.params (effectiveAddress s rs1 imm) n = none) :
    load n sg rd rs1 imm s =
      .next ((({ s.logReads [rs1] with cache := s.cacheAfterRead (accessIndex s rs1 imm) }).writeDest rd
        (widenToWord sg ((s.mem.readWord (accessIndex s rs1 imm)).extractLsb'
          (laneBit (effectiveAddress s rs1 imm) n) n.bits))).retireTo
          (s.readLatency (accessIndex s rs1 imm)) (s.pc + 1)) := by
  unfold load
  rw [memRead_eq]
  have hc' : checkAccess (s.logReads [rs1]).params (effectiveAddress s rs1 imm) n = none := hc
  rw [hc']
  rfl

theorem load_fault {n : Width} (sg : Signedness) (rd : Reg) {rs1 : Reg} {imm : Int} {s : State} {kind : FaultKind}
    (hc : checkAccess s.params (effectiveAddress s rs1 imm) n = some kind) :
    load n sg rd rs1 imm s = .next ((s.logReads [rs1]).haltWith kind) := by
  unfold load
  rw [memRead_eq]
  have hc' : checkAccess (s.logReads [rs1]).params (effectiveAddress s rs1 imm) n = some kind := hc
  rw [hc']
  rfl

theorem store_ok {n : Width} (data : Word → BitVec n.bits) {rs1 : Reg} (rs2 : Reg) {imm : Int} {s : State}
    (hc : checkAccess s.params (effectiveAddress s rs1 imm) n = none) :
    store n data rs1 rs2 imm s =
      .next ((({ s.logReads [rs1, rs2] with
        cache := (storeBase s (effectiveAddress s rs1 imm) n).cacheAfterWrite (accessIndex s rs1 imm)
          (storedWord s (effectiveAddress s rs1 imm) n (data (s.readReg rs2)))
        mem := s.mem.writeWord (accessIndex s rs1 imm)
          (storedWord s (effectiveAddress s rs1 imm) n (data (s.readReg rs2))) }).emit
          (.writeMemory (effectiveAddress s rs1 imm) n
            ((s.mem.readWord (accessIndex s rs1 imm)).extractLsb' (laneBit (effectiveAddress s rs1 imm) n) n.bits)
            (data (s.readReg rs2)))).retireTo (storeLatency s (effectiveAddress s rs1 imm) n) (s.pc + 1)) := by
  unfold store
  rw [memWrite_eq]
  have hc' : checkAccess (s.logReads [rs1, rs2]).params (effectiveAddress s rs1 imm) n = none := hc
  rw [hc']
  cases n <;> rfl

theorem store_fault {n : Width} (data : Word → BitVec n.bits) {rs1 : Reg} (rs2 : Reg) {imm : Int} {s : State}
    {kind : FaultKind} (hc : checkAccess s.params (effectiveAddress s rs1 imm) n = some kind) :
    store n data rs1 rs2 imm s = .next ((s.logReads [rs1, rs2]).haltWith kind) := by
  unfold store
  rw [memWrite_eq]
  have hc' : checkAccess (s.logReads [rs1, rs2]).params (effectiveAddress s rs1 imm) n = some kind := hc
  rw [hc']
  rfl

theorem unsupported_eq (s : State) : unsupported s = .next ((s.logReads []).haltWith .unsupportedInstruction) := by
  simp [unsupported, raiseFault, State.logReads]

theorem branch_not_taken {taken : Word → Word → Bool} {rs1 rs2 : Reg} {offset : Int} {s : State}
    (h : taken (s.readReg rs1) (s.readReg rs2) = false) :
    branch taken rs1 rs2 offset s = .next ((s.logReads [rs1, rs2]).retireTo 0 (s.pc + 1)) := by
  simp [branch, h, retire]

theorem branch_taken {taken : Word → Word → Bool} {rs1 rs2 : Reg} {offset : Int} {s : State}
    (h : taken (s.readReg rs1) (s.readReg rs2) = true) (hp : 0 ≤ (s.pc : Int) + offset) :
    branch taken rs1 rs2 offset s =
      .next ((s.logReads [rs1, rs2]).retireTo 0 ((s.pc : Int) + offset).toNat) := by
  have : ¬((s.pc : Int) + offset < 0) := by omega
  simp [branch, h, retire, branchTarget, this]

theorem branch_negative {taken : Word → Word → Bool} {rs1 rs2 : Reg} {offset : Int} {s : State}
    (h : taken (s.readReg rs1) (s.readReg rs2) = true) (hp : (s.pc : Int) + offset < 0) :
    branch taken rs1 rs2 offset s = .refused (.negativeBranchTarget (s.logReads [rs1, rs2])) := by
  simp [branch, h, branchTarget, hp]

/-! ## Each instruction as an instance of its family's shape -/

theorem exec_lb (rd rs1 : Reg) (imm : Int) (s : State) :
    exec (.lb rd rs1 imm) s = load .byte .signed rd rs1 imm s := rfl

theorem exec_lh (rd rs1 : Reg) (imm : Int) (s : State) :
    exec (.lh rd rs1 imm) s = load .half .signed rd rs1 imm s := rfl

theorem exec_lw (rd rs1 : Reg) (imm : Int) (s : State) :
    exec (.lw rd rs1 imm) s = load .word .unsigned rd rs1 imm s := rfl

theorem exec_lbu (rd rs1 : Reg) (imm : Int) (s : State) :
    exec (.lbu rd rs1 imm) s = load .byte .unsigned rd rs1 imm s := rfl

theorem exec_lhu (rd rs1 : Reg) (imm : Int) (s : State) :
    exec (.lhu rd rs1 imm) s = load .half .unsigned rd rs1 imm s := rfl

theorem exec_addi (rd rs1 : Reg) (imm : Int) (s : State) :
    exec (.addi rd rs1 imm) s = aluImm (fun a => valueAdd a (immWord imm)) rd rs1 s := rfl

theorem exec_slti (rd rs1 : Reg) (imm : Int) (s : State) :
    exec (.slti rd rs1 imm) s = aluImm (fun a => truthWord (valueLt .signed a (immWord imm))) rd rs1 s := rfl

theorem exec_sltiu (rd rs1 : Reg) (imm : Int) (s : State) :
    exec (.sltiu rd rs1 imm) s = aluImm (fun a => truthWord (valueLt .unsigned a (immWord imm))) rd rs1 s := rfl

theorem exec_xori (rd rs1 : Reg) (imm : Int) (s : State) :
    exec (.xori rd rs1 imm) s = aluImm (fun a => valueXor a (immWord imm)) rd rs1 s := rfl

theorem exec_ori (rd rs1 : Reg) (imm : Int) (s : State) :
    exec (.ori rd rs1 imm) s = aluImm (fun a => valueOr a (immWord imm)) rd rs1 s := rfl

theorem exec_andi (rd rs1 : Reg) (imm : Int) (s : State) :
    exec (.andi rd rs1 imm) s = aluImm (fun a => valueAnd a (immWord imm)) rd rs1 s := rfl

theorem exec_slli (rd rs1 : Reg) (shamt : Nat) (s : State) :
    exec (.slli rd rs1 shamt) s = aluImm (fun a => valueShl a shamt) rd rs1 s := rfl

theorem exec_srli (rd rs1 : Reg) (shamt : Nat) (s : State) :
    exec (.srli rd rs1 shamt) s = aluImm (fun a => valueShr .unsigned a shamt) rd rs1 s := rfl

theorem exec_srai (rd rs1 : Reg) (shamt : Nat) (s : State) :
    exec (.srai rd rs1 shamt) s = aluImm (fun a => valueShr .signed a shamt) rd rs1 s := rfl

theorem exec_add (rd rs1 rs2 : Reg) (s : State) :
    exec (.add rd rs1 rs2) s = aluReg (fun a b => valueAdd a b) rd rs1 rs2 s := rfl

theorem exec_sub (rd rs1 rs2 : Reg) (s : State) :
    exec (.sub rd rs1 rs2) s = aluReg (fun a b => valueSub a b) rd rs1 rs2 s := rfl

theorem exec_sll (rd rs1 rs2 : Reg) (s : State) :
    exec (.sll rd rs1 rs2) s = aluReg (fun a b => valueShl a (shiftAmount b)) rd rs1 rs2 s := rfl

theorem exec_slt (rd rs1 rs2 : Reg) (s : State) :
    exec (.slt rd rs1 rs2) s = aluReg (fun a b => truthWord (valueLt .signed a b)) rd rs1 rs2 s := rfl

theorem exec_sltu (rd rs1 rs2 : Reg) (s : State) :
    exec (.sltu rd rs1 rs2) s = aluReg (fun a b => truthWord (valueLt .unsigned a b)) rd rs1 rs2 s := rfl

theorem exec_xor (rd rs1 rs2 : Reg) (s : State) :
    exec (.xor rd rs1 rs2) s = aluReg (fun a b => valueXor a b) rd rs1 rs2 s := rfl

theorem exec_srl (rd rs1 rs2 : Reg) (s : State) :
    exec (.srl rd rs1 rs2) s = aluReg (fun a b => valueShr .unsigned a (shiftAmount b)) rd rs1 rs2 s := rfl

theorem exec_sra (rd rs1 rs2 : Reg) (s : State) :
    exec (.sra rd rs1 rs2) s = aluReg (fun a b => valueShr .signed a (shiftAmount b)) rd rs1 rs2 s := rfl

theorem exec_or (rd rs1 rs2 : Reg) (s : State) :
    exec (.or rd rs1 rs2) s = aluReg (fun a b => valueOr a b) rd rs1 rs2 s := rfl

theorem exec_and (rd rs1 rs2 : Reg) (s : State) :
    exec (.and rd rs1 rs2) s = aluReg (fun a b => valueAnd a b) rd rs1 rs2 s := rfl

theorem exec_sb (rs1 rs2 : Reg) (imm : Int) (s : State) :
    exec (.sb rs1 rs2 imm) s = store .byte asByte rs1 rs2 imm s := rfl

theorem exec_sh (rs1 rs2 : Reg) (imm : Int) (s : State) :
    exec (.sh rs1 rs2 imm) s = store .half asHalfWord rs1 rs2 imm s := rfl

theorem exec_sw (rs1 rs2 : Reg) (imm : Int) (s : State) :
    exec (.sw rs1 rs2 imm) s = store .word (fun v => v) rs1 rs2 imm s := rfl

theorem exec_beq (rs1 rs2 : Reg) (offset : Int) (s : State) :
    exec (.beq rs1 rs2 offset) s = branch (fun a b => valueEq a b) rs1 rs2 offset s := rfl

theorem exec_bne (rs1 rs2 : Reg) (offset : Int) (s : State) :
    exec (.bne rs1 rs2 offset) s = branch (fun a b => !valueEq a b) rs1 rs2 offset s := rfl

theorem exec_blt (rs1 rs2 : Reg) (offset : Int) (s : State) :
    exec (.blt rs1 rs2 offset) s = branch (fun a b => valueLt .signed a b) rs1 rs2 offset s := rfl

theorem exec_bge (rs1 rs2 : Reg) (offset : Int) (s : State) :
    exec (.bge rs1 rs2 offset) s = branch (fun a b => valueGe .signed a b) rs1 rs2 offset s := rfl

theorem exec_bltu (rs1 rs2 : Reg) (offset : Int) (s : State) :
    exec (.bltu rs1 rs2 offset) s = branch (fun a b => valueLt .unsigned a b) rs1 rs2 offset s := rfl

theorem exec_bgeu (rs1 rs2 : Reg) (offset : Int) (s : State) :
    exec (.bgeu rs1 rs2 offset) s = branch (fun a b => valueGe .unsigned a b) rs1 rs2 offset s := rfl

theorem exec_jalr (rd rs1 : Reg) (imm : Int) (s : State) : exec (.jalr rd rs1 imm) s = unsupported s := rfl

theorem exec_scall (s : State) : exec (.scall) s = unsupported s := rfl

theorem exec_lui (rd : Reg) (imm20 : Nat) (s : State) : exec (.lui rd imm20) s = unsupported s := rfl

theorem exec_auipc (rd : Reg) (imm20 : Nat) (s : State) : exec (.auipc rd imm20) s = unsupported s := rfl

theorem exec_jal (rd : Reg) (offset : Int) (s : State) : exec (.jal rd offset) s = unsupported s := rfl

theorem load_not_refused {n : Width} {sg : Signedness} {rd rs1 : Reg} {imm : Int} {s : State} {r : Refusal} :
    load n sg rd rs1 imm s ≠ .refused r := by
  unfold load raiseFault retire; split <;> simp

theorem store_not_refused {n : Width} {data : Word → BitVec n.bits} {rs1 rs2 : Reg} {imm : Int} {s : State}
    {r : Refusal} : store n data rs1 rs2 imm s ≠ .refused r := by
  unfold store raiseFault retire; split <;> simp

/-- Logging the reads, in the terms of the statements (41_dispatch.md R106). -/
theorem logReads_eq (s : State) (sources : List Reg) :
    s.logReads sources = { s with log := s.log ++ readEntries s sources } := rfl

/-- A branch is refused exactly when it is taken to a negative target, and the refusal holds the state with its two
reads logged (46_branches.md R152, D10). -/
theorem branch_refused_iff {taken : Word → Word → Bool} {rs1 rs2 : Reg} {offset : Int} {s : State} {r : Refusal} :
    branch taken rs1 rs2 offset s = .refused r ↔
      r = .negativeBranchTarget (s.logReads [rs1, rs2]) ∧ (s.pc : Int) + offset < 0 ∧
        taken (s.readReg rs1) (s.readReg rs2) = true := by
  unfold branch branchTarget
  by_cases h1 : taken (s.readReg rs1) (s.readReg rs2) = true <;> by_cases h2 : (s.pc : Int) + offset < 0 <;>
    simp [h1, h2, retire, eq_comm]

/-! ## The inversion -/

theorem shape_of_aluReg {i : Instr} {s t : State} {f : Word → Word → Word} {rd rs1 rs2 : Reg}
    (hs : i.sources = [rs1, rs2]) (hd : i.destination = some rd) (ha : i.access = none) (hb : i.isBranch = false)
    (h : aluReg f rd rs1 rs2 s = .next t) : StepShape i s t := by
  rw [aluReg_eq] at h
  cases h
  exact .compute rd _ hd ha hb (by rw [hs])

theorem shape_of_aluImm {i : Instr} {s t : State} {f : Word → Word} {rd rs1 : Reg}
    (hs : i.sources = [rs1]) (hd : i.destination = some rd) (ha : i.access = none) (hb : i.isBranch = false)
    (h : aluImm f rd rs1 s = .next t) : StepShape i s t := by
  rw [aluImm_eq] at h
  cases h
  exact .compute rd _ hd ha hb (by rw [hs])

theorem shape_of_load {i : Instr} {s t : State} {n : Width} {sg : Signedness} {rd rs1 : Reg} {imm : Int}
    (hs : i.sources = [rs1]) (hd : i.destination = some rd) (ha : i.access = some (n, rs1, imm))
    (hb : i.isBranch = false) (h : load n sg rd rs1 imm s = .next t) : StepShape i s t := by
  cases hc : checkAccess s.params (effectiveAddress s rs1 imm) n with
  | none =>
    rw [load_ok sg rd hc] at h
    cases h
    exact .load rd n sg rs1 imm hd ha hb hc (by rw [hs])
  | some kind =>
    rw [load_fault sg rd hc] at h
    cases h
    refine .fault kind ?_ (by rw [hs])
    unfold RaisesFault
    rw [ha]
    exact checkAccess_eq_some.1 hc

theorem shape_of_store {i : Instr} {s t : State} {n : Width} {data : Word → BitVec n.bits} {rs1 rs2 : Reg}
    {imm : Int} (hs : i.sources = [rs1, rs2]) (hd : i.destination = none) (ha : i.access = some (n, rs1, imm))
    (hb : i.isBranch = false) (h : store n data rs1 rs2 imm s = .next t) : StepShape i s t := by
  cases hc : checkAccess s.params (effectiveAddress s rs1 imm) n with
  | none =>
    rw [store_ok data rs2 hc] at h
    cases h
    exact .store n rs1 imm (data (s.readReg rs2)) hd ha hb hc (by rw [hs])
  | some kind =>
    rw [store_fault data rs2 hc] at h
    cases h
    refine .fault kind ?_ (by rw [hs])
    unfold RaisesFault
    rw [ha]
    exact checkAccess_eq_some.1 hc

theorem shape_of_branch {i : Instr} {s t : State} {taken : Word → Word → Bool} {rs1 rs2 : Reg} {offset : Int}
    (hs : i.sources = [rs1, rs2]) (hd : i.destination = none) (ha : i.access = none) (hb : i.isBranch = true)
    (h : branch taken rs1 rs2 offset s = .next t) : StepShape i s t := by
  cases ht : taken (s.readReg rs1) (s.readReg rs2) with
  | false =>
    rw [branch_not_taken ht] at h
    cases h
    exact .branch _ hd ha hb (by rw [hs])
  | true =>
    by_cases hp : (s.pc : Int) + offset < 0
    · rw [branch_negative ht hp] at h; cases h
    · rw [branch_taken ht (by omega)] at h
      cases h
      exact .branch _ hd ha hb (by rw [hs])

theorem shape_of_unsupported {i : Instr} {s t : State} (hs : i.sources = []) (ha : i.access = none)
    (hu : i.isUnsupported = true) (h : unsupported s = .next t) : StepShape i s t := by
  rw [unsupported_eq] at h
  cases h
  refine .fault .unsupportedInstruction ?_ (by rw [hs])
  unfold RaisesFault
  rw [ha]
  exact ⟨rfl, hu⟩

/-- A next state of `exec` has one of the five shapes. -/
theorem exec_shape {i : Instr} {s t : State} (h : exec i s = .next t) : StepShape i s t := by
  cases i with
  | lb _ _ _ => unfold exec execLb at h; exact shape_of_load rfl rfl rfl rfl h
  | lh _ _ _ => unfold exec execLh at h; exact shape_of_load rfl rfl rfl rfl h
  | lw _ _ _ => unfold exec execLw at h; exact shape_of_load rfl rfl rfl rfl h
  | lbu _ _ _ => unfold exec execLbu at h; exact shape_of_load rfl rfl rfl rfl h
  | lhu _ _ _ => unfold exec execLhu at h; exact shape_of_load rfl rfl rfl rfl h
  | addi _ _ _ => unfold exec execAddi at h; exact shape_of_aluImm rfl rfl rfl rfl h
  | slti _ _ _ => unfold exec execSlti at h; exact shape_of_aluImm rfl rfl rfl rfl h
  | sltiu _ _ _ => unfold exec execSltiu at h; exact shape_of_aluImm rfl rfl rfl rfl h
  | xori _ _ _ => unfold exec execXori at h; exact shape_of_aluImm rfl rfl rfl rfl h
  | ori _ _ _ => unfold exec execOri at h; exact shape_of_aluImm rfl rfl rfl rfl h
  | andi _ _ _ => unfold exec execAndi at h; exact shape_of_aluImm rfl rfl rfl rfl h
  | jalr _ _ _ => unfold exec execJalr at h; exact shape_of_unsupported rfl rfl rfl h
  | scall => unfold exec execScall at h; exact shape_of_unsupported rfl rfl rfl h
  | slli _ _ _ => unfold exec execSlli at h; exact shape_of_aluImm rfl rfl rfl rfl h
  | srli _ _ _ => unfold exec execSrli at h; exact shape_of_aluImm rfl rfl rfl rfl h
  | srai _ _ _ => unfold exec execSrai at h; exact shape_of_aluImm rfl rfl rfl rfl h
  | add _ _ _ => unfold exec execAdd at h; exact shape_of_aluReg rfl rfl rfl rfl h
  | sub _ _ _ => unfold exec execSub at h; exact shape_of_aluReg rfl rfl rfl rfl h
  | sll _ _ _ => unfold exec execSll at h; exact shape_of_aluReg rfl rfl rfl rfl h
  | slt _ _ _ => unfold exec execSlt at h; exact shape_of_aluReg rfl rfl rfl rfl h
  | sltu _ _ _ => unfold exec execSltu at h; exact shape_of_aluReg rfl rfl rfl rfl h
  | xor _ _ _ => unfold exec execXor at h; exact shape_of_aluReg rfl rfl rfl rfl h
  | srl _ _ _ => unfold exec execSrl at h; exact shape_of_aluReg rfl rfl rfl rfl h
  | sra _ _ _ => unfold exec execSra at h; exact shape_of_aluReg rfl rfl rfl rfl h
  | or _ _ _ => unfold exec execOr at h; exact shape_of_aluReg rfl rfl rfl rfl h
  | and _ _ _ => unfold exec execAnd at h; exact shape_of_aluReg rfl rfl rfl rfl h
  | sb _ _ _ => unfold exec execSb at h; exact shape_of_store rfl rfl rfl rfl h
  | sh _ _ _ => unfold exec execSh at h; exact shape_of_store rfl rfl rfl rfl h
  | sw _ _ _ => unfold exec execSw at h; exact shape_of_store rfl rfl rfl rfl h
  | beq _ _ _ => unfold exec execBeq at h; exact shape_of_branch rfl rfl rfl rfl h
  | bne _ _ _ => unfold exec execBne at h; exact shape_of_branch rfl rfl rfl rfl h
  | blt _ _ _ => unfold exec execBlt at h; exact shape_of_branch rfl rfl rfl rfl h
  | bge _ _ _ => unfold exec execBge at h; exact shape_of_branch rfl rfl rfl rfl h
  | bltu _ _ _ => unfold exec execBltu at h; exact shape_of_branch rfl rfl rfl rfl h
  | bgeu _ _ _ => unfold exec execBgeu at h; exact shape_of_branch rfl rfl rfl rfl h
  | lui _ _ => unfold exec execLui at h; exact shape_of_unsupported rfl rfl rfl h
  | auipc _ _ => unfold exec execAuipc at h; exact shape_of_unsupported rfl rfl rfl h
  | jal _ _ => unfold exec execJal at h; exact shape_of_unsupported rfl rfl rfl h

/-- `step` runs the record it fetches, and only a Ready core fetches (41_dispatch.md R104, R113). -/
theorem fetch_eq_some {s : State} {r : Record} : s.fetch = some r ↔ s.run = .ready ∧ s.program[s.pc]? = some r := by
  unfold State.fetch; split <;> simp_all

theorem step_of_fetch {s : State} {r : Record} (hr : s.run = .ready) (hp : s.program[s.pc]? = some r) :
    step s = execRecord r s := by
  unfold step; rw [fetch_eq_some.2 ⟨hr, hp⟩]

/-- A next state of `step` comes from a fetched instruction, or from an invalid word, which halts the core. -/
theorem step_cases {s t : State} (h : step s = .next t) :
    s.run = .ready ∧
      ((∃ i, s.program[s.pc]? = some (.instr i) ∧ exec i s = .next t) ∨
        ∃ w, s.program[s.pc]? = some (.invalid w) ∧
          t = (s.logReads []).haltWith .unsupportedInstruction) := by
  unfold step at h
  cases hf : s.fetch with
  | none => rw [hf] at h; cases h
  | some r =>
    rw [hf] at h
    obtain ⟨hr, hp⟩ := fetch_eq_some.1 hf
    refine ⟨hr, ?_⟩
    cases r with
    | instr i => exact .inl ⟨i, hp, h⟩
    | invalid w =>
      have h' : unsupported s = .next t := h
      rw [unsupported_eq] at h'
      cases h'
      exact .inr ⟨w, hp, rfl⟩

end Sys2Proof.Machine
end

