-- ==== Sys2Proof/Laws/PerInstr.lean ====
section
/-! SUPPORT. Per instruction: an encoded instruction matches its own row of opcode_table.json, whatever its operands
are (30_encoding.md R78, R80). -/

namespace Sys2Proof.Laws.RowMatch

/-- The encoding of `i` under its row's mask is its row's pattern. -/
def Statement (i : Instr) : Prop := Encodes i i.row.pattern i.row.mask

theorem lb (a b : Reg) (c : Int) : Statement (.lb a b c) := encodeI_masked _ _ _ _ _

theorem lh (a b : Reg) (c : Int) : Statement (.lh a b c) := encodeI_masked _ _ _ _ _

theorem lw (a b : Reg) (c : Int) : Statement (.lw a b c) := encodeI_masked _ _ _ _ _

theorem lbu (a b : Reg) (c : Int) : Statement (.lbu a b c) := encodeI_masked _ _ _ _ _

theorem lhu (a b : Reg) (c : Int) : Statement (.lhu a b c) := encodeI_masked _ _ _ _ _

theorem addi (a b : Reg) (c : Int) : Statement (.addi a b c) := encodeI_masked _ _ _ _ _

theorem slti (a b : Reg) (c : Int) : Statement (.slti a b c) := encodeI_masked _ _ _ _ _

theorem sltiu (a b : Reg) (c : Int) : Statement (.sltiu a b c) := encodeI_masked _ _ _ _ _

theorem xori (a b : Reg) (c : Int) : Statement (.xori a b c) := encodeI_masked _ _ _ _ _

theorem ori (a b : Reg) (c : Int) : Statement (.ori a b c) := encodeI_masked _ _ _ _ _

theorem andi (a b : Reg) (c : Int) : Statement (.andi a b c) := encodeI_masked _ _ _ _ _

theorem jalr (a b : Reg) (c : Int) : Statement (.jalr a b c) := encodeI_masked _ _ _ _ _

theorem scall : Statement .scall := by unfold Statement Encodes; decide

theorem slli (a b : Reg) (c : Nat) : Statement (.slli a b c) := encodeShift_masked _ _ _ _ _

theorem srli (a b : Reg) (c : Nat) : Statement (.srli a b c) := encodeShift_masked _ _ _ _ _

theorem srai (a b : Reg) (c : Nat) : Statement (.srai a b c) := encodeShift_masked _ _ _ _ _

theorem add (a b c : Reg) : Statement (.add a b c) := encodeR_masked _ _ _ _ _ _

theorem sub (a b c : Reg) : Statement (.sub a b c) := encodeR_masked _ _ _ _ _ _

theorem sll (a b c : Reg) : Statement (.sll a b c) := encodeR_masked _ _ _ _ _ _

theorem slt (a b c : Reg) : Statement (.slt a b c) := encodeR_masked _ _ _ _ _ _

theorem sltu (a b c : Reg) : Statement (.sltu a b c) := encodeR_masked _ _ _ _ _ _

theorem xor (a b c : Reg) : Statement (.xor a b c) := encodeR_masked _ _ _ _ _ _

theorem srl (a b c : Reg) : Statement (.srl a b c) := encodeR_masked _ _ _ _ _ _

theorem sra (a b c : Reg) : Statement (.sra a b c) := encodeR_masked _ _ _ _ _ _

theorem or (a b c : Reg) : Statement (.or a b c) := encodeR_masked _ _ _ _ _ _

theorem and (a b c : Reg) : Statement (.and a b c) := encodeR_masked _ _ _ _ _ _

theorem sb (a b : Reg) (c : Int) : Statement (.sb a b c) := encodeS_masked _ _ _ _

theorem sh (a b : Reg) (c : Int) : Statement (.sh a b c) := encodeS_masked _ _ _ _

theorem sw (a b : Reg) (c : Int) : Statement (.sw a b c) := encodeS_masked _ _ _ _

theorem beq (a b : Reg) (c : Int) : Statement (.beq a b c) := encodeSB_masked _ _ _ _

theorem bne (a b : Reg) (c : Int) : Statement (.bne a b c) := encodeSB_masked _ _ _ _

theorem blt (a b : Reg) (c : Int) : Statement (.blt a b c) := encodeSB_masked _ _ _ _

theorem bge (a b : Reg) (c : Int) : Statement (.bge a b c) := encodeSB_masked _ _ _ _

theorem bltu (a b : Reg) (c : Int) : Statement (.bltu a b c) := encodeSB_masked _ _ _ _

theorem bgeu (a b : Reg) (c : Int) : Statement (.bgeu a b c) := encodeSB_masked _ _ _ _

theorem lui (a : Reg) (b : Nat) : Statement (.lui a b) := encodeU_masked _ _ _

theorem auipc (a : Reg) (b : Nat) : Statement (.auipc a b) := encodeU_masked _ _ _

theorem jal (a : Reg) (b : Int) : Statement (.jal a b) := encodeUJ_masked _ _

end Sys2Proof.Laws.RowMatch
end

