-- ==== Sys2Proof/Laws/StepBack.lean ====
section
/-! SUPPORT. What step-back's parts can do: `restore` writes the old bits back through the cache, and undoing one
entry leaves program, parameters and log alone (41_dispatch.md R115). -/

namespace Sys2Proof.Machine

/-- The word `Restore` writes (R115): the addressed bits replaced by the logged ones. -/
theorem State.restore_eq (s : State) (addr : Word) (n : Width) (b : BitVec n.bits) :
    s.restore addr n b = (s.cacheWrite (wordIndex addr) (storedWord s addr n b)).2 := by
  cases n with
  | byte => rfl
  | half => rfl
  | word =>
    have h : storedWord s addr .word b = b := replaceBits_word _ _
    rw [h]; rfl

@[simp] theorem State.restore_regs (s : State) (addr : Word) (n : Width) (b : BitVec n.bits) :
    (s.restore addr n b).regs = s.regs := by cases n <;> rfl

@[simp] theorem State.restore_pc (s : State) (addr : Word) (n : Width) (b : BitVec n.bits) :
    (s.restore addr n b).pc = s.pc := by cases n <;> rfl

@[simp] theorem State.restore_run (s : State) (addr : Word) (n : Width) (b : BitVec n.bits) :
    (s.restore addr n b).run = s.run := by cases n <;> rfl

@[simp] theorem State.restore_log (s : State) (addr : Word) (n : Width) (b : BitVec n.bits) :
    (s.restore addr n b).log = s.log := by cases n <;> rfl

@[simp] theorem State.restore_params (s : State) (addr : Word) (n : Width) (b : BitVec n.bits) :
    (s.restore addr n b).params = s.params := by cases n <;> rfl

@[simp] theorem State.restore_program (s : State) (addr : Word) (n : Width) (b : BitVec n.bits) :
    (s.restore addr n b).program = s.program := by cases n <;> rfl

theorem State.restore_mem (s : State) (addr : Word) (n : Width) (b : BitVec n.bits) :
    (s.restore addr n b).mem = s.mem.writeWord (wordIndex addr) (storedWord s addr n b) := by
  rw [State.restore_eq]; rfl

@[simp] theorem undoAction_program (s : State) (a : Action) : (undoAction s a).program = s.program := by
  cases a <;> simp [undoAction]

@[simp] theorem undoAction_params (s : State) (a : Action) : (undoAction s a).params = s.params := by
  cases a <;> simp [undoAction]

@[simp] theorem undoAction_log (s : State) (a : Action) : (undoAction s a).log = s.log := by
  cases a <;> simp [undoAction]

/-- Only a `Jump` entry's undoing changes `pc`. -/
theorem undoAction_pc {s : State} {a : Action} (h : a.isJump = false) : (undoAction s a).pc = s.pc := by
  cases a with
  | jump _ _ => simp [Action.isJump] at h
  | writeMemory _ _ _ _ => simp [undoAction]
  | _ => rfl

/-- Restoring the overwritten bits after the store that overwrote them gives the memory back (R115, R118). -/
theorem restore_after_store {s t : State} {addr : Word} {n : Width} {v : BitVec n.bits}
    (hm : s.mem.wf = true) (hc : checkAccess s.params addr n = none)
    (ht : t.mem = s.mem.writeWord (wordIndex addr) (storedWord s addr n v)) :
    (t.restore addr n ((s.mem.readWord (wordIndex addr)).extractLsb' (laneBit addr n) n.bits)).mem = s.mem := by
  have hw : t.mem.readWord (wordIndex addr) = storedWord s addr n v := by
    rw [ht, Memory.readWord_writeWord _ _ _ hm, if_pos rfl]
  rw [State.restore_mem]
  have hu : storedWord t addr n ((s.mem.readWord (wordIndex addr)).extractLsb' (laneBit addr n) n.bits) =
      s.mem.readWord (wordIndex addr) := by
    unfold storedWord at hw ⊢
    rw [hw]
    exact storedWord_undo s addr n v hc
  rw [hu, ht, Memory.writeWord_undo _ _ hm]

end Sys2Proof.Machine
end

