-- ==== Sys2Proof/Tests/Slice0.lean ====
section
/-! SUPPORT. The model's own tests. Expected values are those of spec/95_test_vectors.md (the V, T, E and S numbers in
the docstrings), or worked out by hand from the rule named. The second part shows, for every obligation that has
hypotheses, states and operands that meet them. -/

namespace Sys2Proof.Tests

open Sys2Proof Sys2Proof.Machine

/-! ## States for the tests -/

/-- 95_test_vectors.md section 0: the example configuration, a cold cache, `len` instructions that are all
`ADDI x0, x0, 0` but for the word `w` at `pc`, and the registers and memory words listed. -/
def core (pc len : Nat) (w : Word) (regs : List (Reg × Word)) (words : List (Nat × Word)) : State :=
  let s := State.initial Params.example ((List.replicate len fillerRecord).set pc (decode w))
  { regs.foldl (fun s x => s.writeReg x.1 x.2) s with
    pc := pc
    mem := words.foldl (fun m x => m.writeWord x.1 x.2) [] }

/-- The same with the block of word `i` resident. -/
def warm (s : State) (i : Nat) : State := (s.cacheRead i).2.2

/-- The next state of a step, if there is one. -/
def after (s : State) : Option State :=
  match step s with
  | .next t => some t
  | _ => none

/-- The marked state of a step refused for its negative target, if it is. -/
def marked (s : State) : Option State :=
  match step s with
  | .refused (.negativeBranchTarget t) => some t
  | _ => none

/-- The refusal of a construction, if there is one. -/
def constructionRefusal (p : Params) (program : List Record) : Option Refusal :=
  match State.construct p program with
  | .error r => some r
  | .ok _ => none

/-! ## Well-formed records: an ill-formed one for each check (30_encoding.md R66, R67) -/

theorem test_immediate_above_2047_refused : (Instr.addi 1 0 2048).wellFormed = false := by decide

theorem test_immediate_below_minus_2048_refused : (Instr.lw 1 0 (-2049)).wellFormed = false := by decide

theorem test_store_immediate_out_of_range_refused : (Instr.sb 1 0 2048).wellFormed = false := by decide

theorem test_branch_offset_out_of_range_refused : (Instr.bgeu 1 0 (-2049)).wellFormed = false := by decide

theorem test_shift_amount_32_refused : (Instr.slli 1 0 32).wellFormed = false := by decide

theorem test_u_immediate_out_of_range_refused : (Instr.lui 1 1048576).wellFormed = false := by decide

theorem test_uj_offset_out_of_range_refused :
    (Instr.jal 1 524288).wellFormed = false ∧ (Instr.jal 1 (-524289)).wellFormed = false := by decide

theorem test_range_ends_accepted :
    (Instr.addi 1 0 2047).wellFormed = true ∧ (Instr.addi 1 0 (-2048)).wellFormed = true ∧
    (Instr.slli 1 0 31).wellFormed = true ∧ (Instr.lui 1 1048575).wellFormed = true ∧
    (Instr.jal 1 524287).wellFormed = true ∧ (Instr.jal 1 (-524288)).wellFormed = true := by decide

/-- A program with an ill-formed record is refused at construction (R67). -/
theorem test_construct_refuses_ill_formed_record :
    constructionRefusal Params.example [.invalid 0#32, .instr (.addi 1 0 2048)] = some (.illFormedRecord 1) := by decide

/-- No cache set, no word a block (00_scope.md R9). -/
theorem test_construct_refuses_parameters :
    constructionRefusal ⟨16, 0, 2, 10⟩ [] = some .noCacheSets ∧
    constructionRefusal ⟨16, 4, 0, 10⟩ [] = some .noBlockWords := by decide

/-! ## Decoding: every constructor from a word written out field by field (30_encoding.md R71 to R78) -/

/-- imm[11:0] rs1 funct3 rd 0000011. -/
theorem test_decode_loads :
    decode 0b111111111111_00001_000_00010_0000011#32 = .instr (.lb 2 1 (-1)) ∧
    decode 0b000000000010_00000_001_00100_0000011#32 = .instr (.lh 4 0 2) ∧
    decode 0b000000000101_00000_010_00111_0000011#32 = .instr (.lw 7 0 5) ∧
    decode 0b100000000000_11111_100_00011_0000011#32 = .instr (.lbu 3 31 (-2048)) ∧
    decode 0b011111111111_00000_101_00101_0000011#32 = .instr (.lhu 5 0 2047) := by decide

/-- imm[11:0] rs1 funct3 rd 0010011. -/
theorem test_decode_alu_immediate :
    decode 0b000000000101_00000_000_00001_0010011#32 = .instr (.addi 1 0 5) ∧
    decode 0b100000000000_00001_010_00010_0010011#32 = .instr (.slti 2 1 (-2048)) ∧
    decode 0b111111111111_00001_011_00011_0010011#32 = .instr (.sltiu 3 1 (-1)) ∧
    decode 0b010101010101_00001_100_00010_0010011#32 = .instr (.xori 2 1 1365) ∧
    decode 0b000011110000_00001_110_00010_0010011#32 = .instr (.ori 2 1 240) ∧
    decode 0b000011111111_00001_111_00010_0010011#32 = .instr (.andi 2 1 255) := by decide

/-- funct7 shamt rs1 funct3 rd 0010011 (V101, V102). -/
theorem test_decode_shift_immediate :
    decode 0b0000000_11111_00001_001_00010_0010011#32 = .instr (.slli 2 1 31) ∧
    decode 0b0000000_11111_00010_101_00011_0010011#32 = .instr (.srli 3 2 31) ∧
    decode 0b0100000_11111_00010_101_00011_0010011#32 = .instr (.srai 3 2 31) := by decide

/-- funct7 rs2 rs1 funct3 rd 0110011. -/
theorem test_decode_alu_register :
    decode 0b0000000_00010_00001_000_00011_0110011#32 = .instr (.add 3 1 2) ∧
    decode 0b0100000_00010_00001_000_00011_0110011#32 = .instr (.sub 3 1 2) ∧
    decode 0b0000000_00010_00001_001_00011_0110011#32 = .instr (.sll 3 1 2) ∧
    decode 0b0000000_00010_00001_010_00011_0110011#32 = .instr (.slt 3 1 2) ∧
    decode 0b0000000_00010_00001_011_00011_0110011#32 = .instr (.sltu 3 1 2) ∧
    decode 0b0000000_00010_00001_100_00011_0110011#32 = .instr (.xor 3 1 2) ∧
    decode 0b0000000_00010_00001_101_00011_0110011#32 = .instr (.srl 3 1 2) ∧
    decode 0b0100000_00000_00001_101_00000_0110011#32 = .instr (.sra 0 1 0) ∧
    decode 0b0000000_00010_00001_110_00011_0110011#32 = .instr (.or 3 1 2) ∧
    decode 0b0000000_00010_00001_111_00011_0110011#32 = .instr (.and 3 1 2) := by decide

/-- imm[11:5] rs2 rs1 funct3 imm[4:0] 0100011 (V117). -/
theorem test_decode_stores :
    decode 0b0000000_00001_00000_000_00011_0100011#32 = .instr (.sb 0 1 3) ∧
    decode 0b1000000_00001_00010_001_00000_0100011#32 = .instr (.sh 2 1 (-2048)) ∧
    decode 0b1111111_00001_00000_010_11111_0100011#32 = .instr (.sw 0 1 (-1)) := by decide

/-- o[11] o[9:4] rs2 rs1 funct3 o[3:0] o[10] 1100011, unscaled (V97 to V99, D2). -/
theorem test_decode_branches :
    decode 0b1_000000_00000_00000_000_0000_0_1100011#32 = .instr (.beq 0 0 (-2048)) ∧
    decode 0b0_111111_00000_00000_000_1111_1_1100011#32 = .instr (.beq 0 0 2047) ∧
    decode 0b1_111111_00000_00001_001_1110_1_1100011#32 = .instr (.bne 1 0 (-2)) ∧
    decode 0b0_000000_00010_00001_100_0010_0_1100011#32 = .instr (.blt 1 2 2) ∧
    decode 0b0_000000_00010_00001_101_0000_1_1100011#32 = .instr (.bge 1 2 1024) ∧
    decode 0b0_000001_00010_00001_110_0000_0_1100011#32 = .instr (.bltu 1 2 16) ∧
    decode 0b0_000000_00000_00001_111_0111_0_1100011#32 = .instr (.bgeu 1 0 7) := by decide

/-- JALR, SCALL, the U format, and the UJ format o[19] o[9:0] o[10] o[18:11] rd 1101111 (V90 to V94, V100). -/
theorem test_decode_unsupported :
    decode 0b000000000000_00000_000_00001_1100111#32 = .instr (.jalr 1 0 0) ∧
    decode 0b000000000000_00000_000_00000_1110011#32 = .instr .scall ∧
    decode 0b00000000000000000001_00001_0110111#32 = .instr (.lui 1 1) ∧
    decode 0b11111111111111111111_00001_0010111#32 = .instr (.auipc 1 1048575) ∧
    decode 0b0_0000000110_0_00000000_00000_1101111#32 = .instr (.jal 0 6) ∧
    decode 0b1_1111111101_1_11111111_00001_1101111#32 = .instr (.jal 1 (-3)) ∧
    decode 0b0_0000000000_1_00000001_00000_1101111#32 = .instr (.jal 0 3072) := by decide

/-- V103, V105 to V108, V110. -/
theorem test_decode_invalid_words :
    decode 0x02001013#32 = .invalid 0x02001013#32 ∧ decode 0x40001033#32 = .invalid 0x40001033#32 ∧
    decode 0x02000033#32 = .invalid 0x02000033#32 ∧ decode 0x0000000F#32 = .invalid 0x0000000F#32 ∧
    decode 0x00100073#32 = .invalid 0x00100073#32 ∧ decode 0x00100173#32 = .invalid 0x00100173#32 := by decide

/-- V111 to V116. -/
theorem test_decode_invalid_words_of_unused_encodings :
    decode 0x00000000#32 = .invalid 0x00000000#32 ∧ decode 0xFFFFFFFF#32 = .invalid 0xFFFFFFFF#32 ∧
    decode 0x00003003#32 = .invalid 0x00003003#32 ∧ decode 0x00003023#32 = .invalid 0x00003023#32 ∧
    decode 0x00002063#32 = .invalid 0x00002063#32 ∧ decode 0x00001067#32 = .invalid 0x00001067#32 := by decide

/-- The words of V97, V100, V101 and V117 are what their instructions encode to. -/
theorem test_encode :
    encode (.beq 0 0 (-2048)) = 0x80000063#32 ∧ encode (.jal 0 6) = 0x00C0006F#32 ∧
    encode (.srai 3 2 31) = 0x41F15193#32 ∧ encode (.sw 0 1 (-1)) = 0xFE102FA3#32 := by decide

/-- The host's question: the instruction of a row's word, none for an invalid one. -/
theorem test_decodeTableWord :
    decodeTableWord 32 0x00500093 = some (.addi 1 0 5) ∧ decodeTableWord 32 0x0000000F = none := by decide

/-! ## One step: the vectors of 95_test_vectors.md -/

/-! ### ALU with immediate and shift-immediate (95_test_vectors.md section 2.2) -/

/-- V4: the destination is the source, the immediate is -2048. -/
theorem test_addi_most_negative_immediate :
    (after (core 0 1 0x80008093#32 [(1, 0x00001000#32)] [])).map (fun t => (t.readReg 1, t.run)) =
      some (0x00000800#32, .finished) := by decide

/-- V5: the write to X0 is discarded and logged as 0, 0. -/
theorem test_addi_to_x0_is_discarded : (after (core 0 1 0x00708013#32 [(1, 0x00000003#32)] [])).map State.log =
    some [.readRegister 1 0x00000003#32, .writeRegister 0 0x00000000#32 0x00000000#32, .jump 0 1] := by decide

/-- V9: the most negative word is less than -2048. -/
theorem test_slti_is_signed :
    (after (core 0 1 0x8000A113#32 [(1, 0x80000000#32)] [])).map (fun t => (t.readReg 2, t.run)) =
      some (0x00000001#32, .finished) := by decide

/-- V10: 0xFFFFFFFF is not less than 1. -/
theorem test_sltiu_is_unsigned :
    (after (core 0 1 0x0010B193#32 [(1, 0xFFFFFFFF#32)] [])).map (fun t => (t.readReg 3, t.run)) =
      some (0x00000000#32, .finished) := by decide

/-- V12: the immediate -1 is 0xFFFFFFFF (D4). -/
theorem test_sltiu_immediate_is_sign_extended :
    (after (core 0 1 0xFFF0B193#32 [(1, 0x00000005#32)] [])).map (fun t => (t.readReg 3, t.run)) =
      some (0x00000001#32, .finished) := by decide

/-- V13: the immediate -1 complements. -/
theorem test_xori_complement :
    (after (core 0 1 0xFFF0C113#32 [(1, 0x0000FFFF#32)] [])).map (fun t => (t.readReg 2, t.run)) =
      some (0xFFFF0000#32, .finished) := by decide

/-- V16: a negative immediate sets bits 31:4. -/
theorem test_ori_negative_immediate :
    (after (core 0 1 0xFF00E113#32 [(1, 0x00000001#32)] [])).map (fun t => (t.readReg 2, t.run)) =
      some (0xFFFFFFF1#32, .finished) := by decide

/-- V18: the immediate -2048 keeps bits 31:11. -/
theorem test_andi_negative_immediate :
    (after (core 0 1 0x8000F113#32 [(1, 0xFFFFFFFF#32)] [])).map (fun t => (t.readReg 2, t.run)) =
      some (0xFFFFF800#32, .finished) := by decide

/-- V19: shift amount 31. -/
theorem test_slli_by_31 :
    (after (core 0 1 0x01F09113#32 [(1, 0x00000001#32)] [])).map (fun t => (t.readReg 2, t.run)) =
      some (0x80000000#32, .finished) := by decide

/-- V21: zeros enter. -/
theorem test_srli_is_logical :
    (after (core 0 1 0x01C0D193#32 [(1, 0xFFFFFFF8#32)] [])).map (fun t => (t.readReg 3, t.run)) =
      some (0x0000000F#32, .finished) := by decide

/-- V24: the sign enters, shift amount 31. -/
theorem test_srai_is_arithmetic :
    (after (core 0 1 0x41F0D113#32 [(1, 0x80000000#32)] [])).map (fun t => (t.readReg 2, t.run)) =
      some (0xFFFFFFFF#32, .finished) := by decide

/-! ### Register-register ALU (section 2.3) -/

/-- V26: the sum wraps to 0; both sources are logged in order. -/
theorem test_add_wraps : (after (core 0 1 0x002081B3#32 [(1, 0xFFFFFFFF#32), (2, 0x00000001#32)] [])).map State.log =
    some [.readRegister 1 0xFFFFFFFF#32, .readRegister 2 0x00000001#32,
        .writeRegister 3 0x00000000#32 0x00000000#32, .jump 0 1] := by decide

/-- V28: 0 - 1. -/
theorem test_sub_wraps :
    (after (core 0 1 0x402081B3#32 [(1, 0x00000000#32), (2, 0x00000001#32)] [])).map (fun t => (t.readReg 3, t.run)) =
      some (0xFFFFFFFF#32, .finished) := by decide

/-- V31: the amount 33 shifts by 1 (D5). -/
theorem test_sll_amount_modulo_32 :
    (after (core 0 1 0x002091B3#32 [(1, 0x00000003#32), (2, 0x00000021#32)] [])).map (fun t => (t.readReg 3, t.run)) =
      some (0x00000006#32, .finished) := by decide

/-- V33: 0x80000000 is less than 0x7FFFFFFF. -/
theorem test_slt_is_signed :
    (after (core 0 1 0x0020A1B3#32 [(1, 0x80000000#32), (2, 0x7FFFFFFF#32)] [])).map (fun t => (t.readReg 3, t.run)) =
      some (0x00000001#32, .finished) := by decide

/-- V34: 0xFFFFFFFF is not less than 1. -/
theorem test_sltu_is_unsigned :
    (after (core 0 1 0x0020B1B3#32 [(1, 0xFFFFFFFF#32), (2, 0x00000001#32)] [])).map (fun t => (t.readReg 3, t.run)) =
      some (0x00000000#32, .finished) := by decide

/-- V36: bitwise. -/
theorem test_xor_bits :
    (after (core 0 1 0x0020C1B3#32 [(1, 0xF0F0F0F0#32), (2, 0xFF00FF00#32)] [])).map (fun t => (t.readReg 3, t.run)) =
      some (0x0FF00FF0#32, .finished) := by decide

/-- V38: the amount 32 shifts by 0 (D5). -/
theorem test_srl_amount_modulo_32 :
    (after (core 0 1 0x0020D1B3#32 [(1, 0x80000000#32), (2, 0x00000020#32)] [])).map (fun t => (t.readReg 3, t.run)) =
      some (0x80000000#32, .finished) := by decide

/-- V40: the amount 0xFFFFFFFF shifts by 31 (D5). -/
theorem test_sra_amount_modulo_32 :
    (after (core 0 1 0x4020D1B3#32 [(1, 0x80000000#32), (2, 0xFFFFFFFF#32)] [])).map (fun t => (t.readReg 3, t.run)) =
      some (0xFFFFFFFF#32, .finished) := by decide

/-- V41: bitwise. -/
theorem test_or_bits :
    (after (core 0 1 0x0020E1B3#32 [(1, 0xF0F0F0F0#32), (2, 0xFF00FF00#32)] [])).map (fun t => (t.readReg 3, t.run)) =
      some (0xFFF0FFF0#32, .finished) := by decide

/-- V43: the destination is the source, the other source is X0. -/
theorem test_and_destination_is_source :
    (after (core 0 1 0x0000F0B3#32 [(1, 0xFFFFFFFF#32)] [])).map (fun t => (t.readReg 1, t.run)) =
      some (0x00000000#32, .finished) := by decide

/-! ### Loads (section 2.4) -/

/-- V44: byte lane 1, a cold miss. -/
theorem test_lb_sign_extends_and_stalls : (after (core 0 1 0x00100103#32 [] [(0, 0x0000FF00#32)])).map State.log =
    some [.readRegister 0 0x00000000#32, .writeRegister 2 0x00000000#32 0xFFFFFFFF#32, .stall 10,
        .jump 0 1] := by decide

/-- V45: the block of word 0 is resident. -/
theorem test_lb_hit_has_no_stall : (after (warm (core 0 1 0x00100103#32 [] [(0, 0x0000FF00#32)]) 0)).map State.log =
    some [.readRegister 0 0x00000000#32, .writeRegister 2 0x00000000#32 0xFFFFFFFF#32, .jump 0 1] := by decide

/-- V49: the upper half-word, sign-extended. -/
theorem test_lh_upper_half :
    (after (core 0 1 0x00201203#32 [] [(0, 0x8000FFFF#32)])).map (fun t => (t.readReg 4, t.run)) =
      some (0xFFFF8000#32, .finished) := by decide

/-- V60: misaligned and out of bounds: alignment first (D7). -/
theorem test_lh_alignment_before_bounds : (after (core 0 1 0x04101203#32 [] [])).map (fun t => (t.run, t.pc, t.log)) =
    some (.halted .alignmentFault, 0,
      [.readRegister 0 0x00000000#32, .error]) := by decide

/-- V50: byte lane 1, zero-extended. -/
theorem test_lbu_zero_extends :
    (after (core 0 1 0x00104183#32 [] [(0, 0x0000FF00#32)])).map (fun t => (t.readReg 3, t.run)) =
      some (0x000000FF#32, .finished) := by decide

/-- V51: the upper half-word, zero-extended. -/
theorem test_lhu_zero_extends :
    (after (core 0 1 0x00205283#32 [] [(0, 0xFFFFFF00#32)])).map (fun t => (t.readReg 5, t.run)) =
      some (0x0000FFFF#32, .finished) := by decide

/-- V59: an odd address. -/
theorem test_lhu_odd_address : (after (core 0 1 0x00305203#32 [] [])).map (fun t => (t.run, t.pc, t.log)) =
    some (.halted .alignmentFault, 0,
      [.readRegister 0 0x00000000#32, .error]) := by decide

/-- V54: address 5 reads word 1 (D6). -/
theorem test_lw_low_bits_ignored :
    (after (core 0 1 0x00502383#32 [] [(1, 0xDEADBEEF#32)])).map (fun t => (t.readReg 7, t.run)) =
      some (0xDEADBEEF#32, .finished) := by decide

/-- V56: word 16 of 16. -/
theorem test_lw_first_inaccessible_word : (after (core 0 1 0x04002383#32 [] [])).map (fun t => (t.run, t.pc, t.log)) =
    some (.halted .invalidAddress, 0,
      [.readRegister 0 0x00000000#32, .error]) := by decide

/-! ### Stores (section 2.5) -/

/-- V65: byte lane 1; the read of the read-modify-write misses. -/
theorem test_sb_lane_1 :
    (after (core 0 1 0x001000A3#32 [(1, 0x000000AB#32)] [])).map (fun t => (t.mem.readWord 0, t.log)) =
    some (0x0000AB00#32,
      [.readRegister 0 0x00000000#32, .readRegister 1 0x000000AB#32, .writeMemory 0x00000001#32 .byte 0x00#8 0xAB#8,
        .stall 10, .jump 0 1]) := by decide

/-- V74: address 0xFFFFFFFF is inaccessible. -/
theorem test_sb_wraps_to_the_last_address :
    (after (core 0 1 0xFE100FA3#32 [(1, 0x00000001#32)] [])).map (fun t => (t.run, t.pc, t.log)) =
    some (.halted .invalidAddress, 0,
      [.readRegister 0 0x00000000#32, .readRegister 1 0x00000001#32, .error]) := by decide

/-- V68: the lower half-word, a hit. -/
theorem test_sh_lower_half :
    (after (warm (core 0 1 0x00101023#32 [(1, 0xABCD1234#32)] [(0, 0xFFFFFFFF#32)]) 0)).map (fun t => (t.mem.readWord 0, t.log)) =
    some (0xFFFF1234#32,
      [.readRegister 0 0x00000000#32, .readRegister 1 0xABCD1234#32,
        .writeMemory 0x00000000#32 .half 0xFFFF#16 0x1234#16, .jump 0 1]) := by decide

/-- V69: an odd address. -/
theorem test_sh_odd_address :
    (after (core 0 1 0x001010A3#32 [(1, 0x00000005#32)] [])).map (fun t => (t.run, t.pc, t.log)) =
    some (.halted .alignmentFault, 0,
      [.readRegister 0 0x00000000#32, .readRegister 1 0x00000005#32, .error]) := by decide

/-- V71: address 6 writes word 1 (D6); no stall. -/
theorem test_sw_low_bits_ignored :
    (after (core 0 1 0x00602323#32 [(6, 0x01020304#32)] [(1, 0xAAAAAAAA#32)])).map (fun t => (t.mem.readWord 1, t.log)) =
    some (0x01020304#32,
      [.readRegister 0 0x00000000#32, .readRegister 6 0x01020304#32,
        .writeMemory 0x00000006#32 .word 0xAAAAAAAA#32 0x01020304#32, .jump 0 1]) := by decide

/-- V73: word 16 of 16. -/
theorem test_sw_first_inaccessible_word :
    (after (core 0 1 0x04102023#32 [(1, 0x00000001#32)] [])).map (fun t => (t.run, t.pc, t.log)) =
    some (.halted .invalidAddress, 0,
      [.readRegister 0 0x00000000#32, .readRegister 1 0x00000001#32, .error]) := by decide

/-! ### Branches (section 2.6) -/

/-- V76: taken by 3 instructions. -/
theorem test_beq_taken : (after (core 4 10 0x00000363#32 [] [])).map (fun t => (t.pc, t.run)) =
    some (7, .ready) := by decide

/-- V79: taken backward to 0. -/
theorem test_bne_backward : (after (core 4 10 0xFE209CE3#32 [(1, 0x00000001#32)] [])).map (fun t => (t.pc, t.run)) =
    some (0, .ready) := by decide

/-- V78: equal: not taken. -/
theorem test_bne_falls_through : (after (core 4 10 0x00001363#32 [] [])).map (fun t => (t.pc, t.run)) =
    some (5, .ready) := by decide

/-- V81: equal: not taken. -/
theorem test_blt_equal_not_taken :
    (after (core 0 10 0x0020C263#32 [(1, 0x00000005#32), (2, 0x00000005#32)] [])).map (fun t => (t.pc, t.run)) =
    some (1, .ready) := by decide

/-- V80: -1 is less than 1. -/
theorem test_blt_is_signed :
    (after (core 0 10 0x0020C263#32 [(1, 0xFFFFFFFF#32), (2, 0x00000001#32)] [])).map (fun t => (t.pc, t.run)) =
    some (2, .ready) := by decide

/-- V83: equal: taken. -/
theorem test_bge_equal_taken :
    (after (core 0 10 0x0020D263#32 [(1, 0x00000005#32), (2, 0x00000005#32)] [])).map (fun t => (t.pc, t.run)) =
    some (2, .ready) := by decide

/-- V82: -1 is less than 1: not taken. -/
theorem test_bge_is_signed :
    (after (core 0 10 0x0020D263#32 [(1, 0xFFFFFFFF#32), (2, 0x00000001#32)] [])).map (fun t => (t.pc, t.run)) =
    some (1, .ready) := by decide

/-- V84: the opposite of BLT. -/
theorem test_bltu_is_unsigned :
    (after (core 0 10 0x0020E263#32 [(1, 0xFFFFFFFF#32), (2, 0x00000001#32)] [])).map (fun t => (t.pc, t.run)) =
    some (1, .ready) := by decide

/-- V85: the opposite of BGE. -/
theorem test_bgeu_is_unsigned :
    (after (core 0 10 0x0020F263#32 [(1, 0xFFFFFFFF#32), (2, 0x00000001#32)] [])).map (fun t => (t.pc, t.run)) =
    some (2, .ready) := by decide

/-- V86: target 9 of 4 instructions. -/
theorem test_bgeu_past_the_end_finishes :
    (after (core 2 4 0x0000F763#32 [(1, 0x00000000#32)] [])).map (fun t => (t.pc, t.run)) =
    some (9, .finished) := by decide

/-- V88: target -2 is refused after the two reads, `pc` 1 (D10). -/
theorem test_beq_negative_target_refused :
    (marked (core 1 3 0xFE000DE3#32 [] [])).map (fun t => (t.pc, t.log)) =
    some (1, [.readRegister 0 0x00000000#32, .readRegister 0 0x00000000#32]) := by decide

/-! ### Opcodes without semantics (section 2.7) and invalid words -/

/-- V90: one Error, no read. -/
theorem test_jalr_halts : (after (core 0 1 0x000000E7#32 [] [])).map (fun t => (t.run, t.pc, t.log)) =
    some (.halted .unsupportedInstruction, 0,
      [.error]) := by decide

/-- V91: one Error. -/
theorem test_scall_halts : (after (core 0 1 0x00000073#32 [] [])).map (fun t => (t.run, t.pc, t.log)) =
    some (.halted .unsupportedInstruction, 0,
      [.error]) := by decide

/-- V92: one Error. -/
theorem test_lui_halts : (after (core 0 1 0x000010B7#32 [] [])).map (fun t => (t.run, t.pc, t.log)) =
    some (.halted .unsupportedInstruction, 0,
      [.error]) := by decide

/-- V93: one Error. -/
theorem test_auipc_halts : (after (core 0 1 0x00001097#32 [] [])).map (fun t => (t.run, t.pc, t.log)) =
    some (.halted .unsupportedInstruction, 0,
      [.error]) := by decide

/-- V94: one Error. -/
theorem test_jal_halts : (after (core 0 1 0xFFBFF0EF#32 [] [])).map (fun t => (t.run, t.pc, t.log)) =
    some (.halted .unsupportedInstruction, 0,
      [.error]) := by decide

/-- V103: an invalid word raises UnsupportedInstruction (R167). -/
theorem test_invalid_word_halts : (after (core 0 1 0x02001013#32 [] [])).map (fun t => (t.run, t.log)) =
    some (.halted .unsupportedInstruction, [.error]) := by decide

/-! ### The value types (section 2.1, 40_value_types.md) -/

/-- T1, T5, T6, T7: sums and differences wrap. -/
theorem test_value_sums_wrap :
    ValueType.add .word 0xFFFFFFFF#32 1#32 = 0#32 ∧ ValueType.add .byte 0xFF#8 1#8 = 0#8 ∧
    ValueType.add .signedByte 0x7F#8 1#8 = 0x80#8 ∧ ValueType.sub .halfWord 0#16 1#16 = 0xFFFF#16 := by decide

/-- T9, T11, T12, T13: the amount is taken modulo the width, a signed type shifts arithmetically. -/
theorem test_value_shifts :
    ValueType.shl .word 3#32 33 = 6#32 ∧ ValueType.shr .signedWord 0x80000000#32 31 = 0xFFFFFFFF#32 ∧
    ValueType.shr .signedWord 0xFFFFFFF9#32 1 = 0xFFFFFFFC#32 ∧ ValueType.shr .byte 0x80#8 9 = 0x40#8 := by decide

/-- T19 to T26: conversions. -/
theorem test_value_conversions :
    asByte 0x12345678#32 = 0x78#8 ∧ asHalfWord 0x12345678#32 = 0x5678#16 ∧
    ValueType.convert .signedByte .word 0x80#8 = 0xFFFFFF80#32 ∧ ValueType.convert .byte .word 0x80#8 = 0x80#32 ∧
    ValueType.convert .signedByte .signedHalfWord 0xFE#8 = 0xFFFE#16 ∧
    ValueType.convert .halfWord .byte 0xABCD#16 = 0xCD#8 := by decide

/-- T27, T28: least significant byte first. -/
theorem test_as_bytes :
    asBytes 0x12345678#32 = [0x78#8, 0x56#8, 0x34#8, 0x12#8] ∧ asBytes 0xBEEF#16 = [0xEF#8, 0xBE#8] := by decide

/-! ### The cache (section 2.9) -/

/-- V118: word 1 is in the block a load of word 0 fills. -/
theorem test_load_fills_the_block :
    (after (core 0 1 0x00002083#32 [] [])).map State.lineTags = some [some 0, none, none, none] := by decide

/-- V120: word 8 is block 4, set 0, tag 1, and evicts block 0. -/
theorem test_load_evicts :
    (after (warm (core 0 1 0x02002103#32 [] []) 0)).map State.lineTags = some [some 1, none, none, none] := by decide

/-- V121: a word store allocates no line. -/
theorem test_word_store_does_not_allocate :
    (after (core 0 1 0x00002023#32 [] [])).map State.lineTags = some [none, none, none, none] := by decide

/-- V122, 20_memory.md R59: a word store to a resident block updates its line. -/
theorem test_word_store_updates_the_line :
    (after (warm (core 0 1 0x00102223#32 [(1, 7#32)] []) 0)).map State.cache =
      some [some ⟨0, [0#32, 7#32]⟩, none, none, none] := by decide

/-- V127 (D15): with three words of memory, the fill of block 1 fetches word 2 alone. -/
theorem test_fill_of_a_partial_block :
    (after { core 0 1 0x00802083#32 [] [(2, 9#32)] with params := ⟨3, 4, 2, 10⟩ }).map State.cache =
      some [none, some ⟨0, [9#32]⟩, none, none] := by decide

/-! ### Step back, terminal states and commands (sections 2.10, 2.11) -/

/-- V128. -/
theorem test_step_back_on_an_empty_log : stepBack (core 0 1 0x00500093#32 [] []) =
    (.emptyHistory, core 0 1 0x00500093#32 [] []) := by decide

/-- V129, its second step: the word and the run state come back. -/
theorem test_step_back_of_a_word_store :
    (after (core 1 2 0x00102123#32 [(1, 5#32)] [])).map (fun t =>
      ((stepBack t).1, (stepBack t).2.mem, (stepBack t).2.pc, (stepBack t).2.run)) = some (.ok, [], 1,
        .ready) := by decide

/-- V130, its second step: only byte 2 is restored. -/
theorem test_step_back_of_a_byte_store :
    (after (core 1 2 0x00100123#32 [(1, 0xFFFFFFFF#32)] [(0, 0x11223344#32)])).map (fun t =>
      (t.mem.readWord 0, (stepBack t).2.mem.readWord 0)) = some (0x11FF3344#32, 0x11223344#32) := by decide

/-- V131: a faulting step is not reversed. -/
theorem test_step_back_after_a_fault :
    (after (core 0 1 0x04002383#32 [] [])).map (fun t => ((stepBack t).1, decide ((stepBack t).2 = t))) =
      some (.nothingToReverse, true) := by decide

/-- V132: the step repeated after a step-back does not stall, for the cache is not restored. -/
theorem test_step_back_keeps_the_cache :
    ((after (core 0 1 0x00002083#32 [] [])).bind fun t => after (stepBack t).2).map State.log =
      some [.readRegister 0 0#32, .writeRegister 1 0#32 0#32, .jump 0 1] := by decide

/-- V133, V134: NotReady changes nothing. -/
theorem test_not_ready :
    stepCommand { core 0 1 0x00500093#32 [] [] with run := .finished } =
      .ok (.notReady, { core 0 1 0x00500093#32 [] [] with run := .finished }) := by rfl

/-- V136 (D24): with no memory every address is inaccessible. -/
theorem test_no_memory :
    (after { core 0 1 0x00000023#32 [] [] with params := ⟨0, 4, 2, 10⟩ }).map (fun t => (t.run, t.log)) =
      some (.halted .invalidAddress, [.readRegister 0 0#32, .readRegister 0 0#32, .error]) := by decide

/-- V135 (R28): an empty program is finished at construction. -/
theorem test_empty_program_is_finished : State.reset.run = .finished ∧ State.reset.pc = 0 := by decide

/-- The host's placing of an instruction at reset, and at a later `pc`. -/
theorem test_withFetchWord_runs_the_word :
    (after (State.reset.withFetchWord 32 0x00500093)).map (fun t => (t.readReg 1, t.pc)) = some (5#32, 1) ∧
    (after ({ State.reset with pc := 3 }.withFetchWord 32 0x00500093)).map (fun t => (t.readReg 1, t.pc)) =
      some (5#32, 4) := by decide

/-! ## Every hypothesis of every obligation can be met -/

/-- A cold cache and a canonical memory within the capacity meet the memory invariant. -/
theorem memoryInv_of_cold {s : State} (hp : s.params.WellFormed) (hm : s.mem.wf = true)
    (hb : ∀ cell ∈ s.mem, cell.1 < 4 * s.params.memWords)
    (hc : s.cache = List.replicate s.params.cacheSets none) : MemoryInv s := by
  refine ⟨hp, hm, hb, by simp [hc], ?_⟩
  intro set line h
  simp [hc, List.getElem?_replicate] at h

/-- A Ready core with an empty log meets the history invariant. -/
theorem historyInv_of_fresh {s : State} (hr : s.run = .ready) (hp : s.pc < s.program.length) (hl : s.log = []) :
    HistoryInv s := by
  refine ⟨fun _ => hp, fun h => ?_, fun _ _ => hp, ?_, ⟨[], [], by simp [hl], by simp, .inl rfl⟩, ?_⟩
  · rw [hr] at h; cases h
  · simp [hl, hr]
  · simp [hl]

/-- Two words of memory, the first and the last of the example configuration. -/
def sampleMem : Memory :=
  [(0, 0x44#8), (1, 0x33#8), (2, 0x22#8), (3, 0x11#8), (60, 0x01#8), (61, 0x7F#8), (62, 0xFF#8), (63, 0x80#8)]

/-- A Ready core with that memory, registers 1 and 2 set to all ones and 1, at `pc` 4 of 10. -/
def sample (w : Word) : State := { core 4 10 w [(1, 0xFFFFFFFF#32), (2, 1#32)] [] with mem := sampleMem }

theorem sample_memoryInv (w : Word) : MemoryInv (sample w) :=
  memoryInv_of_cold (show Params.example.WellFormed by decide) (show sampleMem.wf = true by decide)
    (show ∀ cell ∈ sampleMem, cell.1 < 64 by decide) rfl

theorem sample_historyInv (w : Word) : HistoryInv (sample w) :=
  historyInv_of_fresh rfl (by simp [sample, core, State.initial]) rfl

/-- The halted core after JALR as the only instruction. -/
def haltedSample : State :=
  { core 0 1 0x000000E7#32 [] [] with log := [.error], run := .halted .unsupportedInstruction }

theorem haltedSample_historyInv : HistoryInv haltedSample where
  ready h := by cases h
  finished h := by cases h
  halted _ _ := by decide
  errorLast := by simp [haltedSample]
  shape := ⟨[], [.error], rfl, by simp, .inr ⟨[], rfl, by decide, by simp⟩⟩
  reversible a ha := by
    simp only [haltedSample, List.mem_singleton] at ha
    subst ha; trivial

theorem witness_DecodeOfEncodeIsTheInstruction :
    (Instr.beq 31 0 (-2048)).wellFormed = true ∧ (Instr.jal 1 524287).wellFormed = true ∧
    (Instr.srai 3 2 31).wellFormed = true ∧ Instr.scall.wellFormed = true := by decide

theorem witness_EncodeOfDecodeIsTheWord : decode 0xFE102FA3#32 = .instr (.sw 0 1 (-1)) := by decide

/-- Both clauses: a word of the SRAI row, a word of no row. -/
theorem witness_DecodeFollowsTheOpcodeTable :
    (∃ row ∈ opcodeTable, 0x41F15193#32 &&& row.mask = row.pattern) ∧
    ∀ row ∈ opcodeTable, 0x02001013#32 &&& row.mask ≠ row.pattern := by decide

theorem witness_ShiftsMultiplyAndDivide :
    ValueType.byte.signedness = .unsigned ∧ ValueType.signedByte.signedness = .signed := by decide

theorem witness_BitwiseAndComparisonOperators :
    ValueType.word.signedness = .unsigned ∧ ValueType.signedWord.signedness = .signed := by decide

/-- Same width, narrower, wider from unsigned, wider from signed. -/
theorem witness_ConversionsFollowTheSource :
    ValueType.signedWord.bits ≤ ValueType.word.bits ∧ ValueType.byte.bits ≤ ValueType.word.bits ∧
    (ValueType.byte.bits < ValueType.word.bits ∧ ValueType.byte.signedness = .unsigned) ∧
    (ValueType.signedHalfWord.bits < ValueType.word.bits ∧ ValueType.signedHalfWord.signedness = .signed) := by decide

theorem witness_AsBytesIsLeastSignificantFirst :
    (sample 0x00000013#32).mem.wf = true ∧ 3 < (asBytes 0x12345678#32).length ∧ 0 < (asBytes 0x80#8).length := by decide

theorem witness_ValueTypeLaws :
    ValueType.byte.bits ≤ ValueType.word.bits ∧ ValueType.word.bits ≤ ValueType.signedWord.bits := by decide

theorem witness_X0IsAConstantZeroSink : (31 : Reg) ≠ 0 ∧ (0 : Reg) ≠ 31 := by decide

/-- A program with an instruction, and none. -/
theorem witness_ConstructionSetsEveryPieceOfState :
    State.construct Params.example [.instr (.addi 1 0 5)] =
      .ok (State.initial Params.example [.instr (.addi 1 0 5)]) ∧
    State.construct Params.example [] = .ok (State.initial Params.example []) ∧
    0 < [Record.instr (.addi 1 0 5)].length ∧ ([] : List Record).length = 0 := ⟨rfl, rfl, by decide, rfl⟩

/-- The four clauses: no set; a set and no block; all well-formed; the second of two records ill-formed. -/
theorem witness_ConstructionRefusesByName :
    (⟨16, 0, 2, 10⟩ : Params).cacheSets = 0 ∧
    ((⟨16, 1, 0, 10⟩ : Params).cacheSets ≠ 0 ∧ (⟨16, 1, 0, 10⟩ : Params).blockWords = 0) ∧
    ((⟨0, 1, 1, 0⟩ : Params).WellFormed ∧ ∀ r ∈ [Record.instr (.addi 1 0 2047), .invalid 0#32], r.wellFormed = true) ∧
    (Record.instr (.addi 1 0 2048)).wellFormed = false ∧ (Record.invalid 0#32).wellFormed = true := by decide

/-- A Ready core at its last instruction, and one at an invalid word. -/
theorem witness_StepRunsTheFetchedRecord :
    ((core 9 10 0x00500093#32 [] []).run = .ready ∧
      (core 9 10 0x00500093#32 [] []).pc < (core 9 10 0x00500093#32 [] []).program.length ∧
      (core 9 10 0x00500093#32 [] []).program[9]? = some (.instr (.addi 1 0 5))) ∧
    (core 0 1 0x0000000F#32 [] []).program[0]? = some (.invalid 0x0000000F#32) := by decide

theorem witness_StepRunsTheEncodedInstruction :
    (core 1 2 0x00500093#32 [] []).run = .ready ∧
    (core 1 2 0x00500093#32 [] []).program = programOfWords [0x00000013#32, 0x00500093#32] ∧
    [0x00000013#32, 0x00500093#32][1]? = some (encode (.addi 1 0 5)) ∧ (Instr.addi 1 0 5).wellFormed = true := by decide

theorem witness_StepIsRejectedUnlessReady : State.reset.run ≠ .ready ∧ haltedSample.run ≠ .ready := by decide

theorem witness_HaltedCoreStaysHalted :
    HistoryInv haltedSample ∧ haltedSample.run = .halted .unsupportedInstruction := ⟨haltedSample_historyInv, rfl⟩

/-- A step that completes, and a step that halts. -/
theorem witness_CommandsReportTheirResults :
    (∃ t, step (sample 0x00500093#32) = .next t ∧ t.run = .ready) ∧
    ∃ t, step (sample 0x000000E7#32) = .next t ∧ t.run = .halted .unsupportedInstruction :=
  ⟨⟨_, rfl, by decide⟩, ⟨_, rfl, by decide⟩⟩

/-- The immediates at both ends of the field: AddAndSetLessThanImmediateResults, LogicalImmediateResults, and the
range of BranchResults. -/
theorem witness_immediate_range :
    (-2048 ≤ (-2048 : Int) ∧ (-2048 : Int) ≤ 2047) ∧ -2048 ≤ (2047 : Int) ∧ (2047 : Int) ≤ 2047 := by decide

theorem witness_ShiftImmediateResults : 0 ≤ 31 ∧ 31 ≤ 31 := by decide

/-- The last accessible byte, the first inaccessible one, and the address below 0. -/
theorem witness_ByteLoadResults :
    (effectiveAddress (sample 0x00000013#32) 0 63).toNat / 4 < 16 ∧
    16 ≤ (effectiveAddress (sample 0x00000013#32) 0 64).toNat / 4 ∧
    16 ≤ (effectiveAddress (sample 0x00000013#32) 0 (-1)).toNat / 4 ∧
    (sample 0x00000013#32).params.memWords = 16 := by decide

/-- The last accessible half-word, odd addresses inside and outside, the first inaccessible half-word. -/
theorem witness_HalfWordLoadResults :
    ((effectiveAddress (sample 0x00000013#32) 0 62).toNat % 2 = 0 ∧
      (effectiveAddress (sample 0x00000013#32) 0 62).toNat / 4 < 16) ∧
    (effectiveAddress (sample 0x00000013#32) 0 63).toNat % 2 = 1 ∧
    (effectiveAddress (sample 0x00000013#32) 0 65).toNat % 2 = 1 ∧
    ((effectiveAddress (sample 0x00000013#32) 0 64).toNat % 2 = 0 ∧
      16 ≤ (effectiveAddress (sample 0x00000013#32) 0 64).toNat / 4) := by decide

/-- The last accessible word, aligned and not, and the first inaccessible one. -/
theorem witness_WordLoadResults :
    (effectiveAddress (sample 0x00000013#32) 0 60).toNat / 4 < 16 ∧
    (effectiveAddress (sample 0x00000013#32) 0 63).toNat / 4 < 16 ∧
    16 ≤ (effectiveAddress (sample 0x00000013#32) 0 64).toNat / 4 := by decide

/-- A miss with a latency, a miss with none, and a hit; a word of another set, and another block of the same set. -/
theorem witness_LoadsLogAndFillTheCache :
    MemoryInv (sample 0x00000013#32) ∧ ¬Resident (sample 0x00000013#32) 0 ∧
    0 < (sample 0x00000013#32).params.fillLatency ∧
    (MemoryInv { sample 0x00000013#32 with params := ⟨16, 4, 2, 0⟩ } ∧
      ¬Resident { sample 0x00000013#32 with params := ⟨16, 4, 2, 0⟩ } 0) ∧
    (MemoryInv (warm (sample 0x00000013#32) 0) ∧ Resident (warm (sample 0x00000013#32) 0) 0) ∧
    (Instr.lh 4 0 2).access = some (.half, 0, 2) ∧
    Instr.lh 4 0 2 ∈ [Instr.lb 4 0 2, .lbu 4 0 2, .lh 4 0 2, .lhu 4 0 2, .lw 4 0 2] ∧
    (effectiveAddress (sample 0x00000013#32) 0 2).toNat % 2 = 0 ∧
    (effectiveAddress (sample 0x00000013#32) 0 2).toNat / 4 < 16 ∧
    2 / 2 % 4 ≠ 0 / 2 % 4 ∧ 8 / 2 % 4 = 0 / 2 % 4 := by
  refine ⟨sample_memoryInv _, ?_, by decide, ⟨memoryInv_of_cold (by decide) (by rfl) (by decide) rfl, ?_⟩,
    ⟨(sample_memoryInv _).cacheRead 0, ?_⟩, rfl, by simp, by decide, by decide, by decide, by decide⟩
  · rw [not_resident_iff]; decide
  · rw [not_resident_iff]; decide
  · rw [resident_iff]; exact ⟨_, rfl⟩

/-- Stores: canonical memory; the address clauses are those of the loads' witnesses. -/
theorem witness_stores : (sample 0x00000013#32).mem.wf = true ∧ (sample 0x00000013#32).params.memWords = 16 := by decide

/-- The sub-word stores' premises: word 15 is accessible and cold; word 0 is resident in the warm state. -/
theorem witness_SubWordStoresLogAndFillTheCache :
    MemoryInv (sample 0x00000013#32) ∧ (effectiveAddress (sample 0x00000013#32) 0 62).toNat / 4 < 16 ∧
    (effectiveAddress (sample 0x00000013#32) 0 62).toNat % 2 = 0 ∧ ¬Resident (sample 0x00000013#32) 15 ∧
    MemoryInv (warm (sample 0x00000013#32) 0) ∧ Resident (warm (sample 0x00000013#32) 0) 0 := by
  refine ⟨sample_memoryInv _, by decide, by decide, ?_, (sample_memoryInv _).cacheRead 0, ?_⟩
  · rw [not_resident_iff]; decide
  · rw [resident_iff]; exact ⟨_, rfl⟩

/-- SW x1, 60(x0), then loads at byte 3 and half-word 2 of that word. -/
theorem witness_LoadSeesTheStoredWord :
    (sample 0x00000013#32).mem.wf = true ∧ (effectiveAddress (sample 0x00000013#32) 0 60).toNat / 4 < 16 ∧
    ∃ t, exec (.sw 0 1 60) (sample 0x00000013#32) = .next t ∧ (3 : Reg) ≠ 0 ∧
      (effectiveAddress t 0 63).toNat / 4 = (effectiveAddress (sample 0x00000013#32) 0 60).toNat / 4 ∧
      (effectiveAddress t 0 62).toNat / 4 = (effectiveAddress (sample 0x00000013#32) 0 60).toNat / 4 ∧
      (effectiveAddress t 0 62).toNat % 2 = 0 :=
  ⟨by decide, by decide, _, rfl, by decide, by decide, by decide, by decide⟩

/-- Each comparison holding and not holding; the least target that is not negative, 0, from `pc` 4. -/
theorem witness_BranchResults :
    let s := sample 0x00000013#32
    0 ≤ (s.pc : Int) + -4 ∧
    (s.readReg 0 = s.readReg 0 ∧ ¬s.readReg 1 = s.readReg 2) ∧ (s.readReg 1 ≠ s.readReg 2 ∧
    ¬s.readReg 0 ≠ s.readReg 0) ∧
    ((s.readReg 1).toInt < (s.readReg 2).toInt ∧ ¬(s.readReg 1).toInt < (s.readReg 1).toInt) ∧
    ((s.readReg 1).toInt ≥ (s.readReg 1).toInt ∧ ¬(s.readReg 1).toInt ≥ (s.readReg 2).toInt) ∧
    ((s.readReg 2).toNat < (s.readReg 1).toNat ∧ ¬(s.readReg 1).toNat < (s.readReg 1).toNat) ∧
    ((s.readReg 1).toNat ≥ (s.readReg 1).toNat ∧ ¬(s.readReg 2).toNat ≥ (s.readReg 1).toNat) := by decide

/-- The greatest negative target, -1, from `pc` 4, taken by BEQ. -/
theorem witness_OnlyNegativeTargetsAreRefused :
    ((sample 0x00000013#32).pc : Int) + -5 < 0 ∧
    ∃ t, exec (.beq 0 0 (-5)) (sample 0x00000013#32) = .refused (.negativeBranchTarget t) := ⟨by decide, _, rfl⟩

theorem witness_InvalidWordHalts :
    (core 0 1 0x0000000F#32 [] []).run = .ready ∧
    (core 0 1 0x0000000F#32 [] []).program = programOfWords [0x0000000F#32] ∧
    [0x0000000F#32][0]? = some 0x0000000F#32 ∧
    ∀ row ∈ opcodeTable, 0x0000000F#32 &&& row.mask ≠ row.pattern := by decide

/-- AlignmentAndAccessibility: an odd half-word, a byte beyond the memory at an odd address, the last word. -/
theorem witness_AlignmentAndAccessibility :
    let s := sample 0x00000013#32
    (s.run = .ready ∧ (Instr.sh 0 1 65).access = some (.half, 0, 65) ∧ (effectiveAddress s 0 65).toNat % 2 = 1) ∧
    ((Instr.lb 1 0 65).access = some (.byte, 0, 65) ∧ ∃ t, exec (.lb 1 0 65) s = .next t) ∧
    ((Instr.sw 0 1 60).access = some (.word, 0, 60) ∧ ∃ t, exec (.sw 0 1 60) s = .next t ∧ t.run = .ready) :=
  ⟨by decide, ⟨rfl, _, rfl⟩, ⟨rfl, _, rfl, by decide⟩⟩

/-- FaultingStepChangesNothingElse and FaultsAreExactlyThese: one step for each kind, and one with none. -/
theorem witness_faults :
    (sample 0x00000013#32).run = .ready ∧
    (∃ t, exec (.lw 1 0 64) (sample 0x00000013#32) = .next t ∧ t.run = .halted .invalidAddress) ∧
    (∃ t, exec (.sh 0 1 65) (sample 0x00000013#32) = .next t ∧ t.run = .halted .alignmentFault) ∧
    (∃ t, exec (.lui 1 1) (sample 0x00000013#32) = .next t ∧ t.run = .halted .unsupportedInstruction) ∧
    ∃ t, exec (.sw 0 1 60) (sample 0x00000013#32) = .next t ∧ t.run = .ready :=
  ⟨by decide, ⟨_, rfl, by decide⟩, ⟨_, rfl, by decide⟩, ⟨_, rfl, by decide⟩, ⟨_, rfl, by decide⟩⟩

/-- StepAppendsOneRecord and EffectsAndStallsAreLogged: a store that stalls, an addition, and a branch. -/
theorem witness_StepAppendsOneRecord :
    (∃ t, exec (.sb 0 1 1) (sample 0x00000013#32) = .next t ∧ (∀ kind, t.run ≠ .halted kind) ∧
      (Instr.sb 0 1 1).isStore = true ∧ (Instr.sb 0 1 1).access = some (.byte, 0, 1)) ∧
    (∃ t, exec (.add 3 1 2) (sample 0x00000013#32) = .next t ∧ (∀ kind, t.run ≠ .halted kind) ∧
      (Instr.add 3 1 2).destination = some 3 ∧ (Instr.add 3 1 2).access = none) ∧
    ∃ t, exec (.beq 0 0 (-4)) (sample 0x00000013#32) = .next t ∧ (∀ kind, t.run ≠ .halted kind) ∧
      (Instr.beq 0 0 (-4)).isBranch = true := by
  refine ⟨⟨_, rfl, fun kind h => ?_, rfl, rfl⟩, ⟨_, rfl, fun kind h => ?_, rfl, rfl⟩, ⟨_, rfl, fun kind h => ?_, rfl⟩⟩ <;>
    cases h

/-- InstructionFrame: a next state of a load (no store), of a half-word and a word store, of an
addition. -/
theorem witness_InstructionFrame :
    (∃ t, exec (.lb 3 0 63) (sample 0x00000013#32) = .next t) ∧ (Instr.lb 3 0 63).destination ≠ some 4 ∧
    (Instr.lb 3 0 63).isStore = false ∧ (sample 0x00000013#32).mem.wf = true ∧
    (∃ t, exec (.sh 0 1 62) (sample 0x00000013#32) = .next t) ∧ (Instr.sh 0 1 62).access = some (.half, 0, 62) ∧
    (∃ t, exec (.sw 0 1 63) (sample 0x00000013#32) = .next t) ∧ (Instr.sw 0 1 63).access = some (.word, 0, 63) ∧
    (∃ t, exec (.add 3 1 2) (sample 0x00000013#32) = .next t) ∧ (Instr.add 3 1 2).access = none :=
  ⟨⟨_, rfl⟩, by decide, by decide, by decide, ⟨_, rfl⟩, by decide, ⟨_, rfl⟩, by decide, ⟨_, rfl⟩, by decide⟩

/-- ProgramIsImmutable and the two step invariants: a step that has a next state, from a state with both invariants. -/
theorem witness_step_invariants :
    MemoryInv (sample 0x001000A3#32) ∧ HistoryInv (sample 0x001000A3#32) ∧ ∃ t, step (sample 0x001000A3#32) = .next t :=
  ⟨sample_memoryInv _, sample_historyInv _, _, rfl⟩

/-- A cold state and the same with a resident block, another fill latency and a Stall in its log; a step of them, one
that is refused, and the fault of a core that is not Ready. -/
theorem witness_StallTimingChangesNoValue :
    SameButTiming (sample 0x00002083#32)
      { warm (sample 0x00002083#32) 0 with params := ⟨16, 8, 1, 3⟩, log := [.stall 10] } ∧
    (∃ t, step (sample 0x00002083#32) = .next t) ∧
    (∃ r, step (core 0 1 0xFE000FE3#32 [] []) = .refused r) ∧ step State.reset = .fault .notReady :=
  ⟨⟨rfl, rfl, rfl, rfl, rfl, rfl, rfl⟩, ⟨_, rfl⟩, ⟨_, rfl⟩, rfl⟩

/-- StepBackKeepsInvariants and StepThenStepBackRestores: a byte store that misses, taken back. -/
theorem witness_StepThenStepBackRestores :
    MemoryInv (sample 0x001000A3#32) ∧ HistoryInv (sample 0x001000A3#32) ∧
    ∃ t, step (sample 0x001000A3#32) = .next t ∧ ∀ kind, t.run ≠ .halted kind := by
  refine ⟨sample_memoryInv _, sample_historyInv _, _, rfl, ?_⟩
  intro kind h; cases h

theorem witness_ConstructionEstablishesInvariants :
    State.construct ⟨0, 1, 1, 0⟩ [.instr .scall] = .ok (State.initial ⟨0, 1, 1, 0⟩ [.instr .scall]) := rfl

theorem witness_StepBackWithoutHistoryIsANoOp :
    (sample 0x00000013#32).log = [] ∧ haltedSample.log.getLast? = some .error := by decide

end Sys2Proof.Tests
end

/-! The proofs of the statements of 10_state.md: the history invariant, the frame of an instruction, the program,
registers, construction and commands. -/

namespace Sys2Proof.Machine

/-! ## The shape of the log (41_dispatch.md R112) -/

/-- A step record ends in its Jump, so a log that ends in one does not end in Error. -/
theorem IsStepRecord.getLast?_append_ne_error {record : List Action} (h : IsStepRecord record) (log : List Action) :
    (log ++ record).getLast? ≠ some .error := by
  obtain ⟨reads, effect, stall, pcBefore, pcAfter, rfl, -⟩ := h
  simp [← List.append_assoc]

/-- A log that does not end in Error holds step records only. -/
theorem LogShape.exists_records {log : List Action} (h : LogShape log) (he : log.getLast? ≠ some .error) :
    ∃ records : List (List Action), log = records.flatten ∧ ∀ r ∈ records, IsStepRecord r := by
  obtain ⟨records, fault, rfl, hrecords, rfl | ⟨reads, rfl, -⟩⟩ := h
  · exact ⟨records, List.append_nil _, hrecords⟩
  · simp [← List.append_assoc] at he

theorem LogShape.append_record {log record : List Action} (h : LogShape log) (he : log.getLast? ≠ some .error)
    (hr : IsStepRecord record) : LogShape (log ++ record) := by
  obtain ⟨records, rfl, hrecords⟩ := h.exists_records he
  exact ⟨records ++ [record], [], by simp, by simpa [or_imp, forall_and] using ⟨hrecords, hr⟩, .inl rfl⟩

theorem LogShape.append_fault {log fault : List Action} (h : LogShape log) (he : log.getLast? ≠ some .error)
    (hf : IsFaultRecord fault) : LogShape (log ++ fault) := by
  obtain ⟨records, rfl, hrecords⟩ := h.exists_records he
  exact ⟨records, fault, rfl, hrecords, .inr hf⟩

/-- `Reversible` looks at the parameters and the program only. -/
theorem Reversible.congr {s t : State} {a : Action} (hparams : t.params = s.params) (hprogram : t.program = s.program)
    (h : Reversible s a) : Reversible t a := by
  unfold Reversible at h ⊢
  rwa [hparams, hprogram]

/-! ## The parts of a record -/

theorem sources_length_le_two (i : Instr) : i.sources.length ≤ 2 := by
  cases i <;> simp [Instr.sources]

theorem isReads_readEntries (s : State) {sources : List Reg} (h : sources.length ≤ 2) :
    IsReads (readEntries s sources) := by
  refine ⟨by simpa [readEntries] using h, fun a ha => ?_⟩
  obtain ⟨r, -, rfl⟩ := List.mem_map.1 ha
  exact ⟨r, s.readReg r, rfl⟩

theorem reversible_of_mem_readEntries {s : State} {sources : List Reg} {a : Action}
    (h : a ∈ readEntries s sources) : Reversible s a := by
  obtain ⟨r, -, rfl⟩ := List.mem_map.1 h
  trivial

/-- What a step logs last: at most one Stall, then the Jump (R108, R109). -/
theorem tailEntries_eq (latency pcBefore pcAfter : Nat) :
    ∃ stall, IsStall stall ∧ tailEntries latency pcBefore pcAfter = stall ++ [.jump pcBefore pcAfter] := by
  by_cases h : 0 < latency
  · exact ⟨[.stall latency], .inr ⟨latency, h, rfl⟩, tailEntries_pos h _ _⟩
  · obtain rfl : latency = 0 := by omega
    exact ⟨[], .inl rfl, rfl⟩

theorem reversible_of_mem_tailEntries {s : State} {latency pcAfter : Nat} {a : Action} (hpc : s.pc < s.program.length)
    (h : a ∈ tailEntries latency s.pc pcAfter) : Reversible s a := by
  obtain ⟨stall, hstall, heq⟩ := tailEntries_eq latency s.pc pcAfter
  rw [heq, List.mem_append, List.mem_singleton] at h
  obtain h | rfl := h
  · obtain rfl | ⟨c, -, rfl⟩ := hstall
    · cases h
    · obtain rfl := List.mem_singleton.1 h
      trivial
  · exact hpc

/-! ## What a step does to run state, pc and log -/

/-- A completed step as the history sees it: it logs the step record `record`, which step-back can reverse, and goes
on at the next `pc` (41_dispatch.md R105 to R112). -/
structure LogsRecord (s t : State) (record : List Action) : Prop where
  continues : Continues s t t.pc
  log : t.log = s.log ++ record
  isRecord : IsStepRecord record
  reversible : ∀ a ∈ record, Reversible s a

/-- Retiring from a state `u` that has logged its reads and its effect and has kept `pc`, run state, parameters and
program completes a step record. -/
theorem logsRecord_retireTo {s u : State} {sources : List Reg} {effect : List Action} (latency npc : Nat)
    (hpc : s.pc < s.program.length) (hs : sources.length ≤ 2) (he : IsEffect effect)
    (hrev : ∀ a ∈ effect, Reversible s a) (hlog : u.log = s.log ++ readEntries s sources ++ effect)
    (hupc : u.pc = s.pc) (hrun : u.run = s.run) (hparams : u.params = s.params) (hprogram : u.program = s.program) :
    LogsRecord s (u.retireTo latency npc) (readEntries s sources ++ effect ++ tailEntries latency s.pc npc) where
  continues := ⟨rfl, by rw [State.retireTo_run, hrun, hprogram]; rfl, hparams, hprogram⟩
  log := by simp [hlog, hupc]
  isRecord := by
    obtain ⟨stall, hstall, heq⟩ := tailEntries_eq latency s.pc npc
    exact ⟨readEntries s sources, effect, stall, s.pc, npc, by simp [heq], isReads_readEntries s hs, he, hstall⟩
  reversible a ha := by
    rw [List.mem_append, List.mem_append] at ha
    obtain (ha | ha) | ha := ha
    · exact reversible_of_mem_readEntries ha
    · exact hrev a ha
    · exact reversible_of_mem_tailEntries hpc ha

/-- A next state of `exec` has completed a step record or has halted with a fault. -/
theorem exec_logsRecord_or_faults {i : Instr} {s t : State} (hpc : s.pc < s.program.length)
    (h : exec i s = .next t) :
    (∃ record, LogsRecord s t record) ∨ ∃ kind, Faults s t i.sources kind := by
  have hs := sources_length_le_two i
  cases exec_shape h with
  | compute rd v _ _ _ ht =>
    subst ht
    exact .inl ⟨_, logsRecord_retireTo _ _ hpc hs (.inr (.inl ⟨_, _, _, rfl⟩)) (by simp [Reversible])
      rfl rfl rfl rfl rfl⟩
  | load rd n sg rs1 imm _ _ _ _ ht =>
    subst ht
    exact .inl ⟨_, logsRecord_retireTo _ _ hpc hs (.inr (.inl ⟨_, _, _, rfl⟩)) (by simp [Reversible])
      rfl rfl rfl rfl rfl⟩
  | store n rs1 imm v _ _ _ hc ht =>
    subst ht
    exact .inl ⟨_, logsRecord_retireTo _ _ hpc hs (.inr (.inr ⟨_, _, _, _, rfl⟩)) (by simpa [Reversible] using hc)
      rfl rfl rfl rfl rfl⟩
  | branch npc _ _ _ ht =>
    subst ht
    exact .inl ⟨_, logsRecord_retireTo _ _ hpc hs (.inl rfl) (by simp) (by simp [logReads_eq]) rfl rfl rfl rfl⟩
  | fault kind _ ht => exact .inr ⟨kind, ht⟩

/-- A next state of `step` has completed a step record or has halted with a fault. -/
theorem step_logsRecord_or_faults {s t : State} (hpc : s.pc < s.program.length) (h : step s = .next t) :
    (∃ record, LogsRecord s t record) ∨ ∃ sources kind, sources.length ≤ 2 ∧ Faults s t sources kind := by
  obtain ⟨-, ⟨i, -, hi⟩ | ⟨w, -, ht⟩⟩ := step_cases h
  · obtain hrecord | ⟨kind, hfault⟩ := exec_logsRecord_or_faults hpc hi
    · exact .inl hrecord
    · exact .inr ⟨i.sources, kind, sources_length_le_two i, hfault⟩
  · exact .inr ⟨[], .unsupportedInstruction, by simp, ht⟩

/-! ## The history invariant -/

/-- In a Ready core with the invariant the log does not end in Error. -/
theorem HistoryInv.log_not_error {s : State} (h : HistoryInv s) (hr : s.run = .ready) :
    s.log.getLast? ≠ some .error := by
  simp [h.errorLast, hr]

/-- A completed step keeps the invariant: the run state is Finished exactly if `pc` has left the program (R27, R110). -/
theorem HistoryInv.of_logsRecord {s t : State} {record : List Action} (h : HistoryInv s) (hr : s.run = .ready)
    (hstep : LogsRecord s t record) : HistoryInv t := by
  obtain ⟨⟨-, hrun, hparams, hprogram⟩, hlog, hrecord, hrev⟩ := hstep
  rw [hr] at hrun
  have hlast : t.log.getLast? ≠ some .error := hlog ▸ hrecord.getLast?_append_ne_error s.log
  have hnot : ∀ kind, t.run ≠ .halted kind := by
    intro kind; rw [hrun]; split <;> simp
  exact {
    ready := fun hready => by
      rw [hprogram]
      by_contra hlt
      rw [hready, if_pos (Nat.le_of_not_lt hlt)] at hrun
      cases hrun
    finished := fun hfin => by
      rw [hprogram]
      by_contra hle
      rw [hfin, if_neg hle] at hrun
      cases hrun
    halted := fun kind hh => absurd hh (hnot kind)
    errorLast := iff_of_false hlast fun ⟨kind, hh⟩ => hnot kind hh
    shape := hlog ▸ h.shape.append_record (h.log_not_error hr) hrecord
    reversible := fun a ha => by
      rw [hlog, List.mem_append] at ha
      exact (ha.elim (h.reversible a) (hrev a)).congr hparams hprogram }

/-- A faulting step of a Ready core keeps the invariant: `pc` stays and one fault record is logged (R27, R111). -/
theorem HistoryInv.of_faults {s t : State} {sources : List Reg} {kind : FaultKind} (h : HistoryInv s)
    (hr : s.run = .ready) (hs : sources.length ≤ 2) (hf : Faults s t sources kind) : HistoryInv t := by
  subst hf
  exact {
    ready := fun hready => by cases hready
    finished := fun hfin => by cases hfin
    halted := fun _ _ => h.ready hr
    errorLast := iff_of_true (by simp) ⟨kind, rfl⟩
    shape := by
      rw [List.append_assoc]
      exact h.shape.append_fault (h.log_not_error hr) ⟨_, rfl, isReads_readEntries s hs⟩
    reversible := fun a ha => by
      rw [List.mem_append, List.mem_append, List.mem_singleton] at ha
      obtain (ha | ha) | rfl := ha
      · exact (h.reversible a ha).congr rfl rfl
      · exact (reversible_of_mem_readEntries ha).congr rfl rfl
      · trivial }

/-- Settles O47: a Ready core's step completes one step record or logs one fault record, and each keeps the
invariant. -/
theorem stepKeepsHistoryInvariant : Obligations.StepKeepsHistoryInvariant := by
  intro s t h hstep
  have hr : s.run = .ready := (step_cases hstep).1
  obtain ⟨record, hrecord⟩ | ⟨sources, kind, hs, hf⟩ := step_logsRecord_or_faults (h.ready hr) hstep
  · exact h.of_logsRecord hr hrecord
  · exact h.of_faults hr hs hf

/-! ## The frame of an instruction -/

theorem exec_program_params {i : Instr} {s t : State} (h : exec i s = .next t) :
    t.program = s.program ∧ t.params = s.params := by
  cases exec_shape h <;> (subst_vars; exact ⟨rfl, rfl⟩)

/-- Only the destination register changes (10_state.md R18). -/
theorem exec_readReg_of_ne_destination {i : Instr} {s t : State} (h : exec i s = .next t) {r : Reg}
    (hr : i.destination ≠ some r) : t.readReg r = s.readReg r := by
  have hwrite (u : State) {rd : Reg} (hd : i.destination = some rd) (v : Word) :
      (u.writeDest rd v).readReg r = u.readReg r := by
    have hne : r ≠ rd := fun e => hr (e ▸ hd)
    simp [hne]
  cases exec_shape h with
  | compute rd v hd _ _ ht => subst ht; exact hwrite _ hd v
  | load rd n sg rs1 imm hd _ _ _ ht => subst ht; exact hwrite _ hd _
  | store _ _ _ _ _ _ _ _ ht => subst ht; rfl
  | branch _ _ _ _ ht => subst ht; rfl
  | fault _ _ ht => subst ht; rfl

/-- An instruction leaves memory as it is, or is a store and has written its word (10_state.md R32,
45_stores.md R147). -/
theorem exec_mem {i : Instr} {s t : State} (h : exec i s = .next t) :
    t.mem = s.mem ∨ i.isStore = true ∧ ∃ n rs1 imm v, i.access = some (n, rs1, imm) ∧
      checkAccess s.params (effectiveAddress s rs1 imm) n = none ∧
      t.mem = s.mem.writeWord (accessIndex s rs1 imm) (storedWord s (effectiveAddress s rs1 imm) n v) := by
  cases exec_shape h with
  | compute _ _ _ _ _ ht => subst ht; exact .inl rfl
  | load _ _ _ _ _ _ _ _ _ ht => subst ht; exact .inl rfl
  | store n rs1 imm v hd ha _ hc ht =>
    subst ht
    exact .inr ⟨by simp [Instr.isStore, hd, ha], n, rs1, imm, v, ha, hc, rfl⟩
  | branch _ _ _ _ ht => subst ht; exact .inl rfl
  | fault _ _ ht => subst ht; exact .inl rfl

/-- An instruction without a memory access leaves the cache as it is (10_state.md R33). -/
theorem exec_cache_of_no_access {i : Instr} {s t : State} (h : exec i s = .next t) (ha : i.access = none) :
    t.cache = s.cache := by
  cases exec_shape h with
  | compute _ _ _ _ _ ht => subst ht; rfl
  | load _ _ _ _ _ _ hsome _ _ _ => rw [ha] at hsome; cases hsome
  | store _ _ _ _ _ hsome _ _ _ => rw [ha] at hsome; cases hsome
  | branch _ _ _ _ ht => subst ht; rfl
  | fault _ _ ht => subst ht; rfl

/-- The address of the first byte of an access: a word access ignores the low address bits (D6). -/
def accessStart (addr : Word) (n : Width) : Nat := if n = .word then 4 * (addr.toNat / 4) else addr.toNat

/-- A store's read-modify-write leaves every byte outside its access as it was (20_memory.md R52). -/
theorem readByte_writeWord_storedWord {s : State} (hm : s.mem.wf = true) (addr : Word) {n : Width} (v : BitVec n.bits)
    (hc : checkAccess s.params addr n = none) {a : Nat}
    (ha : a < accessStart addr n ∨ accessStart addr n + n.bytes ≤ a) :
    (s.mem.writeWord (wordIndex addr) (storedWord s addr n v)).readByte a = s.mem.readByte a := by
  have hdiv : 4 * wordIndex addr + addr.toNat % 4 = addr.toNat := Nat.div_add_mod _ 4
  have hlane := laneBit_fits hc
  cases n with
  | byte =>
    refine (readByte_replaced hm (wordIndex addr) (addr.toNat % 4) (n := 1) v (by omega)).2 a ?_
    rwa [hdiv]
  | half =>
    have hfit : addr.toNat % 4 + 2 ≤ 4 := by simp only [laneBit, Width.bits] at hlane; omega
    refine (readByte_replaced hm (wordIndex addr) (addr.toNat % 4) (n := 2) v hfit).2 a ?_
    rwa [hdiv]
  | word => exact (readByte_replaced hm (wordIndex addr) 0 (n := 4) v (by omega)).2 a ha

/-- Settles O43: the clauses are the frame lemmas above; a store's bytes are those of its read-modify-write. -/
theorem instructionFrame : Obligations.InstructionFrame := by
  intro i s t h
  refine ⟨fun r => exec_readReg_of_ne_destination h, fun hstore a => ?_, fun hm n rs1 imm ha => ?_,
    exec_cache_of_no_access h, exec_program_params h⟩
  · obtain hmem | ⟨hs, -⟩ := exec_mem h
    · rw [hmem]
    · rw [hstore] at hs; cases hs
  · intro addr start a houtside
    obtain hmem | ⟨-, n', rs1', imm', v, ha', hc, hmem⟩ := exec_mem h
    · rw [hmem]
    · rw [ha] at ha'
      cases ha'
      rw [hmem]
      exact readByte_writeWord_storedWord hm _ v hc houtside

/-! ## The program and the parameters -/

theorem step_program_params {s t : State} (h : step s = .next t) : t.program = s.program ∧ t.params = s.params := by
  obtain ⟨-, ⟨i, -, hi⟩ | ⟨w, -, rfl⟩⟩ := step_cases h
  · exact exec_program_params hi
  · exact ⟨rfl, rfl⟩

theorem foldl_undoAction_program_params (entries : List Action) (s : State) :
    (entries.foldl undoAction s).program = s.program ∧ (entries.foldl undoAction s).params = s.params := by
  induction entries generalizing s with
  | nil => exact ⟨rfl, rfl⟩
  | cons a rest ih => simpa using ih (undoAction s a)

theorem stepBack_program_params (s : State) :
    (stepBack s).2.program = s.program ∧ (stepBack s).2.params = s.params := by
  unfold stepBack
  split
  · exact ⟨rfl, rfl⟩
  · exact ⟨rfl, rfl⟩
  · exact foldl_undoAction_program_params _ s

/-- Settles O44: a step does not write the two fields, and step-back undoes entries, none of which writes them. -/
theorem programIsImmutable : Obligations.ProgramIsImmutable :=
  fun s => ⟨fun _ => step_program_params, stepBack_program_params s⟩

/-! ## Registers -/

theorem State.writeReg_zero (s : State) (v : Word) : s.writeReg 0 v = s := rfl

/-- Settles O12 by the rule for reading a register after a write. -/
theorem x0IsAConstantZeroSink : Obligations.X0IsAConstantZeroSink := by
  intro s r v
  refine ⟨s.readReg_zero, s.writeReg_zero v, fun hr => ?_, fun q hq => ?_⟩
  · rw [State.readReg_writeReg, if_pos ⟨rfl, hr⟩]
  · rw [State.readReg_writeReg, if_neg fun h => hq h.1]

/-! ## Construction (10_state.md R37) -/

/-- Construction that is not refused gives the initial state, of parameters that R9 allows. -/
theorem wellFormed_and_eq_initial_of_construct {p : Params} {program : List Record} {s : State}
    (h : State.construct p program = .ok s) : p.WellFormed ∧ s = State.initial p program := by
  unfold State.construct at h
  split at h
  · cases h
  split at h
  · cases h
  split at h
  · cases h
  · cases h
    exact ⟨⟨by omega, by omega⟩, rfl⟩

theorem Memory.readWord_nil (i : Nat) : Memory.readWord [] i = 0#32 := by simp [Memory.readWord, Memory.readByte]

section Initial

variable (p : Params) (program : List Record)

@[simp] theorem State.initial_readReg (r : Reg) : (State.initial p program).readReg r = 0#32 := by
  simp [State.readReg, State.initial]

theorem State.initial_run_of_length_pos (h : 0 < program.length) : (State.initial p program).run = .ready := if_pos h

theorem State.initial_run_of_length_eq_zero (h : program.length = 0) : (State.initial p program).run = .finished :=
  if_neg (by omega)

theorem State.initial_cache_getElem?_ne (set : Nat) (line : CacheLine) :
    (State.initial p program).cache[set]? ≠ some (some line) := by
  simp [State.initial, List.getElem?_replicate]

theorem not_resident_initial (i : Nat) : ¬Resident (State.initial p program) i :=
  fun ⟨line, hline, _⟩ => State.initial_cache_getElem?_ne p program _ line hline

theorem memoryInv_initial (hp : p.WellFormed) : MemoryInv (State.initial p program) where
  params := hp
  canonical := rfl
  bounded := by simp [State.initial]
  sets := by simp [State.initial]
  coherent set line hline := absurd hline (State.initial_cache_getElem?_ne p program set line)

/-- The run state after construction says whether there is an instruction at `pc` 0 (R27, R37). -/
theorem historyInv_initial : HistoryInv (State.initial p program) := by
  have hnot : ∀ kind, (State.initial p program).run ≠ .halted kind := by
    intro kind
    obtain hlen | hlen := Nat.eq_zero_or_pos program.length
    · simp [State.initial_run_of_length_eq_zero p program hlen]
    · simp [State.initial_run_of_length_pos p program hlen]
  exact {
    ready := fun h => by
      by_contra hlen
      rw [State.initial_run_of_length_eq_zero p program (Nat.eq_zero_of_not_pos hlen)] at h
      cases h
    finished := fun h => by
      by_contra hlen
      rw [State.initial_run_of_length_pos p program (Nat.lt_of_not_le hlen)] at h
      cases h
    halted := fun kind h => absurd h (hnot kind)
    errorLast := iff_of_false (by simp [State.initial]) fun ⟨kind, h⟩ => hnot kind h
    shape := ⟨[], [], rfl, by simp, .inl rfl⟩
    reversible := by simp [State.initial] }

end Initial

/-- Settles O13: the fields of the initial state, one by one. -/
theorem constructionSetsEveryPieceOfState : Obligations.ConstructionSetsEveryPieceOfState := by
  refine ⟨fun p program s h => ?_, rfl⟩
  obtain ⟨-, rfl⟩ := wellFormed_and_eq_initial_of_construct h
  exact ⟨State.initial_readReg p program, rfl, State.initial_run_of_length_pos p program,
    State.initial_run_of_length_eq_zero p program, Memory.readWord_nil,
    not_resident_initial p program, rfl, rfl, rfl⟩

/-- Settles O49: a constructed core is an initial state, and so is `State.reset`. -/
theorem constructionEstablishesInvariants : Obligations.ConstructionEstablishesInvariants := by
  refine ⟨fun p program s h => ?_, memoryInv_initial _ _ (by decide), historyInv_initial _ _⟩
  obtain ⟨hp, rfl⟩ := wellFormed_and_eq_initial_of_construct h
  exact ⟨memoryInv_initial p program hp, historyInv_initial p program⟩

/-! ## Commands -/

theorem stepCommand_of_next {s t : State} (h : step s = .next t) : stepCommand s = .ok (resultOf t, t) := by
  unfold stepCommand
  rw [h]

theorem registers_length (s : State) : (registers s).length = 32 := by simp [registers]

theorem registers_getElem? (s : State) (r : Reg) : (registers s)[r.val]? = some (s.readReg r) := by
  simp [registers]

/-- Settles O19: the step command reports `resultOf` its next state, and a snapshot reads each register. -/
theorem commandsReportTheirResults : Obligations.CommandsReportTheirResults :=
  fun s => ⟨fun _ => stepCommand_of_next, ⟨registers s, rfl, registers_length s, registers_getElem? s⟩, rfl⟩

end Sys2Proof.Machine

/-! The proofs of the statements of 20_memory.md: the memory invariant, what an access through the cache logs and
fills, loads after a word store, and the access check. -/

namespace Sys2Proof.Machine

/-! ## The memory invariant (20_memory.md R59) -/

@[simp] theorem storeBase_mem (s : State) (addr : Word) (n : Width) : (storeBase s addr n).mem = s.mem := by
  cases n <;> rfl

@[simp] theorem storeBase_params (s : State) (addr : Word) (n : Width) : (storeBase s addr n).params = s.params := by
  cases n <;> rfl

theorem memoryInv_storeBase {s : State} (h : MemoryInv s) (addr : Word) (n : Width) :
    MemoryInv (storeBase s addr n) := by
  cases n with
  | word => exact h
  | byte | half => exact h.cacheRead (wordIndex addr)

/-- Every instruction keeps the invariant: at most it reads a word through the cache and writes the accessible word
of its access through it. -/
theorem MemoryInv.of_exec {i : Instr} {s t : State} (h : MemoryInv s) (he : exec i s = .next t) : MemoryInv t := by
  cases exec_shape he with
  | compute _ _ _ _ _ ht => subst ht; exact .congr (s := s) rfl rfl rfl h
  | load _ _ _ rs1 imm _ _ _ _ ht =>
    subst ht
    exact .congr (s := (s.cacheRead (accessIndex s rs1 imm)).2.2) rfl rfl rfl (h.cacheRead _)
  | store n rs1 imm v _ _ _ hc ht =>
    subst ht
    have hi : accessIndex s rs1 imm < (storeBase s (effectiveAddress s rs1 imm) n).params.memWords := by
      rw [storeBase_params]
      exact (checkAccess_eq_none.1 hc).2
    have hwrite := (memoryInv_storeBase h (effectiveAddress s rs1 imm) n).cacheWrite _
      (storedWord s (effectiveAddress s rs1 imm) n v) hi
    refine MemoryInv.congr ?_ ?_ ?_ hwrite
    · rw [State.cacheWrite_state_params, storeBase_params]; rfl
    · rw [State.cacheWrite_state_mem, storeBase_mem]; rfl
    · rfl
  | branch _ _ _ _ ht => subst ht; exact .congr (s := s) rfl rfl rfl h
  | fault _ _ ht => subst ht; exact .congr (s := s) rfl rfl rfl h

/-- Settles O46: the fetched instruction keeps the invariant, and an invalid word changes neither memory nor cache. -/
theorem stepKeepsMemoryInvariant : Obligations.StepKeepsMemoryInvariant := by
  intro s t h hstep
  obtain ⟨-, ⟨i, -, hi⟩ | ⟨w, -, ht⟩⟩ := step_cases hstep
  · exact h.of_exec hi
  · subst ht
    exact .congr (s := s) rfl rfl rfl h

/-! ## Residence after a read through the cache (20_memory.md R55, R56) -/

/-- Residence depends on the parameters, the valid bits and the tags alone. -/
theorem resident_congr {s t : State} (hp : t.params = s.params) (ht : t.lineTags = s.lineTags) (i : Nat) :
    Resident t i ↔ Resident s i := by
  rw [resident_iff_lineTags, resident_iff_lineTags, hp, ht]

theorem blockOf_eq_iff {p : Params} {i j : Nat} (hs : setOf p j = setOf p i) :
    blockOf p j = blockOf p i ↔ tagOf p j = tagOf p i :=
  ⟨fun h => congrArg (· / p.cacheSets) h, fun h => by rw [← tag_mul_add_set, ← tag_mul_add_set, h, hs]⟩

/-- A missing read makes its block the one resident block of its set and leaves the other sets alone. -/
theorem resident_cacheRead_miss {s : State} {i : Nat} (hinv : MemoryInv s) (hmiss : ¬Resident s i) (j : Nat) :
    Resident (s.cacheRead i).2.2 j ↔
      if setOf s.params j = setOf s.params i then blockOf s.params j = blockOf s.params i else Resident s j := by
  have hlt : setOf s.params i < s.lineTags.length := by
    simpa [State.lineTags, hinv.sets] using setOf_lt hinv.params i
  have htags : (s.cacheRead i).2.2.lineTags = s.lineTags.set (setOf s.params i) (some (tagOf s.params i)) := by
    simp [State.lineTags, cacheAfterRead_miss hmiss, List.map_set]
  rw [resident_iff_lineTags, htags, State.cacheRead_state_params]
  split
  next hs => rw [hs, List.getElem?_set_self hlt, blockOf_eq_iff hs]; simp [eq_comm]
  next hs => rw [List.getElem?_set_ne (Ne.symm hs), resident_iff_lineTags]

/-- A read through the cache fills as R56 says. -/
theorem fillsFor_cacheRead {s : State} (hinv : MemoryInv s) (i : Nat) : FillsFor s (s.cacheRead i).2.2 i := by
  have hkeep (hr : Resident s i) (j : Nat) : Resident (s.cacheRead i).2.2 j ↔ Resident s j :=
    resident_congr (s.cacheRead_state_params i) (by simp [State.lineTags, cacheAfterRead_hit hr]) j
  by_cases hr : Resident s i
  · exact ⟨hkeep, (hkeep hr i).2 hr, fun j _ => hkeep hr j, fun hmiss => absurd hr hmiss⟩
  · have hmiss := resident_cacheRead_miss hinv hr
    exact {
      hit := fun h => absurd h hr
      filled := (hmiss i).2 (by rw [if_pos rfl])
      otherSets := fun j hs => (hmiss j).trans (iff_of_eq (if_neg hs))
      evicted := fun _ j hs hj => ((hmiss j).trans (iff_of_eq (if_pos hs))).1 hj }

/-- `FillsFor` looks at the parameters, the valid bits and the tags of the state after the read. -/
theorem FillsFor.congr {s t u : State} {i : Nat} (h : FillsFor s t i) (hp : u.params = t.params)
    (ht : u.lineTags = t.lineTags) : FillsFor s u i := by
  have hres := resident_congr hp ht
  exact {
    hit := fun hr j => (hres j).trans (h.hit hr j)
    filled := (hres i).2 h.filled
    otherSets := fun j hs => (hres j).trans (h.otherSets j hs)
    evicted := fun hmiss j hs hj => h.evicted hmiss j hs ((hres j).1 hj) }

/-! ## The log of an access (41_dispatch.md R105 to R109, 20_memory.md R60) -/

/-- A log that ends in the tail entries of a cache read's latency is that of a cached access. -/
theorem logsCacheRead_of_tailEntries {s t : State} {sources : List Reg} {effect : Action} {i : Nat}
    (h : t.log = s.log ++ readEntries s sources ++ [effect] ++ tailEntries (s.readLatency i) s.pc (s.pc + 1)) :
    LogsCacheRead s t sources effect i where
  hit hr := by rw [h, readLatency_hit hr, tailEntries_zero]; simp
  freeMiss hmiss hz := by rw [h, readLatency_miss hmiss, hz, tailEntries_zero]; simp
  slowMiss hmiss hpos := by rw [h, readLatency_miss hmiss, tailEntries_pos hpos]; simp

/-! ## Accesses that pass the check (20_memory.md R46, R47, R49) -/

theorem checkAccess_of_ne_half {p : Params} {addr : Word} {n : Width} (hn : n ≠ .half)
    (hb : addr.toNat / 4 < p.memWords) : checkAccess p addr n = none :=
  checkAccess_eq_none.2 ⟨fun h => hn h.1, hb⟩

theorem checkAccess_of_even {p : Params} {addr : Word} (n : Width) (heven : addr.toNat % 2 = 0)
    (hb : addr.toNat / 4 < p.memWords) : checkAccess p addr n = none :=
  checkAccess_eq_none.2 ⟨by simp [heven], hb⟩

/-! ## Loads (42_loads.md) -/

/-- An instruction with an access and a destination is a load of that access. -/
theorem exec_eq_load {i : Instr} {n : Width} {rd rs1 : Reg} {imm : Int} (s : State) (hd : i.destination = some rd)
    (ha : i.access = some (n, rs1, imm)) : ∃ sg, exec i s = load n sg rd rs1 imm s := by
  cases i with
  | lb _ _ _ | lh _ _ _ | lw _ _ _ | lbu _ _ _ | lhu _ _ _ => cases hd; cases ha; exact ⟨_, rfl⟩
  | sb _ _ _ | sh _ _ _ | sw _ _ _ => cases hd
  | _ => cases ha

/-- An instruction with an access and no destination is a store of that access. -/
theorem exec_eq_store {i : Instr} {n : Width} {rs1 : Reg} {imm : Int} (s : State) (hd : i.destination = none)
    (ha : i.access = some (n, rs1, imm)) : ∃ data rs2, exec i s = store n data rs1 rs2 imm s := by
  cases i with
  | sb _ rs2 _ => cases ha; exact ⟨asByte, rs2, rfl⟩
  | sh _ rs2 _ => cases ha; exact ⟨asHalfWord, rs2, rfl⟩
  | sw _ rs2 _ => cases ha; exact ⟨fun v => v, rs2, rfl⟩
  | lb _ _ _ | lh _ _ _ | lw _ _ _ | lbu _ _ _ | lhu _ _ _ => cases hd
  | _ => cases ha

/-- A load logs and fills as the read of its word does. -/
theorem load_logs_and_fills {s : State} {n : Width} (sg : Signedness) (rd : Reg) {rs1 : Reg} {imm : Int}
    (hinv : MemoryInv s) (hc : checkAccess s.params (effectiveAddress s rs1 imm) n = none) :
    ∃ t, load n sg rd rs1 imm s = .next t ∧
      LogsCacheRead s t [rs1] (.writeRegister rd (s.readReg rd) (t.readReg rd)) (accessIndex s rs1 imm) ∧
      FillsFor s t (accessIndex s rs1 imm) := by
  refine ⟨_, load_ok sg rd hc, ?_, ?_⟩
  · exact logsCacheRead_of_tailEntries rfl
  · exact (fillsFor_cacheRead hinv _).congr rfl rfl

/-- Settles O28: each of the five loads is `load` of its access, whose check passes. -/
theorem loadsLogAndFillTheCache : Obligations.LoadsLogAndFillTheCache := by
  intro s rd rs1 imm i n hinv hi ha heven hb
  have hd : i.destination = some rd := by
    simp only [List.mem_cons, List.not_mem_nil, or_false] at hi
    obtain rfl | rfl | rfl | rfl | rfl := hi <;> rfl
  have hc : checkAccess s.params (effectiveAddress s rs1 imm) n = none :=
    checkAccess_eq_none.2 ⟨fun ⟨hn, hodd⟩ => by simp [heven hn] at hodd, hb⟩
  obtain ⟨sg, hexec⟩ := exec_eq_load s hd ha
  rw [hexec]
  exact load_logs_and_fills sg rd hinv hc

/-! ## Sub-word stores (45_stores.md) -/

theorem storeLatency_of_ne_word (s : State) (addr : Word) {n : Width} (h : n ≠ .word) :
    storeLatency s addr n = s.readLatency (wordIndex addr) := by
  cases n with
  | word => exact absurd rfl h
  | byte | half => rfl

theorem storeBase_of_ne_word (s : State) (addr : Word) {n : Width} (h : n ≠ .word) :
    storeBase s addr n = (s.cacheRead (wordIndex addr)).2.2 := by
  cases n with
  | word => exact absurd rfl h
  | byte | half => rfl

/-- A sub-word store logs and fills as the read of its read-modify-write does; its write changes no tag. -/
theorem store_logs_and_fills {s : State} {n : Width} (hn : n ≠ .word) (data : Word → BitVec n.bits) {rs1 : Reg}
    (rs2 : Reg) {imm : Int} (hinv : MemoryInv s)
    (hc : checkAccess s.params (effectiveAddress s rs1 imm) n = none) :
    ∃ t, store n data rs1 rs2 imm s = .next t ∧
      LogsCacheRead s t [rs1, rs2] (.writeMemory (effectiveAddress s rs1 imm) n
        ((s.mem.readWord (accessIndex s rs1 imm)).extractLsb' (laneBit (effectiveAddress s rs1 imm) n) n.bits)
        (data (s.readReg rs2))) (accessIndex s rs1 imm) ∧
      FillsFor s t (accessIndex s rs1 imm) := by
  refine ⟨_, store_ok data rs2 hc, ?_, ?_⟩
  · rw [storeLatency_of_ne_word s _ hn]
    exact logsCacheRead_of_tailEntries rfl
  · rw [storeBase_of_ne_word s _ hn]
    exact (fillsFor_cacheRead hinv _).congr rfl (cacheAfterWrite_tags _ _ _)

/-- Settles O32: SB and SH are sub-word stores whose check passes; the bits they overwrite are the addressed bytes. -/
theorem subWordStoresLogAndFillTheCache : Obligations.SubWordStoresLogAndFillTheCache := by
  intro s rs1 rs2 imm hinv addr hb
  refine ⟨?_, fun heven => ?_⟩
  · have h := store_logs_and_fills (n := .byte) (by decide) asByte rs2 hinv
      (checkAccess_of_ne_half (by decide) hb)
    have hbefore : (s.mem.readWord (wordIndex addr)).extractLsb' (laneBit addr .byte) 8 = s.mem.readByte addr.toNat :=
      Memory.byte_of_word _ _
    rwa [hbefore, asByte_eq] at h
  · have h := store_logs_and_fills (n := .half) (by decide) asHalfWord rs2 hinv
      (checkAccess_of_even .half heven hb)
    have hbefore : (s.mem.readWord (wordIndex addr)).extractLsb' (laneBit addr .half) 16 =
        s.mem.readByte (addr.toNat + 1) ++ s.mem.readByte addr.toNat := Memory.half_of_word _ _ heven
    rwa [hbefore, asHalfWord_eq] at h

/-! ## A load after a word store (20_memory.md R43, R61) -/

/-- The value a completed load leaves in a register other than X0. -/
theorem load_readReg {s : State} {n : Width} (sg : Signedness) {rd rs1 : Reg} {imm : Int} (hrd : rd ≠ 0)
    (hc : checkAccess s.params (effectiveAddress s rs1 imm) n = none) :
    ∃ t, load n sg rd rs1 imm s = .next t ∧ t.readReg rd = widenToWord sg
      ((s.mem.readWord (accessIndex s rs1 imm)).extractLsb' (laneBit (effectiveAddress s rs1 imm) n) n.bits) :=
  ⟨_, load_ok sg rd hc, by rw [State.readReg_retireTo, State.readReg_writeDest, if_pos ⟨rfl, hrd⟩]⟩

/-- A completed SW leaves `x[rs2]` in its word (R150). -/
theorem readWord_of_exec_sw {s t : State} {rs1 rs2 : Reg} {imm : Int} (hm : s.mem.wf = true)
    (hb : (effectiveAddress s rs1 imm).toNat / 4 < s.params.memWords) (h : exec (.sw rs1 rs2 imm) s = .next t) :
    t.mem.readWord (accessIndex s rs1 imm) = s.readReg rs2 := by
  have hc : checkAccess s.params (effectiveAddress s rs1 imm) .word = none :=
    checkAccess_of_ne_half (by decide) hb
  rw [exec_sw, store_ok _ rs2 hc] at h
  cases h
  have hword : storedWord s (effectiveAddress s rs1 imm) .word (s.readReg rs2) = s.readReg rs2 := replaceBits_word _ _
  rw [State.retireTo_mem, State.emit_mem, hword, Memory.readWord_writeWord _ _ _ hm, if_pos rfl]

/-- Settles O33: the word read by each load is the one SW stored, and its access is checked as SW's was. -/
theorem loadSeesTheStoredWord : Obligations.LoadSeesTheStoredWord := by
  intro s t rs1 rs2 imm hm hb hsw rd base imm' hrd hsame
  have hword : t.mem.readWord (accessIndex t base imm') = s.readReg rs2 :=
    (congrArg t.mem.readWord hsame).trans (readWord_of_exec_sw hm hb hsw)
  have hb' : (effectiveAddress t base imm').toNat / 4 < t.params.memWords := by
    rw [(exec_program_params hsw).2, hsame]; exact hb
  rw [exec_lb, exec_lh, exec_lw, ← hword]
  refine ⟨load_readReg .signed hrd (checkAccess_of_ne_half (by decide) hb'),
    fun heven => load_readReg .signed hrd (checkAccess_of_even .half heven hb'), ?_⟩
  obtain ⟨u, hu, hv⟩ := load_readReg .unsigned hrd (checkAccess_of_ne_half (n := .word) (by decide) hb')
  exact ⟨u, hu, hv.trans (by simp [widenToWord, valueConvert, laneBit])⟩

/-! ## The access check (20_memory.md R39, R46, R47, R49) -/

/-- A step that retires does not halt (41_dispatch.md R110). -/
theorem State.retireTo_run_ne_halted (s : State) (latency npc : Nat) (kind : FaultKind) (hr : s.run = .ready) :
    (s.retireTo latency npc).run ≠ .halted kind := by
  rw [State.retireTo_run, hr]
  split <;> simp

/-- An instruction with an access halts with exactly the kind its check gives. -/
theorem exec_halted_iff_checkAccess {i : Instr} {s : State} {n : Width} {rs1 : Reg} {imm : Int} {kind : FaultKind}
    (hr : s.run = .ready) (ha : i.access = some (n, rs1, imm)) :
    (∃ t, exec i s = .next t ∧ t.run = .halted kind) ↔
      checkAccess s.params (effectiveAddress s rs1 imm) n = some kind := by
  constructor
  · rintro ⟨t, he, ht⟩
    cases exec_shape he with
    | compute _ _ _ hnone _ _ => rw [ha] at hnone; cases hnone
    | load _ _ _ _ _ _ _ _ _ h => subst h; exact absurd ht (State.retireTo_run_ne_halted _ _ _ _ hr)
    | store _ _ _ _ _ _ _ _ h => subst h; exact absurd ht (State.retireTo_run_ne_halted _ _ _ _ hr)
    | branch _ _ hnone _ _ => rw [ha] at hnone; cases hnone
    | fault kind' hf h =>
      subst h
      cases ht
      rw [RaisesFault, ha] at hf
      exact checkAccess_eq_some.2 hf
  · intro hc
    cases hd : i.destination with
    | some rd =>
      obtain ⟨sg, he⟩ := exec_eq_load s hd ha
      exact ⟨_, he.trans (load_fault sg rd hc), rfl⟩
    | none =>
      obtain ⟨data, rs2, he⟩ := exec_eq_store s hd ha
      exact ⟨_, he.trans (store_fault data rs2 hc), rfl⟩

/-- Settles O40: the clauses read off what the access check answers. -/
theorem alignmentAndAccessibility : Obligations.AlignmentAndAccessibility := by
  intro i s n rs1 imm hr ha addr
  have hiff (kind : FaultKind) := exec_halted_iff_checkAccess (kind := kind) hr ha
  refine ⟨fun hn hodd => ?_, fun hn t he hh => ?_, fun hok => ?_, fun t he hnot => ?_⟩
  · exact (hiff _).2 (checkAccess_eq_some.2 (by rw [if_pos ⟨hn, hodd⟩]))
  · have hc := checkAccess_eq_some.1 ((hiff _).1 ⟨t, he, hh⟩)
    rw [if_neg (by simp [hn])] at hc
    cases hc.1
  · rw [hiff, checkAccess_eq_some, if_neg hok]
    simp [addr]
  · cases hc : checkAccess s.params (effectiveAddress s rs1 imm) n with
    | none => exact (checkAccess_eq_none.1 hc).2
    | some kind =>
      obtain ⟨t', he', hh⟩ := (hiff kind).2 hc
      rw [he] at he'
      cases he'
      exact absurd hh (hnot kind)

end Sys2Proof.Machine

/-! The proofs of the statements of 30_encoding.md: decoding an encoded instruction, the opcode table, encoding a
decoded word, and the refusals of construction. -/

namespace Sys2Proof

/-! ## The rows of the opcode table (30_encoding.md R78) -/

/-- A word that matches two rows makes their patterns agree where both masks look. -/
theorem patterns_agree_of_matches {w p1 m1 p2 m2 : Word} (h1 : w &&& m1 = p1) (h2 : w &&& m2 = p2) :
    p1 &&& m2 = p2 &&& m1 := by
  subst h1 h2
  ac_rfl

/-- Any two rows of the table have patterns that differ where both masks look. -/
theorem opcodeTable_patterns_differ :
    opcodeTable.Pairwise fun r1 r2 => r1.pattern &&& r2.mask ≠ r2.pattern &&& r1.mask := by
  decide

/-- Settles O5: a word that matched two rows would make their patterns agree where both masks look. -/
theorem opcodeRowsDoNotOverlap : Obligations.OpcodeRowsDoNotOverlap :=
  ⟨rfl, opcodeTable_patterns_differ.imp fun hne _ ⟨h1, h2⟩ => hne (patterns_agree_of_matches h1 h2)⟩

/-- Every instruction's row is in the table. -/
theorem row_mem_opcodeTable (i : Instr) : i.row ∈ opcodeTable := by
  cases i <;> simp [opcodeTable, rowsI, rowsR, rowsS, Instr.row]

/-- Every row of the table is an instruction's. -/
theorem exists_row_eq_of_mem_opcodeTable {row : OpcodeRow} (h : row ∈ opcodeTable) : ∃ i : Instr, i.row = row := by
  simp only [opcodeTable, rowsI, rowsR, rowsS, ← List.map_append] at h
  exact (List.mem_map.1 h).imp fun _ => And.right

/-- An encoded instruction matches its row, whatever its operands are. -/
theorem encode_matches_row (i : Instr) : encode i &&& i.row.mask = i.row.pattern := by
  cases i with
  | lb _ _ _ => exact Laws.RowMatch.lb _ _ _
  | lh _ _ _ => exact Laws.RowMatch.lh _ _ _
  | lw _ _ _ => exact Laws.RowMatch.lw _ _ _
  | lbu _ _ _ => exact Laws.RowMatch.lbu _ _ _
  | lhu _ _ _ => exact Laws.RowMatch.lhu _ _ _
  | addi _ _ _ => exact Laws.RowMatch.addi _ _ _
  | slti _ _ _ => exact Laws.RowMatch.slti _ _ _
  | sltiu _ _ _ => exact Laws.RowMatch.sltiu _ _ _
  | xori _ _ _ => exact Laws.RowMatch.xori _ _ _
  | ori _ _ _ => exact Laws.RowMatch.ori _ _ _
  | andi _ _ _ => exact Laws.RowMatch.andi _ _ _
  | jalr _ _ _ => exact Laws.RowMatch.jalr _ _ _
  | scall => exact Laws.RowMatch.scall
  | slli _ _ _ => exact Laws.RowMatch.slli _ _ _
  | srli _ _ _ => exact Laws.RowMatch.srli _ _ _
  | srai _ _ _ => exact Laws.RowMatch.srai _ _ _
  | add _ _ _ => exact Laws.RowMatch.add _ _ _
  | sub _ _ _ => exact Laws.RowMatch.sub _ _ _
  | sll _ _ _ => exact Laws.RowMatch.sll _ _ _
  | slt _ _ _ => exact Laws.RowMatch.slt _ _ _
  | sltu _ _ _ => exact Laws.RowMatch.sltu _ _ _
  | xor _ _ _ => exact Laws.RowMatch.xor _ _ _
  | srl _ _ _ => exact Laws.RowMatch.srl _ _ _
  | sra _ _ _ => exact Laws.RowMatch.sra _ _ _
  | or _ _ _ => exact Laws.RowMatch.or _ _ _
  | and _ _ _ => exact Laws.RowMatch.and _ _ _
  | sb _ _ _ => exact Laws.RowMatch.sb _ _ _
  | sh _ _ _ => exact Laws.RowMatch.sh _ _ _
  | sw _ _ _ => exact Laws.RowMatch.sw _ _ _
  | beq _ _ _ => exact Laws.RowMatch.beq _ _ _
  | bne _ _ _ => exact Laws.RowMatch.bne _ _ _
  | blt _ _ _ => exact Laws.RowMatch.blt _ _ _
  | bge _ _ _ => exact Laws.RowMatch.bge _ _ _
  | bltu _ _ _ =>
    exact Laws.RowMatch.bltu _ _ _
  | bgeu _ _ _ =>
    exact Laws.RowMatch.bgeu _ _ _
  | lui _ _ => exact Laws.RowMatch.lui _ _
  | auipc _ _ => exact Laws.RowMatch.auipc _ _
  | jal _ _ => exact Laws.RowMatch.jal _ _

/-! ## What the decoder does for each major opcode (R78) -/

section MajorOpcode

variable {w : Word}

theorem decode_eq_decodeLoad (h : opcodeOf w = 0x03#7) : decode w = decodeLoad w := by simp [decode, h]
theorem decode_eq_decodeAluImm (h : opcodeOf w = 0x13#7) : decode w = decodeAluImm w := by simp [decode, h]
theorem decode_eq_decodeAluReg (h : opcodeOf w = 0x33#7) : decode w = decodeAluReg w := by simp [decode, h]
theorem decode_eq_decodeStore (h : opcodeOf w = 0x23#7) : decode w = decodeStore w := by simp [decode, h]
theorem decode_eq_decodeBranch (h : opcodeOf w = 0x63#7) : decode w = decodeBranch w := by simp [decode, h]

end MajorOpcode

/-! ## Decoding an encoded instruction (R80) -/

/-- R80, one format at a time: the opcode selects the decoder, funct3 and funct7 the instruction, and each field reads
back its operand. -/
theorem decode_encode {i : Instr} (h : i.wellFormed = true) : decode (encode i) = .instr i := by
  cases i with
  | lb _ _ _ | lh _ _ _ | lw _ _ _ | lbu _ _ _ | lhu _ _ _ =>
    rw [encode, decode_eq_decodeLoad (opcodeOf_encodeI ..)]
    simp [decodeLoad, immIOf_encodeI _ _ _ _ h]
  | addi _ _ _ | slti _ _ _ | sltiu _ _ _ | xori _ _ _ | ori _ _ _ | andi _ _ _ =>
    rw [encode, decode_eq_decodeAluImm (opcodeOf_encodeI ..)]
    simp [decodeAluImm, immIOf_encodeI _ _ _ _ h]
  | jalr _ _ _ => simp [encode, decode, immIOf_encodeI _ _ _ _ h]
  | scall => rfl
  | slli _ _ _ | srli _ _ _ | srai _ _ _ =>
    rw [encode, decode_eq_decodeAluImm (opcodeOf_encodeShift ..)]
    simp [decodeAluImm, shamtOf_encodeShift _ _ _ _ h]
  | add _ _ _ | sub _ _ _ | sll _ _ _ | slt _ _ _ | sltu _ _ _
  | xor _ _ _ | srl _ _ _ | sra _ _ _ | or _ _ _ | and _ _ _ =>
    rw [encode, decode_eq_decodeAluReg (opcodeOf_encodeR ..)]
    simp [decodeAluReg]
  | sb _ _ _ | sh _ _ _ | sw _ _ _ =>
    rw [encode, decode_eq_decodeStore (opcodeOf_encodeS ..)]
    simp [decodeStore, immSOf_encodeS _ _ _ h]
  | beq _ _ _ | bne _ _ _ | blt _ _ _ | bge _ _ _ | bltu _ _ _ | bgeu _ _ _ =>
    rw [encode, decode_eq_decodeBranch (opcodeOf_encodeSB ..)]
    simp [decodeBranch, offsetSBOf_encodeSB _ _ _ h]
  | lui _ _ | auipc _ _ => simp [encode, decode, immUOf_encodeU _ _ h]
  | jal _ _ => simp [encode, decode, offsetUJOf_encodeUJ _ h]

/-- Settles O2 by `decode_encode`. -/
theorem decodeOfEncodeIsTheInstruction : Obligations.DecodeOfEncodeIsTheInstruction :=
  fun _ => decode_encode

/-! ## The operand fields by arithmetic (R71 to R77) -/

theorem toNat_extractLsb'_eq_fieldOf (w : Word) (lo n : Nat) : (w.extractLsb' lo n).toNat = fieldOf w lo n := by
  simp [fieldOf, BitVec.extractLsb'_toNat, Nat.shiftRight_eq_div_pow]

theorem toInt_eq_signedReading {n : Nat} (hn : 0 < n) (x : BitVec n) : x.toInt = signedReading n x.toNat := by
  have hpow : 2 ^ n = 2 * 2 ^ (n - 1) := (mul_pow_sub_one hn.ne' 2).symm
  have hhalf : 2 * x.toNat < 2 ^ n ↔ x.toNat < 2 ^ (n - 1) := by omega
  simp [signedReading, BitVec.toInt_eq_toNat_cond, hhalf]

theorem toNat_append_eq_add {m n : Nat} (x : BitVec m) (y : BitVec n) :
    (x ++ y).toNat = x.toNat * 2 ^ n + y.toNat := by
  rw [BitVec.toNat_append, ← Nat.shiftLeft_add_eq_or_of_lt y.isLt, Nat.shiftLeft_eq]

section Fields

variable (w : Word)

theorem rdOf_val : (rdOf w).val = fieldOf w 7 5 := toNat_extractLsb'_eq_fieldOf ..
theorem rs1Of_val : (rs1Of w).val = fieldOf w 15 5 := toNat_extractLsb'_eq_fieldOf ..
theorem rs2Of_val : (rs2Of w).val = fieldOf w 20 5 := toNat_extractLsb'_eq_fieldOf ..
theorem shamtOf_eq_fieldOf : shamtOf w = fieldOf w 20 5 := toNat_extractLsb'_eq_fieldOf ..
theorem immUOf_eq_fieldOf : immUOf w = fieldOf w 12 20 := toNat_extractLsb'_eq_fieldOf ..

theorem immIOf_eq_signedReading : immIOf w = signedReading 12 (fieldOf w 20 12) := by
  rw [immIOf, toInt_eq_signedReading (by decide), toNat_extractLsb'_eq_fieldOf]

theorem immSOf_eq_signedReading : immSOf w = signedReading 12 (fieldOf w 25 7 * 32 + fieldOf w 7 5) := by
  rw [immSOf, toInt_eq_signedReading (by decide)]
  simp only [toNat_append_eq_add, toNat_extractLsb'_eq_fieldOf]
  rfl

theorem offsetSBOf_eq_signedReading : offsetSBOf w = signedReading 12
    (fieldOf w 31 1 * 2048 + fieldOf w 7 1 * 1024 + fieldOf w 25 6 * 16 + fieldOf w 8 4) := by
  refine (toInt_eq_signedReading (n := 1 + 1 + 6 + 4) (by decide) _).trans ?_
  rw [toNat_append_eq_add, toNat_append_eq_add, toNat_append_eq_add]
  simp only [toNat_extractLsb'_eq_fieldOf, Nat.add_mul, Nat.mul_assoc, Nat.reducePow, Nat.reduceMul, Nat.reduceAdd]

theorem offsetUJOf_eq_signedReading : offsetUJOf w = signedReading 20
    (fieldOf w 31 1 * 524288 + fieldOf w 12 8 * 2048 + fieldOf w 20 1 * 1024 + fieldOf w 21 10) := by
  refine (toInt_eq_signedReading (n := 1 + 8 + 1 + 10) (by decide) _).trans ?_
  rw [toNat_append_eq_add, toNat_append_eq_add, toNat_append_eq_add]
  simp only [toNat_extractLsb'_eq_fieldOf, Nat.add_mul, Nat.mul_assoc, Nat.reducePow, Nat.reduceMul, Nat.reduceAdd]

end Fields

/-! ## A word that matches a row encodes an instruction of that row -/

section Matching

variable {w v m : Word}

theorem extractLsb'_eq_of_masked_eq (h : w &&& m = v &&& m) {lo n : Nat} (hm : m.extractLsb' lo n = .allOnes n) :
    w.extractLsb' lo n = v.extractLsb' lo n := by
  simpa [BitVec.extractLsb'_and, hm] using congrArg (·.extractLsb' lo n) h

theorem opcodeOf_eq_of_masked_eq (h : w &&& m = v &&& m) (hm : opcodeOf m = .allOnes 7) : opcodeOf w = opcodeOf v :=
  extractLsb'_eq_of_masked_eq h hm

theorem funct3Of_eq_of_masked_eq (h : w &&& m = v &&& m) (hm : funct3Of m = .allOnes 3) : funct3Of w = funct3Of v :=
  extractLsb'_eq_of_masked_eq h hm

theorem funct7Of_eq_of_masked_eq (h : w &&& m = v &&& m) (hm : funct7Of m = .allOnes 7) : funct7Of w = funct7Of v :=
  extractLsb'_eq_of_masked_eq h hm

/-! Format by format: a word that agrees with an encoded instruction on the bits of the mask has the operands that
30_encoding.md reads from it, and encodes the instruction with these operands. -/

variable {rd rs1 rs2 : Reg} {imm : Int} {f3 : BitVec 3} {f7 op : BitVec 7}

theorem formatI_of_masked_eq (h : w &&& 0x0000707F#32 = encodeI imm rs1 f3 rd op &&& 0x0000707F#32) :
    ((rdOf w).val = fieldOf w 7 5 ∧ (rs1Of w).val = fieldOf w 15 5 ∧
      immIOf w = signedReading 12 (fieldOf w 20 12)) ∧
    encodeI (immIOf w) (rs1Of w) f3 (rdOf w) op = w := by
  have hop := (opcodeOf_eq_of_masked_eq h rfl).trans (opcodeOf_encodeI ..)
  have hf3 := (funct3Of_eq_of_masked_eq h rfl).trans (funct3Of_encodeI ..)
  refine ⟨⟨rdOf_val w, rs1Of_val w, immIOf_eq_signedReading w⟩, ?_⟩
  rw [← hop, ← hf3, encodeI_fields]

theorem formatShift_of_masked_eq {shamt : Nat}
    (h : w &&& 0xFE00707F#32 = encodeShift f7 shamt rs1 f3 rd &&& 0xFE00707F#32) :
    ((rdOf w).val = fieldOf w 7 5 ∧ (rs1Of w).val = fieldOf w 15 5 ∧ shamtOf w = fieldOf w 20 5) ∧
    encodeShift f7 (shamtOf w) (rs1Of w) f3 (rdOf w) = w := by
  have hop := (opcodeOf_eq_of_masked_eq h rfl).trans (opcodeOf_encodeShift ..)
  have hf3 := (funct3Of_eq_of_masked_eq h rfl).trans (funct3Of_encodeShift ..)
  have hf7 := (funct7Of_eq_of_masked_eq h rfl).trans (funct7Of_encodeShift ..)
  refine ⟨⟨rdOf_val w, rs1Of_val w, shamtOf_eq_fieldOf w⟩, ?_⟩
  rw [← hf3, ← hf7, encodeShift_fields w hop]

theorem formatR_of_masked_eq (h : w &&& 0xFE00707F#32 = encodeR f7 rs2 rs1 f3 rd op &&& 0xFE00707F#32) :
    ((rdOf w).val = fieldOf w 7 5 ∧ (rs1Of w).val = fieldOf w 15 5 ∧ (rs2Of w).val = fieldOf w 20 5) ∧
    encodeR f7 (rs2Of w) (rs1Of w) f3 (rdOf w) op = w := by
  have hop := (opcodeOf_eq_of_masked_eq h rfl).trans (opcodeOf_encodeR ..)
  have hf3 := (funct3Of_eq_of_masked_eq h rfl).trans (funct3Of_encodeR ..)
  have hf7 := (funct7Of_eq_of_masked_eq h rfl).trans (funct7Of_encodeR ..)
  refine ⟨⟨rdOf_val w, rs1Of_val w, rs2Of_val w⟩, ?_⟩
  rw [← hop, ← hf3, ← hf7, encodeR_fields]

theorem formatS_of_masked_eq (h : w &&& 0x0000707F#32 = encodeS imm rs2 rs1 f3 &&& 0x0000707F#32) :
    ((rs1Of w).val = fieldOf w 15 5 ∧ (rs2Of w).val = fieldOf w 20 5 ∧
      immSOf w = signedReading 12 (fieldOf w 25 7 * 32 + fieldOf w 7 5)) ∧
    encodeS (immSOf w) (rs2Of w) (rs1Of w) f3 = w := by
  have hop := (opcodeOf_eq_of_masked_eq h rfl).trans (opcodeOf_encodeS ..)
  have hf3 := (funct3Of_eq_of_masked_eq h rfl).trans (funct3Of_encodeS ..)
  refine ⟨⟨rs1Of_val w, rs2Of_val w, immSOf_eq_signedReading w⟩, ?_⟩
  rw [← hf3, encodeS_fields w hop]

theorem formatSB_of_masked_eq (h : w &&& 0x0000707F#32 = encodeSB imm rs2 rs1 f3 &&& 0x0000707F#32) :
    ((rs1Of w).val = fieldOf w 15 5 ∧ (rs2Of w).val = fieldOf w 20 5 ∧ offsetSBOf w = signedReading 12
      (fieldOf w 31 1 * 2048 + fieldOf w 7 1 * 1024 + fieldOf w 25 6 * 16 + fieldOf w 8 4)) ∧
    encodeSB (offsetSBOf w) (rs2Of w) (rs1Of w) f3 = w := by
  have hop := (opcodeOf_eq_of_masked_eq h rfl).trans (opcodeOf_encodeSB ..)
  have hf3 := (funct3Of_eq_of_masked_eq h rfl).trans (funct3Of_encodeSB ..)
  refine ⟨⟨rs1Of_val w, rs2Of_val w, offsetSBOf_eq_signedReading w⟩, ?_⟩
  rw [← hf3, encodeSB_fields w hop]

theorem formatU_of_masked_eq {imm20 : Nat} (h : w &&& 0x0000007F#32 = encodeU imm20 rd op &&& 0x0000007F#32) :
    ((rdOf w).val = fieldOf w 7 5 ∧ immUOf w = fieldOf w 12 20) ∧ encodeU (immUOf w) (rdOf w) op = w := by
  have hop := (opcodeOf_eq_of_masked_eq h rfl).trans (opcodeOf_encodeU ..)
  refine ⟨⟨rdOf_val w, immUOf_eq_fieldOf w⟩, ?_⟩
  rw [← hop, encodeU_fields]

theorem formatUJ_of_masked_eq (h : w &&& 0x0000007F#32 = encodeUJ imm rd &&& 0x0000007F#32) :
    ((rdOf w).val = fieldOf w 7 5 ∧ offsetUJOf w = signedReading 20
      (fieldOf w 31 1 * 524288 + fieldOf w 12 8 * 2048 + fieldOf w 20 1 * 1024 + fieldOf w 21 10)) ∧
    encodeUJ (offsetUJOf w) (rdOf w) = w := by
  have hop := (opcodeOf_eq_of_masked_eq h rfl).trans (opcodeOf_encodeUJ ..)
  exact ⟨⟨rdOf_val w, offsetUJOf_eq_signedReading w⟩, encodeUJ_fields w hop⟩

/-- A word that matches an instruction's row encodes a well-formed instruction of that row, whose operands are the
fields of the word. -/
theorem exists_encode_eq_of_matches_row {i : Instr} (h : w &&& i.row.mask = i.row.pattern) :
    ∃ j : Instr, j.row = i.row ∧ j.wellFormed = true ∧ j.FieldsFrom w ∧ encode j = w := by
  rw [← encode_matches_row i] at h
  cases i with
  | lb _ _ _ => exact ⟨.lb (rdOf w) (rs1Of w) (immIOf w), rfl, fitsSigned12_toInt _, formatI_of_masked_eq h⟩
  | lh _ _ _ => exact ⟨.lh (rdOf w) (rs1Of w) (immIOf w), rfl, fitsSigned12_toInt _, formatI_of_masked_eq h⟩
  | lw _ _ _ => exact ⟨.lw (rdOf w) (rs1Of w) (immIOf w), rfl, fitsSigned12_toInt _, formatI_of_masked_eq h⟩
  | lbu _ _ _ => exact ⟨.lbu (rdOf w) (rs1Of w) (immIOf w), rfl, fitsSigned12_toInt _, formatI_of_masked_eq h⟩
  | lhu _ _ _ => exact ⟨.lhu (rdOf w) (rs1Of w) (immIOf w), rfl, fitsSigned12_toInt _, formatI_of_masked_eq h⟩
  | addi _ _ _ => exact ⟨.addi (rdOf w) (rs1Of w) (immIOf w), rfl, fitsSigned12_toInt _, formatI_of_masked_eq h⟩
  | slti _ _ _ => exact ⟨.slti (rdOf w) (rs1Of w) (immIOf w), rfl, fitsSigned12_toInt _, formatI_of_masked_eq h⟩
  | sltiu _ _ _ => exact ⟨.sltiu (rdOf w) (rs1Of w) (immIOf w), rfl, fitsSigned12_toInt _, formatI_of_masked_eq h⟩
  | xori _ _ _ => exact ⟨.xori (rdOf w) (rs1Of w) (immIOf w), rfl, fitsSigned12_toInt _, formatI_of_masked_eq h⟩
  | ori _ _ _ => exact ⟨.ori (rdOf w) (rs1Of w) (immIOf w), rfl, fitsSigned12_toInt _, formatI_of_masked_eq h⟩
  | andi _ _ _ => exact ⟨.andi (rdOf w) (rs1Of w) (immIOf w), rfl, fitsSigned12_toInt _, formatI_of_masked_eq h⟩
  | jalr _ _ _ => exact ⟨.jalr (rdOf w) (rs1Of w) (immIOf w), rfl, fitsSigned12_toInt _, formatI_of_masked_eq h⟩
  | scall => exact ⟨.scall, rfl, rfl, trivial, h.symm.trans BitVec.and_allOnes⟩
  | slli _ _ _ => exact ⟨.slli (rdOf w) (rs1Of w) (shamtOf w), rfl, fitsShamt_toNat _, formatShift_of_masked_eq h⟩
  | srli _ _ _ => exact ⟨.srli (rdOf w) (rs1Of w) (shamtOf w), rfl, fitsShamt_toNat _, formatShift_of_masked_eq h⟩
  | srai _ _ _ => exact ⟨.srai (rdOf w) (rs1Of w) (shamtOf w), rfl, fitsShamt_toNat _, formatShift_of_masked_eq h⟩
  | add _ _ _ => exact ⟨.add (rdOf w) (rs1Of w) (rs2Of w), rfl, rfl, formatR_of_masked_eq h⟩
  | sub _ _ _ => exact ⟨.sub (rdOf w) (rs1Of w) (rs2Of w), rfl, rfl, formatR_of_masked_eq h⟩
  | sll _ _ _ => exact ⟨.sll (rdOf w) (rs1Of w) (rs2Of w), rfl, rfl, formatR_of_masked_eq h⟩
  | slt _ _ _ => exact ⟨.slt (rdOf w) (rs1Of w) (rs2Of w), rfl, rfl, formatR_of_masked_eq h⟩
  | sltu _ _ _ => exact ⟨.sltu (rdOf w) (rs1Of w) (rs2Of w), rfl, rfl, formatR_of_masked_eq h⟩
  | xor _ _ _ => exact ⟨.xor (rdOf w) (rs1Of w) (rs2Of w), rfl, rfl, formatR_of_masked_eq h⟩
  | srl _ _ _ => exact ⟨.srl (rdOf w) (rs1Of w) (rs2Of w), rfl, rfl, formatR_of_masked_eq h⟩
  | sra _ _ _ => exact ⟨.sra (rdOf w) (rs1Of w) (rs2Of w), rfl, rfl, formatR_of_masked_eq h⟩
  | or _ _ _ => exact ⟨.or (rdOf w) (rs1Of w) (rs2Of w), rfl, rfl, formatR_of_masked_eq h⟩
  | and _ _ _ => exact ⟨.and (rdOf w) (rs1Of w) (rs2Of w), rfl, rfl, formatR_of_masked_eq h⟩
  | sb _ _ _ => exact ⟨.sb (rs1Of w) (rs2Of w) (immSOf w), rfl, fitsSigned12_toInt _, formatS_of_masked_eq h⟩
  | sh _ _ _ => exact ⟨.sh (rs1Of w) (rs2Of w) (immSOf w), rfl, fitsSigned12_toInt _, formatS_of_masked_eq h⟩
  | sw _ _ _ => exact ⟨.sw (rs1Of w) (rs2Of w) (immSOf w), rfl, fitsSigned12_toInt _, formatS_of_masked_eq h⟩
  | beq _ _ _ => exact ⟨.beq (rs1Of w) (rs2Of w) (offsetSBOf w), rfl, fitsSigned12_toInt _, formatSB_of_masked_eq h⟩
  | bne _ _ _ => exact ⟨.bne (rs1Of w) (rs2Of w) (offsetSBOf w), rfl, fitsSigned12_toInt _, formatSB_of_masked_eq h⟩
  | blt _ _ _ => exact ⟨.blt (rs1Of w) (rs2Of w) (offsetSBOf w), rfl, fitsSigned12_toInt _, formatSB_of_masked_eq h⟩
  | bge _ _ _ => exact ⟨.bge (rs1Of w) (rs2Of w) (offsetSBOf w), rfl, fitsSigned12_toInt _, formatSB_of_masked_eq h⟩
  | bltu _ _ _ =>
    exact ⟨.bltu (rs1Of w) (rs2Of w) (offsetSBOf w), rfl, fitsSigned12_toInt _, formatSB_of_masked_eq h⟩
  | bgeu _ _ _ =>
    exact ⟨.bgeu (rs1Of w) (rs2Of w) (offsetSBOf w), rfl, fitsSigned12_toInt _, formatSB_of_masked_eq h⟩
  | lui _ _ => exact ⟨.lui (rdOf w) (immUOf w), rfl, fitsUnsigned20_toNat _, formatU_of_masked_eq h⟩
  | auipc _ _ => exact ⟨.auipc (rdOf w) (immUOf w), rfl, fitsUnsigned20_toNat _, formatU_of_masked_eq h⟩
  | jal _ _ => exact ⟨.jal (rdOf w) (offsetUJOf w), rfl, fitsSigned20_toInt _, formatUJ_of_masked_eq h⟩

end Matching

/-! ## A decoded word matches its instruction's row -/

/-- What R79 says of the record that `w` decodes to: an instruction whose row `w` matches, or `Invalid(w)`. -/
def FollowsRow (w : Word) : Record → Prop
  | .instr i => w &&& i.row.mask = i.row.pattern
  | .invalid v => v = w

section Decoded

variable {w : Word}

theorem matches_of_opcode {op : BitVec 7} (hop : opcodeOf w = op) : w &&& 0x0000007F#32 = op.setWidth 32 := by
  rw [← hop, ← encodeU_masked (immUOf w) (rdOf w) (opcodeOf w), encodeU_fields]

theorem matches_of_funct3 {op : BitVec 7} {f3 : BitVec 3} (hop : opcodeOf w = op) (hf3 : funct3Of w = f3) :
    w &&& 0x0000707F#32 = (f3.setWidth 32 <<< 12) ||| op.setWidth 32 := by
  rw [← hop, ← hf3, ← encodeI_masked (immIOf w) (rs1Of w) _ (rdOf w), encodeI_fields]

theorem matches_of_funct7 {op f7 : BitVec 7} {f3 : BitVec 3} (hop : opcodeOf w = op) (hf3 : funct3Of w = f3)
    (hf7 : funct7Of w = f7) :
    w &&& 0xFE00707F#32 = (f7.setWidth 32 <<< 25) ||| (f3.setWidth 32 <<< 12) ||| op.setWidth 32 := by
  rw [← hop, ← hf3, ← hf7, ← encodeR_masked _ (rs2Of w) (rs1Of w) _ (rdOf w), encodeR_fields]

theorem followsRow_decodeLoad (hop : opcodeOf w = 0x03#7) : FollowsRow w (decodeLoad w) := by
  unfold decodeLoad
  split_ifs with h0 h1 h2 h4 h5
  exacts [matches_of_funct3 hop h0, matches_of_funct3 hop h1, matches_of_funct3 hop h2, matches_of_funct3 hop h4,
    matches_of_funct3 hop h5, rfl]

/-- The last branch of `decodeAluImm` is left with funct3 5. -/
theorem funct3_eq_5 {f : BitVec 3} (h0 : f ≠ 0#3) (h2 : f ≠ 2#3) (h3 : f ≠ 3#3) (h4 : f ≠ 4#3) (h6 : f ≠ 6#3)
    (h7 : f ≠ 7#3) (h1 : f ≠ 1#3) : f = 5#3 := by
  bv_omega

theorem followsRow_decodeAluImm (hop : opcodeOf w = 0x13#7) : FollowsRow w (decodeAluImm w) := by
  unfold decodeAluImm
  split_ifs with h0 h2 h3 h4 h6 h7 h1 hf7 hsrl hsra
  exacts [matches_of_funct3 hop h0, matches_of_funct3 hop h2, matches_of_funct3 hop h3, matches_of_funct3 hop h4,
    matches_of_funct3 hop h6, matches_of_funct3 hop h7, matches_of_funct7 hop h1 hf7, rfl,
    matches_of_funct7 hop (funct3_eq_5 h0 h2 h3 h4 h6 h7 h1) hsrl,
    matches_of_funct7 hop (funct3_eq_5 h0 h2 h3 h4 h6 h7 h1) hsra, rfl]

/-- The last branch of `decodeAluReg` with funct7 0 is left with funct3 7. -/
theorem funct3_eq_7 {f : BitVec 3} (h0 : f ≠ 0#3) (h1 : f ≠ 1#3) (h2 : f ≠ 2#3) (h3 : f ≠ 3#3) (h4 : f ≠ 4#3)
    (h5 : f ≠ 5#3) (h6 : f ≠ 6#3) : f = 7#3 := by
  bv_omega

theorem followsRow_decodeAluReg (hop : opcodeOf w = 0x33#7) : FollowsRow w (decodeAluReg w) := by
  unfold decodeAluReg
  split_ifs with hf7 h0 h1 h2 h3 h4 h5 h6 hf7' hsub hsra
  exacts [matches_of_funct7 hop h0 hf7, matches_of_funct7 hop h1 hf7, matches_of_funct7 hop h2 hf7,
    matches_of_funct7 hop h3 hf7, matches_of_funct7 hop h4 hf7, matches_of_funct7 hop h5 hf7,
    matches_of_funct7 hop h6 hf7, matches_of_funct7 hop (funct3_eq_7 h0 h1 h2 h3 h4 h5 h6) hf7,
    matches_of_funct7 hop hsub hf7', matches_of_funct7 hop hsra hf7', rfl, rfl]

theorem followsRow_decodeStore (hop : opcodeOf w = 0x23#7) : FollowsRow w (decodeStore w) := by
  unfold decodeStore
  split_ifs with h0 h1 h2
  exacts [matches_of_funct3 hop h0, matches_of_funct3 hop h1, matches_of_funct3 hop h2, rfl]

theorem followsRow_decodeBranch (hop : opcodeOf w = 0x63#7) : FollowsRow w (decodeBranch w) := by
  unfold decodeBranch
  split_ifs with h0 h1 h4 h5 h6 h7
  exacts [matches_of_funct3 hop h0, matches_of_funct3 hop h1, matches_of_funct3 hop h4, matches_of_funct3 hop h5,
    matches_of_funct3 hop h6, matches_of_funct3 hop h7, rfl]

/-- R79: every word decodes to an instruction whose row it matches, or to its own `Invalid`. -/
theorem followsRow_decode (w : Word) : FollowsRow w (decode w) := by
  unfold decode
  split_ifs with hload himm hreg hstore hbranch hjalr hf3 hscall hw hlui hauipc hjal
  exacts [followsRow_decodeLoad hload, followsRow_decodeAluImm himm, followsRow_decodeAluReg hreg,
    followsRow_decodeStore hstore, followsRow_decodeBranch hbranch, matches_of_funct3 hjalr hf3, rfl,
    hw ▸ rfl, rfl, matches_of_opcode hlui, matches_of_opcode hauipc, matches_of_opcode hjal, rfl]

theorem matches_row_of_decode {i : Instr} (h : decode w = .instr i) : w &&& i.row.mask = i.row.pattern := by
  simpa [h, FollowsRow] using followsRow_decode w

theorem decode_eq_invalid_of_no_match (h : ∀ i : Instr, w &&& i.row.mask ≠ i.row.pattern) :
    decode w = .invalid w := by
  have hrow := followsRow_decode w
  cases hd : decode w with
  | instr i => exact absurd (matches_row_of_decode hd) (h i)
  | invalid v =>
    rw [hd] at hrow
    exact congrArg Record.invalid hrow

end Decoded

/-! ## Encoding a decoded word (R80), and the opcode table (R71 to R79) -/

/-- The decoder gives exactly the well-formed instruction whose encoding the word is. -/
theorem decode_eq_instr_iff {w : Word} {i : Instr} : decode w = .instr i ↔ encode i = w ∧ i.wellFormed = true := by
  constructor
  · intro h
    obtain ⟨j, -, hwf, -, rfl⟩ := exists_encode_eq_of_matches_row (matches_row_of_decode h)
    obtain rfl : j = i := Record.instr.inj ((decode_encode hwf).symm.trans h)
    exact ⟨rfl, hwf⟩
  · rintro ⟨rfl, hwf⟩
    exact decode_encode hwf

/-- Settles O3 by `decode_eq_instr_iff`. -/
theorem encodeOfDecodeIsTheWord : Obligations.EncodeOfDecodeIsTheWord :=
  fun _ _ => decode_eq_instr_iff.1

/-- Settles O4: a word of a row encodes an instruction of that row with the fields of the word, and decoding gives it
back; a word of no row can only decode to `Invalid`. -/
theorem decodeFollowsTheOpcodeTable : Obligations.DecodeFollowsTheOpcodeTable := by
  intro w
  constructor
  · intro row hrow hmatch
    obtain ⟨i, rfl⟩ := exists_row_eq_of_mem_opcodeTable hrow
    obtain ⟨j, hj, hwf, hfields, henc⟩ := exists_encode_eq_of_matches_row hmatch
    exact ⟨j, decode_eq_instr_iff.2 ⟨henc, hwf⟩, hj, hfields⟩
  · intro hnone
    exact decode_eq_invalid_of_no_match fun i => hnone _ (row_mem_opcodeTable i)

/-- Settles O1 by evaluating the decoder on each word. -/
theorem wordsOfTheSpecDecode : Obligations.WordsOfTheSpecDecode := by
  unfold Obligations.WordsOfTheSpecDecode
  decide

/-! ## Refusals of construction (R67, 00_scope.md R9) -/

open Machine

section Construction

variable {p : Params} {program : List Record}

theorem firstIllFormed_eq_none (h : ∀ r ∈ program, r.wellFormed = true) : firstIllFormed program = none := by
  simpa [firstIllFormed] using h

theorem firstIllFormed_eq_some {k : Nat} (hk : k < program.length) (hbad : program[k].wellFormed = false)
    (hgood : ∀ j, (hj : j < k) → program[j].wellFormed = true) : firstIllFormed program = some k :=
  List.findIdx?_eq_some_iff_getElem.2 ⟨hk, by simpa using hbad, fun j hj => by simpa using hgood j hj⟩

/-- With parameters that R9 allows, construction is decided by the records alone. -/
theorem construct_of_wellFormed (hp : p.WellFormed) : State.construct p program =
    (firstIllFormed program).elim (.ok (State.initial p program)) fun k => .error (.illFormedRecord k) := by
  obtain ⟨hsets, hwords⟩ := hp
  rw [State.construct, if_neg (by omega), if_neg (by omega)]
  cases firstIllFormed program <;> rfl

end Construction

/-- Settles O14: the parameters are checked first, in order, then the records. -/
theorem constructionRefusesByName : Obligations.ConstructionRefusesByName := by
  intro p program
  refine ⟨fun hsets => ?_, fun hsets hwords => ?_, fun hp hgood => ?_, fun hp k hk hbad hgood => ?_⟩
  · rw [State.construct, if_pos hsets]
  · rw [State.construct, if_neg hsets, if_pos hwords]
  · rw [construct_of_wellFormed hp, firstIllFormed_eq_none hgood]
    exact ⟨_, rfl⟩
  · rw [construct_of_wellFormed hp, firstIllFormed_eq_some hk hbad hgood]
    rfl

end Sys2Proof

/-! The proofs of the statements of 40_value_types.md: each operator and conversion by its readings, the bytes of a
value, and the laws. -/

namespace Sys2Proof.Machine

section Values

variable {n m : Nat}

/-! ## Addition and subtraction (R87, R88) -/

theorem toNat_valueAdd (a b : BitVec n) : (valueAdd a b).toNat = (a.toNat + b.toNat) % 2 ^ n := BitVec.toNat_add a b

/-- The balanced remainder of the library in the spec's own form: shifted by half the modulus, reduced, shifted back. -/
theorem bmod_two_mul {h : Nat} (hpos : 0 < h) (x : Int) :
    x.bmod (2 * h) = (x + h) % (2 * h : Nat) - h := by
  have hlow : 0 ≤ (x + h) % (2 * h : Nat) := Int.emod_nonneg _ (by omega)
  have hhigh : (x + h) % (2 * h : Nat) < (2 * h : Nat) := Int.emod_lt_of_pos _ (by omega)
  calc x.bmod (2 * h) = ((x + h) % (2 * h : Nat) - h).bmod (2 * h) := by
        rw [Int.emod_sub_bmod, add_sub_cancel_right]
    _ = (x + h) % (2 * h : Nat) - h := Int.bmod_eq_of_le_mul_two (by omega) (by omega)

theorem toInt_valueAdd (hn : 0 < n) (a b : BitVec n) :
    (valueAdd a b).toInt = (a.toInt + b.toInt + 2 ^ (n - 1)) % 2 ^ n - 2 ^ (n - 1) := by
  rw [valueAdd, BitVec.toInt_add, ← mul_pow_sub_one hn.ne' (2 : Nat), bmod_two_mul (by positivity),
    mul_pow_sub_one hn.ne', Nat.cast_pow, Nat.cast_pow, Nat.cast_ofNat]

theorem toNat_valueSub (a b : BitVec n) : ((valueSub a b).toNat : Int) = ((a.toNat : Int) - b.toNat) % 2 ^ n := by
  have hb : b.toNat ≤ 2 ^ n := b.isLt.le
  rw [valueSub, BitVec.toNat_sub]
  push_cast [hb]
  rw [sub_add_eq_add_sub, add_sub_assoc, Int.add_emod_left]

/-! ## The bitwise operators and the comparisons (R89, R92) -/

section Bits

variable (a b : BitVec n) (j : Nat)

@[simp] theorem getLsbD_valueAnd : (valueAnd a b).getLsbD j = (a.getLsbD j && b.getLsbD j) := BitVec.getLsbD_and
@[simp] theorem getLsbD_valueOr : (valueOr a b).getLsbD j = (a.getLsbD j || b.getLsbD j) := BitVec.getLsbD_or
@[simp] theorem getLsbD_valueXor : (valueXor a b).getLsbD j = (a.getLsbD j ^^ b.getLsbD j) := BitVec.getLsbD_xor

end Bits

section Order

variable (a b : BitVec n)

theorem valueEq_iff : valueEq a b = true ↔ a.toNat = b.toNat := by simp [valueEq, BitVec.toNat_inj]
theorem valueLt_unsigned_iff : valueLt .unsigned a b = true ↔ a.toNat < b.toNat := decide_eq_true_iff
theorem valueLt_signed_iff : valueLt .signed a b = true ↔ a.toInt < b.toInt := decide_eq_true_iff
theorem valueGe_iff (sg : Signedness) : valueGe sg a b = true ↔ valueLt sg a b = false := by simp [valueGe]

end Order

/-! ## Shifts (R90, R91, D5) -/

theorem toNat_valueShl (a : BitVec n) (k : Nat) : (valueShl a k).toNat = a.toNat * 2 ^ (k % n) % 2 ^ n := by
  rw [valueShl, BitVec.toNat_shiftLeft, Nat.shiftLeft_eq]

theorem toNat_valueShr_unsigned (a : BitVec n) (k : Nat) :
    (valueShr .unsigned a k).toNat = a.toNat / 2 ^ (k % n) := by
  rw [valueShr, BitVec.toNat_ushiftRight, Nat.shiftRight_eq_div_pow]

theorem toInt_valueShr_signed (a : BitVec n) (k : Nat) : (valueShr .signed a k).toInt = a.toInt / 2 ^ (k % n) := by
  rw [valueShr, BitVec.toInt_sshiftRight, Int.shiftRight_eq_div_pow, Nat.cast_pow, Nat.cast_ofNat]

/-! ## Conversions (R94 to R96) -/

theorem valueConvert_of_le (sg : Signedness) (h : m ≤ n) (v : BitVec n) : valueConvert sg m v = v.setWidth m :=
  if_pos h

/-- At a width no larger both readings keep the low bits, so zero extension is the whole meaning. -/
theorem valueConvert_unsigned (v : BitVec n) : valueConvert .unsigned m v = v.setWidth m := ite_self _

theorem valueConvert_signed (v : BitVec n) : valueConvert .signed m v = v.signExtend m := by
  by_cases h : m ≤ n
  · rw [valueConvert_of_le _ h, BitVec.signExtend_eq_setWidth_of_le v h]
  · exact if_neg h

/-- Narrowing undoes widening, whichever signedness each is done with. -/
theorem valueConvert_valueConvert (sg sg' : Signedness) (h : n ≤ m) (v : BitVec n) :
    valueConvert sg' n (valueConvert sg m v) = v := by
  rw [valueConvert_of_le sg' h]
  cases sg with
  | unsigned => rw [valueConvert_unsigned, BitVec.setWidth_setWidth_of_le v h, BitVec.setWidth_eq]
  | signed =>
    rw [valueConvert_signed]
    ext j hj
    simp [BitVec.getElem_signExtend, hj, hj.trans_le h]

/-! ## Bytes (R98) -/

@[simp] theorem asBytes_length (v : BitVec n) : (asBytes v).length = n / 8 := by simp [asBytes]

theorem toNat_getElem_asBytes (v : BitVec n) {k : Nat} (h : k < (asBytes v).length) :
    (asBytes v)[k].toNat = v.toNat / 2 ^ (8 * k) % 256 := by
  simp [asBytes, BitVec.extractLsb'_toNat, Nat.shiftRight_eq_div_pow]

end Values

end Sys2Proof.Machine

namespace Sys2Proof

open Machine

/-! ## The statements -/

theorem ValueType.bits_pos (t : ValueType) : 0 < t.bits := by cases t <;> decide

/-- Settles O6 at the width of each type, by the library's modular readings of a sum and a difference. -/
theorem additionAndSubtractionWrap : Obligations.AdditionAndSubtractionWrap :=
  fun t a b => ⟨toNat_valueAdd a b, toInt_valueAdd t.bits_pos a b, toNat_valueSub a b⟩

/-- Settles O7: a shift is a product or a quotient of the reading that the type's signedness names. -/
theorem shiftsMultiplyAndDivide : Obligations.ShiftsMultiplyAndDivide := by
  intro t a k
  refine ⟨toNat_valueShl a k, fun hu => ?_, fun hs => ?_⟩
  · rw [ValueType.shr, hu, toNat_valueShr_unsigned]
  · rw [ValueType.shr, hs, toInt_valueShr_signed]

/-- Settles O8; the two orders of `0xFFFFFFFF` and 1 are evaluated. -/
theorem bitwiseAndComparisonOperators : Obligations.BitwiseAndComparisonOperators := by
  refine ⟨fun t a b => ⟨fun j => ?_, valueEq_iff a b, fun hu => ?_, fun hs => ?_, valueGe_iff a b _⟩, ?_⟩
  · exact ⟨getLsbD_valueAnd a b j, getLsbD_valueOr a b j, getLsbD_valueXor a b j⟩
  · rw [ValueType.lt, hu, valueLt_unsigned_iff]
  · rw [ValueType.lt, hs, valueLt_signed_iff]
  · decide

/-- Settles O9: truncation to a narrower type, zero or sign extension to a wider one. -/
theorem conversionsFollowTheSource : Obligations.ConversionsFollowTheSource := by
  intro source target v
  refine ⟨fun hle => ?_, fun hlt hu => ?_, fun hlt hs => ?_⟩
  · rw [ValueType.convert, valueConvert_of_le _ hle, BitVec.toNat_setWidth]
  · rw [ValueType.convert, hu, valueConvert_unsigned, BitVec.toNat_setWidth_of_le hlt.le]
  · rw [ValueType.convert, hs, valueConvert_signed, BitVec.toInt_signExtend_of_le hlt.le]

/-- Settles O10: byte `k` of the list is bits `8k` to `8k + 7`, and writing a word writes that list. -/
theorem asBytesIsLeastSignificantFirst : Obligations.AsBytesIsLeastSignificantFirst :=
  ⟨fun _ v => ⟨asBytes_length v, fun _ => toNat_getElem_asBytes v⟩,
    fun _ i w hm _ => Memory.readByte_writeBytes (4 * i) (asBytes w) hm⟩

/-- Settles O11: addition and subtraction are those of the ring of bit vectors, and narrowing undoes widening. -/
theorem valueTypeLaws : Obligations.ValueTypeLaws := by
  refine ⟨fun t a b c => ⟨?_, ?_, ?_, ?_, ?_, ?_⟩, fun narrow wide v hle => ?_⟩
  · exact BitVec.add_comm a b
  · exact BitVec.add_assoc a b c
  · exact BitVec.add_zero a
  · exact (BitVec.sub_eq_add_neg a b).trans (congrArg (a + ·) (BitVec.zero_sub b).symm)
  · exact BitVec.sub_self a
  · exact BitVec.add_sub_cancel a b
  · exact valueConvert_valueConvert _ _ hle v

end Sys2Proof

/-! The proofs of the statements of 41_dispatch.md: fetching and running a record, what a completed and what a
faulting step leave, and step-back. -/

namespace Sys2Proof.Machine

/-! ## The outcomes of an instruction (41_dispatch.md R105 to R112) -/

/-- The effect a completed instruction logs, tied to what it did to registers and memory (R107): a register write, a
memory write, or none for a branch. -/
inductive HasEffect (i : Instr) (s t : State) : List Action → Prop where
  | register (rd : Reg) (v : Word) (hd : i.destination = some rd) (hb : i.isBranch = false)
      (hregs : t.regs = (s.writeReg rd v).regs) (hmem : t.mem = s.mem) :
      HasEffect i s t [.writeRegister rd (s.readReg rd) (t.readReg rd)]
  | memory (n : Width) (rs1 : Reg) (imm : Int) (v : BitVec n.bits) (hd : i.destination = none)
      (ha : i.access = some (n, rs1, imm)) (hb : i.isBranch = false)
      (hc : checkAccess s.params (effectiveAddress s rs1 imm) n = none) (hregs : t.regs = s.regs)
      (hmem : t.mem = s.mem.writeWord (accessIndex s rs1 imm) (storedWord s (effectiveAddress s rs1 imm) n v)) :
      HasEffect i s t [.writeMemory (effectiveAddress s rs1 imm) n
        ((s.mem.readWord (accessIndex s rs1 imm)).extractLsb' (laneBit (effectiveAddress s rs1 imm) n) n.bits) v]
  | branch (hd : i.destination = none) (ha : i.access = none) (hregs : t.regs = s.regs) (hmem : t.mem = s.mem) :
      HasEffect i s t []

/-- A completed instruction: it logs its reads, its effect and its tail entries, and the run state follows `pc`. -/
structure Completes (i : Instr) (s t : State) (effect : List Action) (latency : Nat) : Prop where
  run : t.run = if s.program.length ≤ t.pc then .finished else s.run
  log : t.log = s.log ++ readEntries s i.sources ++ effect ++ tailEntries latency s.pc t.pc
  hasEffect : HasEffect i s t effect
  latency : i.access = none → latency = 0

/-- A next state of `exec` has completed the instruction or has halted with a fault. -/
theorem exec_completes_or_faults {i : Instr} {s t : State} (h : exec i s = .next t) :
    (∃ effect latency, Completes i s t effect latency) ∨ ∃ kind, Faults s t i.sources kind := by
  cases exec_shape h with
  | compute rd v hd _ hb ht =>
    subst ht
    exact .inl ⟨_, 0, rfl, rfl, .register rd v hd hb rfl rfl, fun _ => rfl⟩
  | load rd n sg rs1 imm hd ha hb _ ht =>
    subst ht
    exact .inl ⟨_, _, rfl, rfl, .register rd _ hd hb rfl rfl, fun hnone => by rw [ha] at hnone; cases hnone⟩
  | store n rs1 imm v hd ha hb hc ht =>
    subst ht
    exact .inl ⟨_, _, rfl, rfl, .memory n rs1 imm v hd ha hb hc rfl rfl,
      fun hnone => by rw [ha] at hnone; cases hnone⟩
  | branch npc hd ha _ ht =>
    subst ht
    exact .inl ⟨[], 0, rfl, by simp [logReads_eq], .branch hd ha rfl rfl, fun _ => rfl⟩
  | fault kind _ ht => exact .inr ⟨kind, ht⟩

section Completed

variable {i : Instr} {s t : State} {effect : List Action} {latency : Nat}

/-- A completed step does not halt (R110). -/
theorem Completes.run_ne_halted (h : Completes i s t effect latency) (hr : s.run = .ready) (kind : FaultKind) :
    t.run ≠ .halted kind := by
  rw [h.run, hr]
  split <;> simp

theorem exists_completes_of_run_ne_halted (h : exec i s = .next t) (hnot : ∀ kind, t.run ≠ .halted kind) :
    ∃ effect latency, Completes i s t effect latency := by
  obtain hdone | ⟨kind, rfl⟩ := exec_completes_or_faults h
  · exact hdone
  · exact absurd rfl (hnot kind)

theorem HasEffect.isEffect (h : HasEffect i s t effect) : IsEffect effect := by
  cases h with
  | register => exact .inr (.inl ⟨_, _, _, rfl⟩)
  | memory => exact .inr (.inr ⟨_, _, _, _, rfl⟩)
  | branch => exact .inl rfl

/-- The log of a completed step with its stall apart: there is one only after an access (R108). -/
theorem Completes.exists_stall (h : Completes i s t effect latency) :
    ∃ stall, t.log = s.log ++ readEntries s i.sources ++ effect ++ stall ++ [.jump s.pc t.pc] ∧ IsStall stall ∧
      (i.access = none → stall = []) := by
  obtain ⟨stall, hstall, heq⟩ := tailEntries_eq latency s.pc t.pc
  refine ⟨stall, by rw [h.log, heq, List.append_assoc _ stall], hstall, fun ha => ?_⟩
  rw [h.latency ha, tailEntries_zero] at heq
  simpa using heq

end Completed

/-- Settles O38: a step that completes does not halt, and a step that faults is as `Faults` says. -/
theorem faultingStepChangesNothingElse : Obligations.FaultingStepChangesNothingElse := by
  intro i s t kind hr h hhalt
  obtain ⟨_, _, hdone⟩ | ⟨kind', rfl⟩ := exec_completes_or_faults h
  · exact absurd hhalt (hdone.run_ne_halted hr kind)
  · cases hhalt
    rfl

/-- Settles O42: each kind of effect is the one its instructions have. -/
theorem effectsAndStallsAreLogged : Obligations.EffectsAndStallsAreLogged := by
  intro i s t _ h hnot
  obtain ⟨effect, latency, hdone⟩ := exists_completes_of_run_ne_halted h hnot
  obtain ⟨stall, hlog, hstall, hnone⟩ := hdone.exists_stall
  cases hdone.hasEffect with
  | register rd v hd hb _ _ =>
    refine ⟨_, stall, hlog, by simp [hb], fun rd' hrd => ?_, by simp [Instr.isStore, hd], hstall, hnone⟩
    cases hd.symm.trans hrd
    rfl
  | memory n rs1 imm v hd ha hb _ _ _ =>
    refine ⟨_, stall, hlog, by simp [hb], by simp [hd], fun _ n' rs1' imm' hacc => ?_, hstall, hnone⟩
    cases ha.symm.trans hacc
    exact ⟨_, _, rfl⟩
  | branch hd ha _ _ => exact ⟨[], stall, hlog, fun _ => rfl, by simp [hd], by simp [ha], hstall, hnone⟩

/-! ## Where `pc` goes (R109, 46_branches.md R153) -/

/-- A conditional branch is `branch` with its offset. -/
theorem exec_eq_branch {i : Instr} (s : State) (hb : i.isBranch = true) :
    ∃ taken rs1 rs2 offset, i.branchOffset = some offset ∧ exec i s = branch taken rs1 rs2 offset s := by
  cases i with
  | beq rs1 rs2 offset => exact ⟨_, rs1, rs2, offset, rfl, exec_beq rs1 rs2 offset s⟩
  | bne rs1 rs2 offset => exact ⟨_, rs1, rs2, offset, rfl, exec_bne rs1 rs2 offset s⟩
  | blt rs1 rs2 offset => exact ⟨_, rs1, rs2, offset, rfl, exec_blt rs1 rs2 offset s⟩
  | bge rs1 rs2 offset => exact ⟨_, rs1, rs2, offset, rfl, exec_bge rs1 rs2 offset s⟩
  | bltu rs1 rs2 offset => exact ⟨_, rs1, rs2, offset, rfl, exec_bltu rs1 rs2 offset s⟩
  | bgeu rs1 rs2 offset => exact ⟨_, rs1, rs2, offset, rfl, exec_bgeu rs1 rs2 offset s⟩
  | _ => cases hb

theorem branch_pc {taken : Word → Word → Bool} {rs1 rs2 : Reg} {offset : Int} {s t : State}
    (h : branch taken rs1 rs2 offset s = .next t) : t.pc = s.pc + 1 ∨ (t.pc : Int) = s.pc + offset := by
  cases htaken : taken (s.readReg rs1) (s.readReg rs2) with
  | false =>
    rw [branch_not_taken htaken] at h
    cases h
    exact .inl rfl
  | true =>
    by_cases hp : 0 ≤ (s.pc : Int) + offset
    · rw [branch_taken htaken hp] at h
      cases h
      exact .inr (Int.toNat_of_nonneg hp)
    · rw [branch_negative htaken (by omega)] at h
      cases h

theorem exec_pc {i : Instr} {s t : State} (h : exec i s = .next t) (hnot : ∀ kind, t.run ≠ .halted kind) :
    t.pc = s.pc + 1 ∨ ∃ offset, i.branchOffset = some offset ∧ (t.pc : Int) = s.pc + offset := by
  cases exec_shape h with
  | compute _ _ _ _ _ ht => subst ht; exact .inl rfl
  | load _ _ _ _ _ _ _ _ _ ht => subst ht; exact .inl rfl
  | store _ _ _ _ _ _ _ _ ht => subst ht; exact .inl rfl
  | branch _ _ _ hb _ =>
    obtain ⟨taken, rs1, rs2, offset, ho, he⟩ := exec_eq_branch s hb
    exact (branch_pc (he.symm.trans h)).imp_right fun hpc => ⟨offset, ho, hpc⟩
  | fault kind _ ht => subst ht; exact absurd rfl (hnot kind)

/-! ## The entries between the reads and the jump (R112) -/

theorem IsReads.isJump_eq_false {entries : List Action} (h : IsReads entries) {a : Action} (ha : a ∈ entries) :
    a.isJump = false := by
  obtain ⟨_, _, rfl⟩ := h.2 a ha
  rfl

/-- An effect or a stall is no read and no jump. -/
theorem not_read_not_jump_of_mem {effect stall : List Action} (he : IsEffect effect) (hs : IsStall stall) {a : Action}
    (ha : a ∈ effect ++ stall) : (∀ r v, a ≠ .readRegister r v) ∧ ∀ p q, a ≠ .jump p q := by
  rw [List.mem_append] at ha
  obtain ha | ha := ha
  · obtain rfl | ⟨_, _, _, rfl⟩ | ⟨_, _, _, _, rfl⟩ := he
    · cases ha
    all_goals
      obtain rfl := List.mem_singleton.1 ha
      simp
  · obtain rfl | ⟨_, _, rfl⟩ := hs
    · cases ha
    · obtain rfl := List.mem_singleton.1 ha
      simp

/-- Settles O41: the entries between reads and jump are the effect and the stall, and `exec_pc` says where `pc`
stands. -/
theorem stepAppendsOneRecord : Obligations.StepAppendsOneRecord := by
  intro i s t _ h hnot
  obtain ⟨effect, latency, hdone⟩ := exists_completes_of_run_ne_halted h hnot
  obtain ⟨stall, hlog, hstall, -⟩ := hdone.exists_stall
  refine ⟨⟨effect ++ stall, by simp [hlog], fun a ha => ?_⟩, exec_pc h hnot⟩
  exact not_read_not_jump_of_mem hdone.hasEffect.isEffect hstall ha

/-! ## Fetching and running a record (R104, R105, R113) -/

/-- Settles O15: the record at `pc` is the one fetched, and either kind is run. -/
theorem stepRunsTheFetchedRecord : Obligations.StepRunsTheFetchedRecord := by
  intro s hr hpc
  have hp : s.program[s.pc]? = some s.program[s.pc] := List.getElem?_eq_getElem hpc
  have hstep := step_of_fetch hr hp
  refine ⟨_, hp, fun i hi => ?_, fun w hw => ?_⟩
  · rw [hstep, hi]; rfl
  · rw [hstep, hw]; rfl

/-- Settles O16: the record at `pc` is the decoded encoding, which is the instruction (R80). -/
theorem stepRunsTheEncodedInstruction : Obligations.StepRunsTheEncodedInstruction := by
  intro s words i hr hprogram hword hwf
  have hp : s.program[s.pc]? = some (.instr i) := by
    rw [hprogram, programOfWords, List.getElem?_map, hword, Option.map_some, decode_encode hwf]
  exact step_of_fetch hr hp

theorem fetch_eq_none_of_not_ready {s : State} (h : s.run ≠ .ready) : s.fetch = none := if_neg h

theorem step_of_not_ready {s : State} (h : s.run ≠ .ready) : step s = .fault .notReady := by
  rw [step, fetch_eq_none_of_not_ready h]

/-- Settles O17: only a Ready core fetches. -/
theorem stepIsRejectedUnlessReady : Obligations.StepIsRejectedUnlessReady := by
  intro s h
  have hstep := step_of_not_ready h
  exact ⟨hstep, by rw [stepCommand, hstep]⟩

/-! ## Step-back by the end of the log (R115, R116) -/

theorem stepBack_of_log_eq_nil {s : State} (h : s.log = []) : stepBack s = (.emptyHistory, s) := by
  rw [stepBack, h]
  rfl

theorem stepBack_of_getLast?_eq_error {s : State} (h : s.log.getLast? = some .error) :
    stepBack s = (.nothingToReverse, s) := by
  obtain ⟨earlier, hlog⟩ := List.getLast?_eq_some_iff.1 h
  rw [stepBack, hlog, List.reverse_concat]

/-- Settles O51: a case of step-back each. -/
theorem stepBackWithoutHistoryIsANoOp : Obligations.StepBackWithoutHistoryIsANoOp :=
  fun _ => ⟨stepBack_of_log_eq_nil, stepBack_of_getLast?_eq_error⟩

/-- Where a step record begins: at the start of the log or after a Jump (R112, R115). -/
def AtRecordStart (log : List Action) : Prop := log = [] ∨ ∃ earlier p q, log = earlier ++ [.jump p q]

theorem atRecordStart_flatten {records : List (List Action)} (h : ∀ r ∈ records, IsStepRecord r) :
    AtRecordStart records.flatten := by
  obtain rfl | ⟨init, record, rfl⟩ := records.eq_nil_or_concat
  · exact .inl rfl
  · obtain ⟨reads, effect, stall, p, q, rfl, -⟩ := h record (by simp)
    exact .inr ⟨init.flatten ++ (reads ++ effect ++ stall), p, q, by simp⟩

theorem AtRecordStart.takeWhile_reverse {log : List Action} (h : AtRecordStart log) :
    log.reverse.takeWhile (fun a => !a.isJump) = [] := by
  obtain rfl | ⟨earlier, p, q, rfl⟩ := h
  · rfl
  · simp [Action.isJump]

theorem AtRecordStart.dropWhile_reverse {log : List Action} (h : AtRecordStart log) :
    log.reverse.dropWhile (fun a => !a.isJump) = log.reverse := by
  obtain rfl | ⟨earlier, p, q, rfl⟩ := h
  · rfl
  · simp [Action.isJump]

/-- On a log that ends in a Jump, step-back pops the Jump and the entries since the one before it. -/
theorem stepBack_of_log_eq {s : State} {earlier body : List Action} {p q : Nat} (hstart : AtRecordStart earlier)
    (hbody : ∀ a ∈ body, a.isJump = false) (hlog : s.log = earlier ++ body ++ [.jump p q]) :
    stepBack s = (.ok, { body.reverse.foldl undoAction { s with pc := p } with log := earlier, run := .ready }) := by
  have hrev : s.log.reverse = .jump p q :: (body.reverse ++ earlier.reverse) := by simp [hlog]
  have hall : ∀ a ∈ body.reverse, (!a.isJump) = true := by simpa using hbody
  have hpopped : poppedEntries s.log.reverse = .jump p q :: body.reverse := by
    rw [hrev, poppedEntries, List.takeWhile_append_of_pos hall, hstart.takeWhile_reverse, List.append_nil]
  have hkept : (keptEntries s.log.reverse).reverse = earlier := by
    rw [hrev, keptEntries, List.dropWhile_append_of_pos hall, hstart.dropWhile_reverse, List.reverse_reverse]
  have hok : stepBack s = (.ok, { (poppedEntries s.log.reverse).foldl undoAction s with
      log := (keptEntries s.log.reverse).reverse
      run := .ready }) := by
    rw [stepBack, hrev]
  rw [hok, hkept, hpopped, List.foldl_cons]
  rfl

/-! ## Undoing a step record (R115) -/

theorem foldl_undoAction_eq_self {entries : List Action} (h : ∀ a ∈ entries, ∀ s, undoAction s a = s) (s : State) :
    entries.foldl undoAction s = s := by
  induction entries with
  | nil => rfl
  | cons a rest ih =>
    rw [List.foldl_cons, h a List.mem_cons_self]
    exact ih fun b hb => h b (List.mem_cons_of_mem a hb)

theorem IsReads.undo {reads : List Action} (h : IsReads reads) (s : State) :
    reads.reverse.foldl undoAction s = s := by
  refine foldl_undoAction_eq_self (fun a ha u => ?_) s
  obtain ⟨_, _, rfl⟩ := h.2 a (List.mem_reverse.1 ha)
  rfl

theorem IsStall.undo {stall : List Action} (h : IsStall stall) (s : State) :
    stall.reverse.foldl undoAction s = s := by
  obtain rfl | ⟨_, _, rfl⟩ := h <;> rfl

theorem IsEffect.reverse_eq {effect : List Action} (h : IsEffect effect) : effect.reverse = effect := by
  obtain rfl | ⟨_, _, _, rfl⟩ | ⟨_, _, _, _, rfl⟩ := h <;> rfl

theorem IsEffect.undo_pc {effect : List Action} (h : IsEffect effect) (s : State) :
    (effect.foldl undoAction s).pc = s.pc := by
  obtain rfl | ⟨_, _, _, rfl⟩ | ⟨_, _, _, _, rfl⟩ := h
  · rfl
  · rfl
  · exact State.restore_pc s _ _ _

/-- Step-back over a whole step record undoes its effect and takes `pc` back; reads and stall have nothing to undo. -/
theorem stepBack_of_record {s : State} {earlier reads effect stall : List Action} {p q : Nat}
    (hstart : AtRecordStart earlier) (hreads : IsReads reads) (heffect : IsEffect effect) (hstall : IsStall stall)
    (hlog : s.log = earlier ++ (reads ++ effect ++ stall ++ [.jump p q])) :
    stepBack s = (.ok, { effect.foldl undoAction { s with pc := p } with log := earlier, run := .ready }) := by
  have hbody : ∀ a ∈ reads ++ (effect ++ stall), a.isJump = false := by
    intro a ha
    obtain ha | ha := List.mem_append.1 ha
    · exact hreads.isJump_eq_false ha
    · cases a with
      | jump p q => exact absurd rfl ((not_read_not_jump_of_mem heffect hstall ha).2 p q)
      | _ => rfl
  rw [stepBack_of_log_eq (p := p) (q := q) hstart hbody (by simp [hlog]), List.reverse_append, List.reverse_append,
    heffect.reverse_eq, List.foldl_append, List.foldl_append, hstall.undo, hreads.undo]

/-! ## A step taken back (R118) -/

/-- Undoing the effect of a completed instruction gives registers and memory back, whatever `pc` is. -/
theorem HasEffect.undo {i : Instr} {s t : State} {effect : List Action} (h : HasEffect i s t effect)
    (hm : s.mem.wf = true) (pc : Nat) :
    (effect.foldl undoAction { t with pc := pc }).regs = s.regs ∧
      (effect.foldl undoAction { t with pc := pc }).mem = s.mem := by
  cases h with
  | register rd v _ _ hregs hmem =>
    refine ⟨?_, hmem⟩
    rw [← s.writeReg_undo rd v]
    simp only [List.foldl_cons, List.foldl_nil, undoAction, State.writeReg_regs, hregs]
  | memory n rs1 imm v _ _ _ hc hregs hmem =>
    exact ⟨(State.restore_regs _ _ _ _).trans hregs, restore_after_store (v := v) hm hc hmem⟩
  | branch _ _ hregs hmem => exact ⟨hregs, hmem⟩

/-- Settles O50: the record the step has logged is the one step-back pops, and undoing its effect restores registers
and memory. -/
theorem stepThenStepBackRestores : Obligations.StepThenStepBackRestores := by
  intro s t hinv hhist hstep hnot
  obtain ⟨hr, ⟨i, -, hexec⟩ | ⟨w, -, rfl⟩⟩ := step_cases hstep
  · obtain ⟨effect, latency, hdone⟩ := exists_completes_of_run_ne_halted hexec hnot
    obtain ⟨stall, hlog, hstall, -⟩ := hdone.exists_stall
    have heffect := hdone.hasEffect.isEffect
    have hstart : AtRecordStart s.log := by
      obtain ⟨records, heq, hrecords⟩ := hhist.shape.exists_records (hhist.log_not_error hr)
      exact heq ▸ atRecordStart_flatten hrecords
    have hreads := isReads_readEntries s (sources_length_le_two i)
    rw [stepBack_of_record (p := s.pc) (q := t.pc) hstart hreads heffect hstall (by simp [hlog])]
    obtain ⟨hregs, hmem⟩ := hdone.hasEffect.undo hinv.canonical s.pc
    exact ⟨rfl, hregs, hmem, heffect.undo_pc _, hr.symm, rfl⟩
  · exact absurd rfl (hnot .unsupportedInstruction)

/-! ## Step-back and the invariants (R27, R59, R112) -/

/-- Undoing a reversible entry keeps the memory invariant: a restore writes an accessible word through the cache. -/
theorem MemoryInv.undoAction {s : State} {a : Action} (h : MemoryInv s) (ha : Reversible s a) :
    MemoryInv (undoAction s a) := by
  cases a with
  | writeMemory addr n before after =>
    change MemoryInv (s.restore addr n before)
    rw [State.restore_eq]
    exact h.cacheWrite _ _ (checkAccess_eq_none.1 ha).2
  | readRegister | writeRegister | jump | stall | error => exact .congr (s := s) rfl rfl rfl h

theorem MemoryInv.foldl_undoAction {s : State} {entries : List Action} (h : MemoryInv s)
    (hrev : ∀ a ∈ entries, Reversible s a) : MemoryInv (entries.foldl Machine.undoAction s) := by
  induction entries generalizing s with
  | nil => exact h
  | cons a rest ih =>
    refine ih (h.undoAction (hrev a List.mem_cons_self)) fun b hb => ?_
    exact (hrev b (List.mem_cons_of_mem a hb)).congr (undoAction_params s a) (undoAction_program s a)

/-- A Ready core whose `pc` is in the program and whose log is an initial part, of whole step records, of the log of a
core with the history invariant has the invariant too. -/
theorem HistoryInv.of_earlier_records {s t : State} {records : List (List Action)} (h : HistoryInv s)
    (hrecords : ∀ r ∈ records, IsStepRecord r) (hlog : t.log = records.flatten) (hsub : t.log ⊆ s.log)
    (hrun : t.run = .ready) (hpc : t.pc < t.program.length) (hprogram : t.program = s.program)
    (hparams : t.params = s.params) : HistoryInv t where
  ready _ := hpc
  finished hfin := by rw [hrun] at hfin; cases hfin
  halted _ hh := by rw [hrun] at hh; cases hh
  errorLast := by
    refine iff_of_false ?_ (by simp [hrun])
    obtain heq | ⟨earlier, p, q, heq⟩ := atRecordStart_flatten hrecords
    all_goals simp [hlog, heq]
  shape := ⟨records, [], by simp [hlog], hrecords, .inl rfl⟩
  reversible a ha := (h.reversible a (hsub ha)).congr hparams hprogram

/-- A log of at least one step record, taken apart before the last one. -/
theorem exists_last_record {records : List (List Action)} (h : ∀ r ∈ records, IsStepRecord r)
    (hne : records.flatten ≠ []) :
    ∃ (init : List (List Action)) (record : List Action), (∀ r ∈ init, IsStepRecord r) ∧ IsStepRecord record ∧
      records.flatten = init.flatten ++ record := by
  obtain rfl | ⟨init, record, rfl⟩ := records.eq_nil_or_concat
  · exact absurd rfl hne
  · exact ⟨init, record, fun r hr => h r (by simp [hr]), h record (by simp), by simp⟩

/-- Settles O48: step-back changes nothing or takes back the last step record, whose entries are reversible. -/
theorem stepBackKeepsInvariants : Obligations.StepBackKeepsInvariants := by
  intro s hinv hhist
  by_cases hnil : s.log = []
  · rw [stepBack_of_log_eq_nil hnil]
    exact ⟨hinv, hhist⟩
  by_cases herror : s.log.getLast? = some .error
  · rw [stepBack_of_getLast?_eq_error herror]
    exact ⟨hinv, hhist⟩
  obtain ⟨records, heq, hrecords⟩ := hhist.shape.exists_records herror
  obtain ⟨init, _, hinit, ⟨reads, effect, stall, p, q, rfl, hreads, heffect, hstall⟩, hlast⟩ :=
    exists_last_record hrecords (heq ▸ hnil)
  have hlog := heq.trans hlast
  have hrev : ∀ a ∈ reads ++ effect ++ stall ++ [.jump p q], Reversible s a :=
    fun a ha => hhist.reversible a (by rw [hlog]; exact List.mem_append_right _ ha)
  have hp : p < s.program.length := hrev (.jump p q) (by simp)
  rw [stepBack_of_record (atRecordStart_flatten hinit) hreads heffect hstall hlog]
  obtain ⟨hprogram, hparams⟩ := foldl_undoAction_program_params effect { s with pc := p }
  constructor
  · have hmem : MemoryInv { s with pc := p } := .congr (s := s) rfl rfl rfl hinv
    have hundone := hmem.foldl_undoAction (entries := effect) fun a ha => (hrev a (by simp [ha])).congr rfl rfl
    exact .congr (s := effect.foldl undoAction { s with pc := p }) rfl rfl rfl hundone
  · refine hhist.of_earlier_records hinit rfl ?_ rfl ?_ hprogram hparams
    · rw [hlog]
      exact List.subset_append_left _ _
    · exact (heffect.undo_pc _).trans_lt (hp.trans_eq (congrArg List.length hprogram.symm))

/-! ## Step-back and the cache (R117) -/

theorem undoAction_lineTags (s : State) (a : Action) : (undoAction s a).lineTags = s.lineTags := by
  cases a with
  | writeMemory addr n before after =>
    change (s.restore addr n before).lineTags = s.lineTags
    rw [State.restore_eq]
    exact cacheAfterWrite_tags s _ _
  | readRegister | writeRegister | jump | stall | error => rfl

theorem foldl_undoAction_lineTags (entries : List Action) (s : State) :
    (entries.foldl undoAction s).lineTags = s.lineTags := by
  induction entries generalizing s with
  | nil => rfl
  | cons a rest ih => exact (ih (undoAction s a)).trans (undoAction_lineTags s a)

/-- Settles O52: step-back undoes entries, none of which writes a tag or a valid bit. -/
theorem stepBackKeepsValidBitsAndTags : Obligations.StepBackKeepsValidBitsAndTags := by
  intro s
  unfold stepBack
  split
  · rfl
  · rfl
  · exact foldl_undoAction_lineTags _ s

end Sys2Proof.Machine

/-! The proofs of the statements of 42_loads.md: where a load reads, the value it leaves in its destination, and the
fault it takes instead. -/

namespace Sys2Proof.Machine

/-! ## The address and its check (42_loads.md R120, 20_memory.md R49) -/

/-- The address wraps modulo 2^32 (R120). -/
theorem toNat_effectiveAddress (s : State) (rs1 : Reg) (imm : Int) :
    ((effectiveAddress s rs1 imm).toNat : Int) = ((s.readReg rs1).toNat + imm) % 2 ^ 32 := by
  rw [effectiveAddress, immWord, toNat_valueAdd, BitVec.toNat_ofInt]
  omega

section Check

variable {p : Params} {addr : Word} {n : Width}

theorem checkAccess_half_of_odd (hodd : addr.toNat % 2 = 1) : checkAccess p addr .half = some .alignmentFault :=
  checkAccess_eq_some.2 (by rw [if_pos ⟨rfl, hodd⟩])

/-- An access beyond the memory that is not misaligned faults with InvalidAddress. -/
theorem checkAccess_of_memWords_le (hn : ¬(n = .half ∧ addr.toNat % 2 = 1)) (hb : p.memWords ≤ addr.toNat / 4) :
    checkAccess p addr n = some .invalidAddress :=
  checkAccess_eq_some.2 (by rw [if_neg hn]; exact ⟨rfl, hb⟩)

end Check

/-! ## What a load leaves (42_loads.md R120, 60_exceptions.md R173) -/

section Load

variable {s : State} {n : Width} {rs1 : Reg} {imm : Int}

/-- A load whose check passes completes with the addressed bits `bits` of the word, widened to `v`. -/
theorem load_loads {sg : Signedness} {bits : BitVec n.bits} {v : Word} (rd : Reg)
    (hc : checkAccess s.params (effectiveAddress s rs1 imm) n = none)
    (hbits : (s.mem.readWord (accessIndex s rs1 imm)).extractLsb' (laneBit (effectiveAddress s rs1 imm) n) n.bits =
      bits)
    (hv : widenToWord sg bits = v) :
    ∃ t, load n sg rd rs1 imm s = .next t ∧ Loads s t rd v := by
  subst hbits hv
  refine ⟨_, load_ok sg rd hc, ⟨rfl, rfl, rfl, rfl⟩, fun r => ?_, fun _ => rfl⟩
  rw [State.readReg_retireTo, State.readReg_writeDest]
  rfl

/-- A load whose check fails takes its fault, with the base register read. -/
theorem load_faults (sg : Signedness) (rd : Reg) {kind : FaultKind}
    (hc : checkAccess s.params (effectiveAddress s rs1 imm) n = some kind) :
    ∃ t, load n sg rd rs1 imm s = .next t ∧ Faults s t [rs1] kind :=
  ⟨_, load_fault sg rd hc, rfl⟩

end Load

/-! ## Widening to a word (40_value_types.md R100) -/

theorem widenToWord_signed {n : Nat} (v : BitVec n) : widenToWord .signed v = v.signExtend 32 := valueConvert_signed v

theorem widenToWord_unsigned {n : Nat} (v : BitVec n) : widenToWord .unsigned v = v.setWidth 32 :=
  valueConvert_unsigned v

/-! ## The statements -/

/-- Settles O25: the addressed bits are the byte, and only accessibility is checked. -/
theorem byteLoadResults : Obligations.ByteLoadResults := by
  intro s rd rs1 imm _ _ addr
  refine ⟨toNat_effectiveAddress s rs1 imm, Laws.RowMatch.lb _ _ _, Laws.RowMatch.lbu _ _ _, fun hb => ?_,
    fun hb => ?_⟩
  all_goals rw [exec_lb, exec_lbu]
  · have hc : checkAccess s.params addr .byte = none := checkAccess_of_ne_half (by decide) hb
    have hbyte := Memory.byte_of_word s.mem addr.toNat
    exact ⟨load_loads rd hc hbyte (widenToWord_signed _), load_loads rd hc hbyte (widenToWord_unsigned _)⟩
  · have hc : checkAccess s.params addr .byte = some .invalidAddress := checkAccess_of_memWords_le (by simp) hb
    exact ⟨load_faults .signed rd hc, load_faults .unsigned rd hc⟩

/-- Settles O26: at an even address the addressed bits are the half-word; alignment is checked before accessibility. -/
theorem halfWordLoadResults : Obligations.HalfWordLoadResults := by
  intro s rd rs1 imm _ _ addr half
  refine ⟨toNat_effectiveAddress s rs1 imm, Laws.RowMatch.lh _ _ _, Laws.RowMatch.lhu _ _ _, fun heven hb => ?_,
    fun hodd => ?_, fun heven hb => ?_⟩
  all_goals rw [exec_lh, exec_lhu]
  · have hc : checkAccess s.params addr .half = none := checkAccess_of_even .half heven hb
    have hhalf := Memory.half_of_word s.mem addr.toNat heven
    exact ⟨load_loads rd hc hhalf (widenToWord_signed _), load_loads rd hc hhalf (widenToWord_unsigned _)⟩
  · have hc : checkAccess s.params addr .half = some .alignmentFault := checkAccess_half_of_odd hodd
    exact ⟨load_faults .signed rd hc, load_faults .unsigned rd hc⟩
  · have hc : checkAccess s.params addr .half = some .invalidAddress :=
      checkAccess_of_memWords_le (by simp [heven]) hb
    exact ⟨load_faults .signed rd hc, load_faults .unsigned rd hc⟩

/-- Settles O27: the addressed bits are the whole word, whatever the low bits of the address. -/
theorem wordLoadResults : Obligations.WordLoadResults := by
  intro s rd rs1 imm _ _ addr start
  refine ⟨toNat_effectiveAddress s rs1 imm, Laws.RowMatch.lw _ _ _, fun hb => ?_, fun hb => ?_⟩
  all_goals rw [exec_lw]
  · have hc : checkAccess s.params addr .word = none := checkAccess_of_ne_half (by decide) hb
    exact load_loads rd hc BitVec.extractLsb'_eq_self ((widenToWord_unsigned _).trans (BitVec.setWidth_eq _))
  · have hc : checkAccess s.params addr .word = some .invalidAddress := checkAccess_of_memWords_le (by simp) hb
    exact load_faults .unsigned rd hc

end Sys2Proof.Machine

/-! The proofs of the statements of 43_alu_imm.md: the state that computing a register leaves, the immediate as a
word, and each opcode's operator by its readings. -/

namespace Sys2Proof.Machine

/-! ## What computing a register leaves (43_alu_imm.md R126, 44_alu_reg.md R136) -/

/-- Logging reads, writing `rd` and retiring to the next instruction computes `rd`, whatever the sources are. -/
theorem computesRegister_writeDest (s : State) (sources : List Reg) (rd : Reg) (v : Word) :
    ComputesRegister s (((s.logReads sources).writeDest rd v).retireTo 0 (s.pc + 1)) rd v where
  step := ⟨rfl, rfl, rfl, rfl⟩
  regs r := by rw [State.readReg_retireTo, State.readReg_writeDest, State.readReg_logReads]
  mem := rfl
  cache := rfl

theorem aluImm_computes {f : Word → Word} {rd rs1 : Reg} {s : State} {v : Word} (hv : f (s.readReg rs1) = v) :
    ∃ t, aluImm f rd rs1 s = .next t ∧ ComputesRegister s t rd v :=
  ⟨_, aluImm_eq f rd rs1 s, hv ▸ computesRegister_writeDest s [rs1] rd _⟩

/-! ## The immediate as a word (43_alu_imm.md R126, D4) -/

theorem toNat_immWord (imm : Int) : ((immWord imm).toNat : Int) = imm % 2 ^ 32 := by
  rw [immWord, BitVec.toNat_ofInt]
  omega

section Immediate

variable {imm : Int} (hlow : -2048 ≤ imm) (hhigh : imm ≤ 2047)
include hlow hhigh

/-- The signed reading of an immediate's word is the immediate: the field is narrower than the word. -/
theorem toInt_immWord : (immWord imm).toInt = imm :=
  BitVec.toInt_ofInt_eq_self (by decide) (by omega) (by omega)

theorem immWord_eq_signExtend : immWord imm = (BitVec.ofInt 12 imm).signExtend 32 := by
  have hfield : (BitVec.ofInt 12 imm).toInt = imm :=
    BitVec.toInt_ofInt_eq_self (by decide) (by omega) (by omega)
  apply BitVec.eq_of_toInt_eq
  rw [toInt_immWord hlow hhigh, BitVec.toInt_signExtend_of_le (by decide), hfield]

end Immediate

/-! ## Operators as words of their readings (40_value_types.md R87, R90 to R92) -/

theorem valueAdd_immWord (a : Word) (imm : Int) : valueAdd a (immWord imm) = BitVec.ofInt 32 (a.toNat + imm) := by
  rw [BitVec.ofInt_add, BitVec.ofInt_natCast, BitVec.ofNat_toNat, BitVec.setWidth_eq]
  rfl

theorem truthWord_of_iff {b : Bool} {p : Prop} [Decidable p] (h : b = true ↔ p) :
    truthWord b = if p then 1#32 else 0#32 :=
  if_congr h rfl rfl

section Shift

variable {n : Nat} (a : BitVec n) (k : Nat)

theorem valueShl_eq_ofNat : valueShl a k = BitVec.ofNat n (a.toNat * 2 ^ (k % n)) :=
  BitVec.eq_of_toNat_eq (by rw [toNat_valueShl, BitVec.toNat_ofNat])

theorem valueShr_unsigned_eq_ofNat : valueShr .unsigned a k = BitVec.ofNat n (a.toNat / 2 ^ (k % n)) := by
  rw [← toNat_valueShr_unsigned, BitVec.ofNat_toNat, BitVec.setWidth_eq]

theorem valueShr_signed_eq_ofInt : valueShr .signed a k = BitVec.ofInt n (a.toInt / 2 ^ (k % n)) := by
  rw [← toInt_valueShr_signed, BitVec.ofInt_toInt]

end Shift

/-! ## The statements -/

/-- Settles O22: the sum wraps, and the immediate's word reads as the immediate. -/
theorem addAndSetLessThanImmediateResults : Obligations.AddAndSetLessThanImmediateResults := by
  intro s rd rs1 imm hlow hhigh
  refine ⟨⟨Laws.RowMatch.addi _ _ _, ?_⟩, ⟨Laws.RowMatch.slti _ _ _, ?_⟩⟩
  · rw [exec_addi]
    exact aluImm_computes (valueAdd_immWord _ imm)
  · have hlt : valueLt .signed (s.readReg rs1) (immWord imm) = true ↔ (s.readReg rs1).toInt < imm := by
      rw [valueLt_signed_iff, toInt_immWord hlow hhigh]
    rw [exec_slti]
    exact aluImm_computes (truthWord_of_iff hlt)

/-- Settles O23: the immediate's word is the sign-extended field, which SLTIU reads unsigned. -/
theorem logicalImmediateResults : Obligations.LogicalImmediateResults := by
  intro s rd rs1 imm hlow hhigh
  have hlt : valueLt .unsigned (s.readReg rs1) (immWord imm) = true ↔
      ((s.readReg rs1).toNat : Int) < imm % 2 ^ 32 := by
    rw [valueLt_unsigned_iff, ← toNat_immWord, Int.ofNat_lt]
  rw [← immWord_eq_signExtend hlow hhigh, exec_sltiu, exec_xori, exec_ori, exec_andi]
  exact ⟨⟨Laws.RowMatch.sltiu _ _ _, aluImm_computes (truthWord_of_iff hlt)⟩,
    ⟨Laws.RowMatch.xori _ _ _, aluImm_computes rfl⟩,
    ⟨Laws.RowMatch.ori _ _ _, aluImm_computes rfl⟩,
    ⟨Laws.RowMatch.andi _ _ _, aluImm_computes rfl⟩⟩

/-- Settles O24: an amount of the field is its own remainder modulo the width, so each shift is by all of it. -/
theorem shiftImmediateResults : Obligations.ShiftImmediateResults := by
  intro s rd rs1 shamt hle
  have hmod : shamt % 32 = shamt := Nat.mod_eq_of_lt (by omega)
  have hshl := valueShl_eq_ofNat (s.readReg rs1) shamt
  have hshr := valueShr_unsigned_eq_ofNat (s.readReg rs1) shamt
  have hsra := valueShr_signed_eq_ofInt (s.readReg rs1) shamt
  rw [hmod] at hshl hshr hsra
  rw [exec_slli, exec_srli, exec_srai]
  exact ⟨⟨Laws.RowMatch.slli _ _ _, aluImm_computes hshl⟩,
    ⟨Laws.RowMatch.srli _ _ _, aluImm_computes hshr⟩,
    ⟨Laws.RowMatch.srai _ _ _, aluImm_computes hsra⟩⟩

end Sys2Proof.Machine

/-! The proofs of the statements of 44_alu_reg.md: the state that a register-register operation leaves, the wrapping
sum and difference as words of their readings, and the shift amount a register holds. -/

namespace Sys2Proof.Machine

/-! ## What a register-register operation leaves (44_alu_reg.md R136) -/

theorem aluReg_computes {f : Word → Word → Word} {rd rs1 rs2 : Reg} {s : State} {v : Word}
    (hv : f (s.readReg rs1) (s.readReg rs2) = v) :
    ∃ t, aluReg f rd rs1 rs2 s = .next t ∧ ComputesRegister s t rd v :=
  ⟨_, aluReg_eq f rd rs1 rs2 s, hv ▸ computesRegister_writeDest s [rs1, rs2] rd _⟩

/-! ## Sum and difference as words of their readings (40_value_types.md R87, R88) -/

section Wrap

variable {n : Nat} (a b : BitVec n)

theorem valueAdd_eq_ofNat : valueAdd a b = BitVec.ofNat n (a.toNat + b.toNat) :=
  BitVec.eq_of_toNat_eq (by rw [toNat_valueAdd, BitVec.toNat_ofNat])

theorem valueSub_eq_ofInt : valueSub a b = BitVec.ofInt n (a.toNat - b.toNat) := by
  rw [valueSub, BitVec.sub_eq_add_neg, Int.sub_eq_add_neg, BitVec.ofInt_add, BitVec.ofInt_neg]
  simp only [BitVec.ofInt_natCast, BitVec.ofNat_toNat, BitVec.setWidth_eq]

end Wrap

/-! ## The shift amount (44_alu_reg.md R136, D5) -/

/-- The amount is already reduced, so the reduction of the shift operators leaves it. -/
theorem shiftAmount_mod (v : Word) : shiftAmount v % 32 = v.toNat % 32 := Nat.mod_mod _ _

/-! ## The statements -/

/-- Settles O20: each opcode is the operator the rule names, and the comparisons are those of the readings. -/
theorem registerAluResults : Obligations.RegisterAluResults := by
  intro s rd rs1 rs2
  rw [exec_add, exec_sub, exec_slt, exec_sltu, exec_xor, exec_or, exec_and]
  exact ⟨⟨Laws.RowMatch.add _ _ _, aluReg_computes (valueAdd_eq_ofNat _ _)⟩,
    ⟨Laws.RowMatch.sub _ _ _, aluReg_computes (valueSub_eq_ofInt _ _)⟩,
    ⟨Laws.RowMatch.slt _ _ _, aluReg_computes (truthWord_of_iff (valueLt_signed_iff _ _))⟩,
    ⟨Laws.RowMatch.sltu _ _ _, aluReg_computes (truthWord_of_iff (valueLt_unsigned_iff _ _))⟩,
    ⟨Laws.RowMatch.xor _ _ _, aluReg_computes rfl⟩,
    ⟨Laws.RowMatch.or _ _ _, aluReg_computes rfl⟩,
    ⟨Laws.RowMatch.and _ _ _, aluReg_computes rfl⟩⟩

/-- Settles O21: a shift is a product or a quotient of a reading, by the amount the register holds modulo 32. -/
theorem registerShiftResults : Obligations.RegisterShiftResults := by
  intro s rd rs1 rs2
  have hshl := valueShl_eq_ofNat (s.readReg rs1) (shiftAmount (s.readReg rs2))
  have hshr := valueShr_unsigned_eq_ofNat (s.readReg rs1) (shiftAmount (s.readReg rs2))
  have hsra := valueShr_signed_eq_ofInt (s.readReg rs1) (shiftAmount (s.readReg rs2))
  rw [shiftAmount_mod] at hshl hshr hsra
  rw [exec_sll, exec_srl, exec_sra]
  exact ⟨⟨Laws.RowMatch.sll _ _ _, aluReg_computes hshl⟩,
    ⟨Laws.RowMatch.srl _ _ _, aluReg_computes hshr⟩,
    ⟨Laws.RowMatch.sra _ _ _, aluReg_computes hsra⟩⟩

end Sys2Proof.Machine

/-! The proofs of the statements of 45_stores.md: the bytes a store leaves, the state it ends in, and the fault it takes
instead. -/

namespace Sys2Proof.Machine

/-! ## The bytes of a stored value (40_value_types.md R98) -/

theorem asBytes_byte (v : Byte) : asBytes v = [v] := congrArg (fun b => [b]) BitVec.extractLsb'_eq_self

/-- The bytes of a low half-word are the low two bytes of the word. -/
theorem asBytes_extractLsb'_half (w : Word) :
    asBytes (w.extractLsb' 0 16) = [w.extractLsb' 0 8, w.extractLsb' 8 8] := by
  have hbyte {k : Nat} (hk : k + 8 ≤ 16) : (w.extractLsb' 0 16).extractLsb' k 8 = w.extractLsb' k 8 := by
    ext j hj
    have hj16 : k + j < 16 := by omega
    simp [hj16]
  change [(w.extractLsb' 0 16).extractLsb' 0 8, (w.extractLsb' 0 16).extractLsb' 8 8] = _
  rw [hbyte (by decide), hbyte (by decide)]

/-! ## What a store leaves (45_stores.md R147, 20_memory.md R52) -/

/-- A store's read-modify-write puts the bytes of its value at its access, lowest first. -/
theorem readByte_writeWord_storedWord_add {s : State} (hm : s.mem.wf = true) (addr : Word) {n : Width}
    (v : BitVec n.bits) (hc : checkAccess s.params addr n = none) {k : Nat} (hk : k < n.bytes) :
    (s.mem.writeWord (wordIndex addr) (storedWord s addr n v)).readByte (accessStart addr n + k) =
      v.extractLsb' (8 * k) 8 := by
  have hdiv : 4 * wordIndex addr + addr.toNat % 4 = addr.toNat := Nat.div_add_mod _ 4
  have hlane := laneBit_fits hc
  cases n with
  | byte =>
    have h := (readByte_replaced hm (wordIndex addr) (addr.toNat % 4) (n := 1) v (by omega)).1 k hk
    rwa [hdiv] at h
  | half =>
    have hfit : addr.toNat % 4 + 2 ≤ 4 := by simp only [laneBit, Width.bits] at hlane; omega
    have h := (readByte_replaced hm (wordIndex addr) (addr.toNat % 4) (n := 2) v hfit).1 k hk
    rwa [hdiv] at h
  | word => exact (readByte_replaced hm (wordIndex addr) 0 (n := 4) v (by omega)).1 k hk

theorem accessStart_of_ne_word (addr : Word) {n : Width} (h : n ≠ .word) : accessStart addr n = addr.toNat := if_neg h

theorem accessStart_word (addr : Word) : accessStart addr .word = 4 * (addr.toNat / 4) := if_pos rfl

theorem width_bits_div_eight (n : Width) : n.bits / 8 = n.bytes := by cases n <;> rfl

section Store

variable {s : State} {n : Width} {rs1 : Reg} {imm : Int}

/-- A store whose check passes completes with the bytes of its value `v` at its access. It logs the bits it overwrote,
and only the read of its read-modify-write can change which blocks are resident. -/
theorem store_stores {data : Word → BitVec n.bits} {rs2 : Reg} {v : BitVec n.bits} (hm : s.mem.wf = true)
    (hc : checkAccess s.params (effectiveAddress s rs1 imm) n = none) (hv : data (s.readReg rs2) = v) :
    ∃ t, store n data rs1 rs2 imm s = .next t ∧
      StoresBytes s t (accessStart (effectiveAddress s rs1 imm) n) (asBytes v) ∧
      t.log = s.log ++ readEntries s [rs1, rs2] ++ [.writeMemory (effectiveAddress s rs1 imm) n
        ((s.mem.readWord (accessIndex s rs1 imm)).extractLsb' (laneBit (effectiveAddress s rs1 imm) n) n.bits) v] ++
        tailEntries (storeLatency s (effectiveAddress s rs1 imm) n) s.pc (s.pc + 1) ∧
      t.lineTags = (storeBase s (effectiveAddress s rs1 imm) n).lineTags := by
  subst hv
  have hlength : (asBytes (data (s.readReg rs2))).length = n.bytes :=
    (asBytes_length _).trans (width_bits_div_eight n)
  refine ⟨_, store_ok data rs2 hc, ⟨⟨rfl, rfl, rfl, rfl⟩, fun _ => rfl, fun k hk => ?_, fun a ha => ?_⟩, rfl,
    cacheAfterWrite_tags _ _ _⟩
  · refine (readByte_writeWord_storedWord_add hm _ _ hc (hlength ▸ hk)).trans ?_
    simp [asBytes]
  · exact readByte_writeWord_storedWord hm _ _ hc (hlength ▸ ha)

/-- A store whose check fails takes its fault, with both registers read. -/
theorem store_faults {data : Word → BitVec n.bits} {rs2 : Reg} {kind : FaultKind}
    (hc : checkAccess s.params (effectiveAddress s rs1 imm) n = some kind) :
    ∃ t, store n data rs1 rs2 imm s = .next t ∧ Faults s t [rs1, rs2] kind :=
  ⟨_, store_fault data rs2 hc, rfl⟩

end Store

/-! ## The statements -/

/-- Settles O29: the value stored is one byte, the bits overwritten are the byte there, and only accessibility is
checked. -/
theorem byteStoreResults : Obligations.ByteStoreResults := by
  intro s rs1 rs2 imm hm _ _ addr
  refine ⟨toNat_effectiveAddress s rs1 imm, Laws.RowMatch.sb _ _ _, fun hb => ?_, fun hb => ?_⟩
  all_goals rw [exec_sb]
  · have hc : checkAccess s.params addr .byte = none := checkAccess_of_ne_half (by decide) hb
    have hbefore : (s.mem.readWord (wordIndex addr)).extractLsb' (laneBit addr .byte) 8 = s.mem.readByte addr.toNat :=
      Memory.byte_of_word _ _
    obtain ⟨t, ht, hbytes, hlog, -⟩ := store_stores hm hc (asByte_eq (s.readReg rs2))
    rw [asBytes_byte, accessStart_of_ne_word _ (by decide)] at hbytes
    rw [hbefore] at hlog
    exact ⟨t, ht, hbytes, by simp [hlog, addr]⟩
  · have hc : checkAccess s.params addr .byte = some .invalidAddress := checkAccess_of_memWords_le (by simp) hb
    exact store_faults hc

/-- Settles O30: the value stored is the low half-word's two bytes, the bits overwritten are the two bytes there, and
alignment is checked before accessibility. -/
theorem halfWordStoreResults : Obligations.HalfWordStoreResults := by
  intro s rs1 rs2 imm hm _ _ addr
  refine ⟨toNat_effectiveAddress s rs1 imm, Laws.RowMatch.sh _ _ _, fun heven hb => ?_, fun hodd => ?_,
    fun heven hb => ?_⟩
  all_goals rw [exec_sh]
  · have hc : checkAccess s.params addr .half = none := checkAccess_of_even .half heven hb
    have hbefore : (s.mem.readWord (wordIndex addr)).extractLsb' (laneBit addr .half) 16 =
        s.mem.readByte (addr.toNat + 1) ++ s.mem.readByte addr.toNat := Memory.half_of_word _ _ heven
    obtain ⟨t, ht, hbytes, hlog, -⟩ := store_stores hm hc (asHalfWord_eq (s.readReg rs2))
    rw [asBytes_extractLsb'_half, accessStart_of_ne_word _ (by decide)] at hbytes
    rw [hbefore] at hlog
    exact ⟨t, ht, hbytes, by simp [hlog, addr]⟩
  · have hc : checkAccess s.params addr .half = some .alignmentFault := checkAccess_half_of_odd hodd
    exact store_faults hc
  · have hc : checkAccess s.params addr .half = some .invalidAddress :=
      checkAccess_of_memWords_le (by simp [heven]) hb
    exact store_faults hc

/-- Settles O31: the access is the whole aligned word, whatever the low bits of the address. A word store reads nothing
through the cache, so it has no latency and leaves every tag. -/
theorem wordStoreResults : Obligations.WordStoreResults := by
  intro s rs1 rs2 imm hm _ _ addr
  refine ⟨toNat_effectiveAddress s rs1 imm, Laws.RowMatch.sw _ _ _, fun hb => ?_, fun hb => ?_⟩
  all_goals rw [exec_sw]
  · have hc : checkAccess s.params addr .word = none := checkAccess_of_ne_half (by decide) hb
    have hbefore : (s.mem.readWord (wordIndex addr)).extractLsb' (laneBit addr .word) 32 =
        s.mem.readWord (wordIndex addr) := BitVec.extractLsb'_eq_self
    obtain ⟨t, ht, hbytes, hlog, htags⟩ := store_stores (data := fun v => v) (rs2 := rs2) hm hc rfl
    rw [Memory.asBytes_word, accessStart_word] at hbytes
    rw [hbefore, List.append_assoc _ [_]] at hlog
    exact ⟨t, ht, hbytes, hlog, resident_congr hbytes.step.params htags⟩
  · have hc : checkAccess s.params addr .word = some .invalidAddress := checkAccess_of_memWords_le (by simp) hb
    exact store_faults hc

end Sys2Proof.Machine

/-! The proofs of the statements of 46_branches.md: the state that a branch leaves, and the branches that are refused. -/

namespace Sys2Proof.Machine

/-! ## The comparisons of the branches (40_value_types.md R92) -/

section Order

variable {n : Nat} (a b : BitVec n)

theorem valueEq_iff_eq : valueEq a b = true ↔ a = b := decide_eq_true_iff

theorem not_valueEq_iff_ne : (!valueEq a b) = true ↔ a ≠ b := by
  rw [Bool.not_eq_true', ← Bool.not_eq_true, valueEq_iff_eq]

theorem valueGe_signed_iff : valueGe .signed a b = true ↔ a.toInt ≥ b.toInt := by
  rw [valueGe_iff, ← Bool.not_eq_true, valueLt_signed_iff, not_lt]

theorem valueGe_unsigned_iff : valueGe .unsigned a b = true ↔ a.toNat ≥ b.toNat := by
  rw [valueGe_iff, ← Bool.not_eq_true, valueLt_unsigned_iff, not_lt]

end Order

/-! ## What a completed branch leaves (46_branches.md R153) -/

/-- Logging the two reads and retiring to `npc` is a completed branch to `npc`. -/
theorem branches_retireTo (s : State) (rs1 rs2 : Reg) (npc : Nat) :
    Branches s ((s.logReads [rs1, rs2]).retireTo 0 npc) rs1 rs2 npc where
  step := ⟨rfl, rfl, rfl, rfl⟩
  regs _ := rfl
  mem := rfl
  cache := rfl
  log := rfl

/-- A branch whose comparison means `p` completes to its target if `p` holds and the target is not negative, and to
`pc + 1` if `p` does not hold. -/
theorem branch_branches {taken : Word → Word → Bool} {rs1 rs2 : Reg} {offset : Int} {s : State} {p : Prop}
    (hp : taken (s.readReg rs1) (s.readReg rs2) = true ↔ p) :
    (p → 0 ≤ (s.pc : Int) + offset → ∃ t, branch taken rs1 rs2 offset s = .next t ∧
      Branches s t rs1 rs2 ((s.pc : Int) + offset).toNat) ∧
    (¬p → ∃ t, branch taken rs1 rs2 offset s = .next t ∧ Branches s t rs1 rs2 (s.pc + 1)) := by
  refine ⟨fun h htarget => ?_, fun h => ?_⟩
  · exact ⟨_, branch_taken (hp.2 h) htarget, branches_retireTo s rs1 rs2 _⟩
  · exact ⟨_, branch_not_taken (Bool.eq_false_iff.2 (mt hp.1 h)), branches_retireTo s rs1 rs2 _⟩

/-! ## What is refused (46_branches.md R152, D10) -/

/-- Loads and stores complete or fault, an operation on registers completes, an unsupported opcode faults. -/
theorem exec_not_refused_of_not_branch {i : Instr} (s : State) (r : Refusal) (hb : i.isBranch = false) :
    exec i s ≠ .refused r := by
  cases i with
  | lb _ _ _ | lh _ _ _ | lw _ _ _ | lbu _ _ _ | lhu _ _ _ =>
    simp [exec_lb, exec_lh, exec_lw, exec_lbu, exec_lhu, load_not_refused]
  | addi _ _ _ | slti _ _ _ | sltiu _ _ _ | xori _ _ _ | ori _ _ _ | andi _ _ _ =>
    simp [exec_addi, exec_slti, exec_sltiu, exec_xori, exec_ori, exec_andi, aluImm_eq]
  | slli _ _ _ | srli _ _ _ | srai _ _ _ => simp [exec_slli, exec_srli, exec_srai, aluImm_eq]
  | add _ _ _ | sub _ _ _ | slt _ _ _ | sltu _ _ _ | xor _ _ _ | or _ _ _ | and _ _ _ =>
    simp [exec_add, exec_sub, exec_slt, exec_sltu, exec_xor, exec_or, exec_and, aluReg_eq]
  | sll _ _ _ | srl _ _ _ | sra _ _ _ => simp [exec_sll, exec_srl, exec_sra, aluReg_eq]
  | sb _ _ _ | sh _ _ _ | sw _ _ _ => simp [exec_sb, exec_sh, exec_sw, store_not_refused]
  | jalr _ _ _ | scall | lui _ _ | auipc _ _ | jal _ _ =>
    simp [exec_jalr, exec_scall, exec_lui, exec_auipc, exec_jal, unsupported_eq]
  | beq _ _ _ | bne _ _ _ | blt _ _ _ | bge _ _ _ | bltu _ _ _ | bgeu _ _ _ => cases hb

/-! ## The statements -/

/-- Settles O34: each branch is `branch` with the comparison its rule names. -/
theorem branchResults : Obligations.BranchResults := by
  intro s rs1 rs2 offset _ _ target goes
  simp only [goes, target, exec_beq, exec_bne, exec_blt, exec_bge, exec_bltu, exec_bgeu]
  exact ⟨⟨Laws.RowMatch.beq _ _ _, branch_branches (valueEq_iff_eq _ _)⟩,
    ⟨Laws.RowMatch.bne _ _ _, branch_branches (not_valueEq_iff_ne _ _)⟩,
    ⟨Laws.RowMatch.blt _ _ _, branch_branches (valueLt_signed_iff _ _)⟩,
    ⟨Laws.RowMatch.bge _ _ _, branch_branches (valueGe_signed_iff _ _)⟩,
    ⟨Laws.RowMatch.bltu _ _ _, branch_branches (valueLt_unsigned_iff _ _)⟩,
    ⟨Laws.RowMatch.bgeu _ _ _, branch_branches (valueGe_unsigned_iff _ _)⟩⟩

/-- Settles O35: only a branch can be refused, and each branch is refused as its rule's comparison says. -/
theorem onlyNegativeTargetsAreRefused : Obligations.OnlyNegativeTargetsAreRefused := by
  intro i s r
  cases i with
  | beq _ _ _ => rw [exec_beq, branch_refused_iff, valueEq_iff_eq]; simp [logReads_eq]
  | bne _ _ _ => rw [exec_bne, branch_refused_iff, not_valueEq_iff_ne]; simp [logReads_eq]
  | blt _ _ _ => rw [exec_blt, branch_refused_iff, valueLt_signed_iff]; simp [logReads_eq]
  | bge _ _ _ => rw [exec_bge, branch_refused_iff, valueGe_signed_iff]; simp [logReads_eq]
  | bltu _ _ _ => rw [exec_bltu, branch_refused_iff, valueLt_unsigned_iff]; simp [logReads_eq]
  | bgeu _ _ _ => rw [exec_bgeu, branch_refused_iff, valueGe_unsigned_iff]; simp [logReads_eq]
  | _ => exact iff_of_false (exec_not_refused_of_not_branch s r rfl) (by simp)

end Sys2Proof.Machine

/-! The proofs of the statements of 47_unsupported.md: the state that an opcode without semantics and a word of no row
leave. -/

namespace Sys2Proof.Machine

/-! ## The halted state (47_unsupported.md R161) -/

/-- What the five opcodes and `Invalid(w)` share: the fault comes before any operand is read, so the log gains the Error
alone. -/
theorem unsupported_halts (s : State) :
    unsupported s = .next { s with log := s.log ++ [.error], run := .halted .unsupportedInstruction } := rfl

theorem execRecord_invalid (w : Word) (s : State) : execRecord (.invalid w) s = unsupported s := rfl

/-! ## A word of no row in the program (47_unsupported.md R167) -/

theorem programOfWords_getElem?_of_no_row {words : List Word} {k : Nat} {w : Word} (hw : words[k]? = some w)
    (hnone : ∀ row ∈ opcodeTable, w &&& row.mask ≠ row.pattern) :
    (programOfWords words)[k]? = some (.invalid w) := by
  have hdecode : decode w = .invalid w := (decodeFollowsTheOpcodeTable w).2 hnone
  rw [programOfWords, List.getElem?_map, hw, Option.map_some, hdecode]

/-! ## The statements -/

/-- Settles O36: each of the five words matches its row, and each opcode executes as `unsupported`. -/
theorem unsupportedOpcodesHalt : Obligations.UnsupportedOpcodesHalt := by
  intro s rd rs1 imm imm20 halted
  have hhalts : unsupported s = .next halted := unsupported_halts s
  exact ⟨⟨Laws.RowMatch.jalr _ _ _, (exec_jalr rd rs1 imm s).trans hhalts⟩,
    ⟨rfl, (exec_scall s).trans hhalts⟩,
    ⟨Laws.RowMatch.lui _ _, (exec_lui rd imm20 s).trans hhalts⟩,
    ⟨Laws.RowMatch.auipc _ _, (exec_auipc rd imm20 s).trans hhalts⟩,
    ⟨Laws.RowMatch.jal _ _, (exec_jal rd imm s).trans hhalts⟩⟩

/-- Settles O37: the record fetched is `Invalid(w)`, because a word of no row decodes to it. -/
theorem invalidWordHalts : Obligations.InvalidWordHalts := by
  intro s words w hready hprogram hword hnone
  have hfetched : s.program[s.pc]? = some (.invalid w) := by
    rw [hprogram]
    exact programOfWords_getElem?_of_no_row hword hnone
  rw [step_of_fetch hready hfetched, execRecord_invalid, unsupported_halts]

end Sys2Proof.Machine

/-! The proofs of the statements of 60_exceptions.md: a Halted core under every command, and the instructions that halt
a Ready one. -/

namespace Sys2Proof.Machine

/-! ## Leaving Halted (60_exceptions.md R175) -/

/-- Settles O18: the step is rejected, the log ends in Error so that step-back has nothing to reverse, and the two read
commands change nothing in any state. -/
theorem haltedCoreStaysHalted : Obligations.HaltedCoreStaysHalted := by
  intro s kind hinv hhalted c
  cases c with
  | step =>
    have hrejected : stepCommand s = .ok (.notReady, s) := (stepIsRejectedUnlessReady s (by simp [hhalted])).2
    exact ⟨.stepped .notReady, by rw [runCommand, hrejected]; rfl⟩
  | stepBack =>
    have hback : stepBack s = (.nothingToReverse, s) :=
      stepBack_of_getLast?_eq_error (hinv.errorLast.2 ⟨kind, hhalted⟩)
    exact ⟨.steppedBack .nothingToReverse, by rw [runCommand, hback]⟩
  | readRegisters => exact ⟨_, rfl⟩
  | readLog => exact ⟨_, rfl⟩

/-! ## Which instruction halts (60_exceptions.md R169, R172) -/

theorem exec_eq_unsupported {i : Instr} (s : State) (hu : i.isUnsupported = true) : exec i s = unsupported s := by
  cases i with
  | jalr _ _ _ | scall | lui _ _ | auipc _ _ | jal _ _ => rfl
  | _ => cases hu

/-- A Ready core is halted only by an instruction that raises the fault: every other one retires. -/
theorem raisesFault_of_exec_halted {i : Instr} {s t : State} {kind : FaultKind} (hr : s.run = .ready)
    (he : exec i s = .next t) (hhalted : t.run = .halted kind) : RaisesFault i s kind := by
  cases exec_shape he with
  | compute _ _ _ _ _ ht => subst ht; exact absurd hhalted (State.retireTo_run_ne_halted _ _ _ _ hr)
  | load _ _ _ _ _ _ _ _ _ ht => subst ht; exact absurd hhalted (State.retireTo_run_ne_halted _ _ _ _ hr)
  | store _ _ _ _ _ _ _ _ ht => subst ht; exact absurd hhalted (State.retireTo_run_ne_halted _ _ _ _ hr)
  | branch _ _ _ _ ht => subst ht; exact absurd hhalted (State.retireTo_run_ne_halted _ _ _ _ hr)
  | fault kind' hf ht =>
    subst ht
    cases hhalted
    exact hf

/-- Settles O39: a fault that is raised is the access check's, or that of an opcode without semantics. -/
theorem faultsAreExactlyThese : Obligations.FaultsAreExactlyThese := by
  intro i s kind hr
  refine ⟨fun ⟨_, he, hhalted⟩ => raisesFault_of_exec_halted hr he hhalted, fun hf => ?_⟩
  cases ha : i.access with
  | some access =>
    obtain ⟨n, rs1, imm⟩ := access
    rw [RaisesFault, ha] at hf
    exact (exec_halted_iff_checkAccess hr ha).2 (checkAccess_eq_some.2 hf)
  | none =>
    rw [RaisesFault, ha] at hf
    obtain ⟨rfl, hu⟩ := hf
    exact ⟨_, (exec_eq_unsupported s hu).trans (unsupported_halts s), rfl⟩

end Sys2Proof.Machine

/-! The proof of the statement of 70_reset_and_hazards.md: each shared operation keeps two states the same but for
timing, hence each shape of instruction does, hence a step. -/

namespace Sys2Proof.Machine

/-! ## The log without stalls -/

@[simp] theorem withoutStalls_append (log log' : List Action) :
    withoutStalls (log ++ log') = withoutStalls log ++ withoutStalls log' := List.filter_append ..

/-- The end of a step logs its latency in the Stall alone (41_dispatch.md R108). -/
@[simp] theorem withoutStalls_tailEntries (latency pcBefore pcAfter : Nat) :
    withoutStalls (tailEntries latency pcBefore pcAfter) = [.jump pcBefore pcAfter] := by
  obtain ⟨stall, rfl | ⟨c, -, rfl⟩, heq⟩ := tailEntries_eq latency pcBefore pcAfter
  all_goals rw [heq]; rfl

namespace SameButTiming

variable {s t : State}

/-! ## What a step reads -/

theorem readReg (h : SameButTiming s t) : s.readReg = t.readReg := funext (State.readReg_congr h.regs)

theorem readEntries (h : SameButTiming s t) (sources : List Reg) :
    Machine.readEntries s sources = Machine.readEntries t sources := by
  rw [Machine.readEntries, h.readReg, Machine.readEntries]

theorem effectiveAddress (h : SameButTiming s t) (rs1 : Reg) (imm : Int) :
    Machine.effectiveAddress s rs1 imm = Machine.effectiveAddress t rs1 imm := by
  rw [Machine.effectiveAddress, h.readReg, Machine.effectiveAddress]

theorem accessIndex (h : SameButTiming s t) (rs1 : Reg) (imm : Int) :
    Machine.accessIndex s rs1 imm = Machine.accessIndex t rs1 imm := congrArg wordIndex (h.effectiveAddress rs1 imm)

/-- The check of an access looks at the capacity, which the two share. -/
theorem checkAccess (h : SameButTiming s t) (n : Width) (rs1 : Reg) (imm : Int) :
    Machine.checkAccess s.params (Machine.effectiveAddress s rs1 imm) n =
      Machine.checkAccess t.params (Machine.effectiveAddress t rs1 imm) n := by
  rw [h.effectiveAddress, checkAccess_congr h.memWords]

theorem storedWord (h : SameButTiming s t) (addr : Word) {n : Width} (v : BitVec n.bits) :
    Machine.storedWord s addr n v = Machine.storedWord t addr n v := by
  rw [Machine.storedWord, h.mem, Machine.storedWord]

/-! ## The shared operations -/

theorem logReads (h : SameButTiming s t) (sources : List Reg) :
    SameButTiming (s.logReads sources) (t.logReads sources) := by
  refine { h with log := ?_ }
  rw [logReads_eq, logReads_eq]
  simp [h.log, h.readEntries]

theorem emit (h : SameButTiming s t) (a : Action) : SameButTiming (s.emit a) (t.emit a) :=
  { h with log := by simp [h.log] }

theorem writeReg (h : SameButTiming s t) (r : Reg) (v : Word) : SameButTiming (s.writeReg r v) (t.writeReg r v) :=
  { h with regs := by simp [h.regs] }

theorem writeDest (h : SameButTiming s t) (rd : Reg) (v : Word) :
    SameButTiming (s.writeDest rd v) (t.writeDest rd v) := by
  have hentry : Action.writeRegister rd (s.readReg rd) ((s.writeReg rd v).readReg rd) =
      .writeRegister rd (t.readReg rd) ((t.writeReg rd v).readReg rd) := by
    rw [h.readReg, (h.writeReg rd v).readReg]
  rw [State.writeDest, hentry]
  exact (h.writeReg rd v).emit _

theorem haltWith (h : SameButTiming s t) (kind : FaultKind) : SameButTiming (s.haltWith kind) (t.haltWith kind) :=
  { h.emit .error with run := rfl }

/-- Two caches may differ in any way. -/
theorem setCache (h : SameButTiming s t) (c c' : List (Option CacheLine)) :
    SameButTiming { s with cache := c } { t with cache := c' } := { h with }

theorem setCacheAndMem (h : SameButTiming s t) (m : Memory) (c c' : List (Option CacheLine)) :
    SameButTiming { s with cache := c, mem := m } { t with cache := c', mem := m } := { h with mem := rfl }

/-- Two latencies differ in the logged Stall alone. -/
theorem retireTo (h : SameButTiming s t) (latency latency' npc : Nat) :
    SameButTiming (s.retireTo latency npc) (t.retireTo latency' npc) :=
  { h with
    pc := rfl
    run := by simp [h.run, h.program]
    log := by simp [h.log, h.pc] }

end SameButTiming

/-! ## The shapes of instructions -/

/-- Two outcomes of a step that are alike, and whose states are the same but for timing. -/
def SameOutcome : StepOutcome → StepOutcome → Prop
  | .next s', o => ∃ t', o = .next t' ∧ SameButTiming s' t'
  | .fault f, o => o = .fault f
  | .refused r, o => ∃ s' t', r = .negativeBranchTarget s' ∧ o = .refused (.negativeBranchTarget t') ∧
      SameButTiming s' t'

section Shapes

variable {s t : State}

theorem SameButTiming.outcome_next (h : SameButTiming s t) : SameOutcome (.next s) (.next t) := ⟨t, rfl, h⟩

variable (h : SameButTiming s t)

include h

theorem sameOutcome_aluImm (f : Word → Word) (rd rs1 : Reg) : SameOutcome (aluImm f rd rs1 s) (aluImm f rd rs1 t) := by
  rw [aluImm_eq, aluImm_eq, h.readReg, h.pc]
  exact (((h.logReads _).writeDest _ _).retireTo _ _ _).outcome_next

theorem sameOutcome_aluReg (f : Word → Word → Word) (rd rs1 rs2 : Reg) :
    SameOutcome (aluReg f rd rs1 rs2 s) (aluReg f rd rs1 rs2 t) := by
  rw [aluReg_eq, aluReg_eq, h.readReg, h.pc]
  exact (((h.logReads _).writeDest _ _).retireTo _ _ _).outcome_next

theorem sameOutcome_load (n : Width) (sg : Signedness) (rd rs1 : Reg) (imm : Int) :
    SameOutcome (load n sg rd rs1 imm s) (load n sg rd rs1 imm t) := by
  have hcheck := (h.checkAccess n rs1 imm).symm
  cases hc : checkAccess s.params (effectiveAddress s rs1 imm) n with
  | none =>
    rw [load_ok sg rd hc, load_ok sg rd (hcheck.trans hc), h.effectiveAddress, h.accessIndex, h.mem, h.pc]
    exact ((((h.logReads _).setCache _ _).writeDest _ _).retireTo _ _ _).outcome_next
  | some kind =>
    rw [load_fault sg rd hc, load_fault sg rd (hcheck.trans hc)]
    exact ((h.logReads _).haltWith _).outcome_next

theorem sameOutcome_store (n : Width) (data : Word → BitVec n.bits) (rs1 rs2 : Reg) (imm : Int) :
    SameOutcome (store n data rs1 rs2 imm s) (store n data rs1 rs2 imm t) := by
  have hcheck := (h.checkAccess n rs1 imm).symm
  cases hc : checkAccess s.params (effectiveAddress s rs1 imm) n with
  | none =>
    rw [store_ok data rs2 hc, store_ok data rs2 (hcheck.trans hc), h.effectiveAddress, h.accessIndex, h.storedWord,
      h.readReg, h.mem, h.pc]
    exact ((((h.logReads _).setCacheAndMem _ _ _).emit _).retireTo _ _ _).outcome_next
  | some kind =>
    rw [store_fault data rs2 hc, store_fault data rs2 (hcheck.trans hc)]
    exact ((h.logReads _).haltWith _).outcome_next

theorem sameOutcome_branch (taken : Word → Word → Bool) (rs1 rs2 : Reg) (offset : Int) :
    SameOutcome (branch taken rs1 rs2 offset s) (branch taken rs1 rs2 offset t) := by
  have hreads := h.logReads [rs1, rs2]
  rw [branch, branch, h.readReg, h.pc]
  split
  · split
    · exact ⟨_, _, rfl, rfl, hreads⟩
    · exact (hreads.retireTo _ _ _).outcome_next
  · exact (hreads.retireTo _ _ _).outcome_next

theorem sameOutcome_unsupported : SameOutcome (unsupported s) (unsupported t) := (h.haltWith _).outcome_next

/-- Every instruction has one of the shapes. -/
theorem sameOutcome_exec (i : Instr) : SameOutcome (exec i s) (exec i t) := by
  cases i with
  | lb _ _ _ | lh _ _ _ | lw _ _ _ | lbu _ _ _ | lhu _ _ _ =>
    simp only [exec_lb, exec_lh, exec_lw, exec_lbu, exec_lhu, sameOutcome_load h]
  | addi _ _ _ | slti _ _ _ | sltiu _ _ _ | xori _ _ _ | ori _ _ _ | andi _ _ _ =>
    simp only [exec_addi, exec_slti, exec_sltiu, exec_xori, exec_ori, exec_andi, sameOutcome_aluImm h]
  | slli _ _ _ | srli _ _ _ | srai _ _ _ => simp only [exec_slli, exec_srli, exec_srai, sameOutcome_aluImm h]
  | add _ _ _ | sub _ _ _ | slt _ _ _ | sltu _ _ _ | xor _ _ _ | or _ _ _ | and _ _ _ =>
    simp only [exec_add, exec_sub, exec_slt, exec_sltu, exec_xor, exec_or, exec_and, sameOutcome_aluReg h]
  | sll _ _ _ | srl _ _ _ | sra _ _ _ => simp only [exec_sll, exec_srl, exec_sra, sameOutcome_aluReg h]
  | sb _ _ _ | sh _ _ _ | sw _ _ _ => simp only [exec_sb, exec_sh, exec_sw, sameOutcome_store h]
  | beq _ _ _ | bne _ _ _ | blt _ _ _ | bge _ _ _ | bltu _ _ _ | bgeu _ _ _ =>
    simp only [exec_beq, exec_bne, exec_blt, exec_bge, exec_bltu, exec_bgeu, sameOutcome_branch h]
  | jalr _ _ _ | scall | lui _ _ | auipc _ _ | jal _ _ =>
    simp only [exec_jalr, exec_scall, exec_lui, exec_auipc, exec_jal, sameOutcome_unsupported h]

/-! ## A step (70_reset_and_hazards.md R189) -/

theorem SameButTiming.fetch : s.fetch = t.fetch := by rw [State.fetch, h.run, h.program, h.pc, State.fetch]

theorem sameOutcome_execRecord (r : Record) : SameOutcome (execRecord r s) (execRecord r t) := by
  cases r with
  | instr i => exact sameOutcome_exec h i
  | invalid w => exact sameOutcome_unsupported h

theorem sameOutcome_step : SameOutcome (step s) (step t) := by
  rw [step, step, h.fetch]
  cases t.fetch with
  | some r => exact sameOutcome_execRecord h r
  | none => rfl

end Shapes

/-- Settles O45: both cores fetch the same record, and its outcomes in the two are alike. -/
theorem stallTimingChangesNoValue : Obligations.StallTimingChangesNoValue := by
  intro s t h
  have hstep := sameOutcome_step h
  refine ⟨fun s' hs => ?_, fun f hs => ?_, fun r hs => ?_⟩
  all_goals rwa [hs] at hstep

end Sys2Proof.Machine
